-- ==== Sys2Proof/Word.lean ====
section
/-! DEFINITION. The word types of the block: the widths the spec gives its operand and result ports, slot fields and frame bytes. -/

namespace Sys2Proof

/-- One byte: a frame byte, a buffer byte, an 8-bit operand (20_memory.md R65). -/
abbrev Byte := BitVec 8

/-- A 32-bit operand or identifier (`ID_WORD`, 00_scope.md R7). -/
abbrev Word := BitVec 32

/-- A bus address, 8 bits (00_scope.md R12, R13). -/
abbrev Addr := BitVec 8

/-- A Parameter Group Number, 18 bits (30_encoding.md R86). -/
abbrev Pgn := BitVec 18

/-- A 64-bit ISO NAME (30_encoding.md R88). -/
abbrev NameWord := BitVec 64

/-- A time in milliseconds modulo 2^32 (10_state.md R27). -/
abbrev Millis := BitVec 32

/-- A CAN channel number. DESIGN CHOICE (log 3, safe): the spec gives the port no width, the model gives it 32 bits. -/
abbrev Channel := BitVec 32

/-- `ceil_div(a, b) = (a + b - 1) / b` in integers (00_scope.md R9). -/
def ceilDiv (a b : Nat) : Nat := (a + b - 1) / b

end Sys2Proof
end

