-- ==== Sys2Proof/Syntax.lean ====
section
/-! DEFINITION. The commands of the block: one constructor for each row of spec/opcode_table.json, carrying the operand record of 30_encoding.md R80. -/

namespace Sys2Proof

/-- The `type` operand of ID_ENCODE and ID_DECODE: 0 = Standard (11 bits), 1 = Extended (29 bits). -/
inductive IdType where
  | standard
  | extended
deriving DecidableEq, Repr

/-- A session's direction and SESSION_ABORT's `dir` operand: 0 = Tx, 1 = Rx. -/
inductive Dir where
  | tx
  | rx
deriving DecidableEq, Repr

/-- The nine fields of a NAME as operands or results, 32 bits each, and the reserved bit 48 (30_encoding.md R80, R88). -/
structure NameFields where
  identity            : Word
  manufacturer        : Word
  ecuInstance         : Word
  functionInstance    : Word
  function            : Word
  deviceClass         : Word
  deviceClassInstance : Word
  industryGroup       : Word
  aac                 : Word
  reserved            : Bool
deriving DecidableEq, Repr

/-- One filter of NAME_MATCH: a field selector (4 bits, 9..15 reserved) and the value compared (30_encoding.md R80, R82). -/
structure Filter where
  field : BitVec 4
  value : Word
deriving DecidableEq, Repr

/-- The operand record of TX_SEND (43_block_commands.md R300). `prio = none` is an absent priority, `dst = 0xFF` an absent destination. -/
structure SendRequest where
  now     : Millis
  channel : Channel
  pgn     : Word
  prio    : Option (BitVec 3)
  src     : Addr
  dst     : Addr
  len     : Word
  payload : List Byte
deriving DecidableEq, Repr

/-- A frame the block emits or receives (30_encoding.md R89): the operand of RX_FRAME, and what the block offers to the driver. -/
structure Frame where
  channel    : Channel
  identifier : Word
  data       : List Byte
  length     : BitVec 4
  extended   : Bool
  timestamp  : Millis
deriving DecidableEq, Repr

/-- The commands of the block (30_encoding.md R81). -/
inductive Instr where
  | idEncode (ty : IdType) (prio pgn : Word) (da sa : Addr)
  | idDecode (ty : IdType) (raw : Word)
  | nameEncode (fields : NameFields)
  | nameDecode (name : NameWord)
  | nameCmp (a b : NameWord)
  | nameMatch (name : NameWord) (count : Byte) (filters : List Filter)
  | nameGetIdentity (name : NameWord)
  | nameGetManufacturer (name : NameWord)
  | nameGetEcuInstance (name : NameWord)
  | nameGetFunctionInstance (name : NameWord)
  | nameGetFunction (name : NameWord)
  | nameGetDeviceClass (name : NameWord)
  | nameGetDeviceClassInstance (name : NameWord)
  | nameGetIndustryGroup (name : NameWord)
  | nameGetAac (name : NameWord)
  | nameSetIdentity (name : NameWord) (value : Word)
  | nameSetManufacturer (name : NameWord) (value : Word)
  | nameSetEcuInstance (name : NameWord) (value : Word)
  | nameSetFunctionInstance (name : NameWord) (value : Word)
  | nameSetFunction (name : NameWord) (value : Word)
  | nameSetDeviceClass (name : NameWord) (value : Word)
  | nameSetDeviceClassInstance (name : NameWord) (value : Word)
  | nameSetIndustryGroup (name : NameWord) (value : Word)
  | nameSetAac (name : NameWord) (value : Word)
  | txSend (request : SendRequest)
  | rxFrame (frame : Frame)
  | update (now : Millis)
  | sessionAbort (now : Millis) (channel : Channel) (src dst : Addr) (dir : Dir)
  | status
  | reset
deriving DecidableEq, Repr

end Sys2Proof
end

