-- ==== Sys2Proof/Decode.lean ====
section
/-! DEFINITION. Reading a command record and writing one. A record is the opcode byte of 30_encoding.md R81 followed by the operands of R80 in the order of that table, except that RX_FRAME's data bytes stand last.
DESIGN CHOICE (log 2, safe): the spec names the operands and their widths and lays them out in no bytes; here a multi-byte operand is stored least significant byte first, and an operand narrower than its byte fills the byte's low bits, the bits above it being no part of the port (10_state.md R20). -/

namespace Sys2Proof

/-- Why a record is no command: no opcode, an opcode 30_encoding.md R81 reserves, or an operand record whose length is not the one that follows from the opcode (R106). -/
inductive DecodeError where
  | emptyRecord
  | reservedOpcode (op : Byte)
  | badRecord (op : Byte)
deriving DecidableEq, Repr

/-- The low `n` bytes of a value, least significant first: `L16`, `L24` and `L32` of 30_encoding.md R92 and the model's record layout. -/
def leBytes {w : Nat} (n : Nat) (v : BitVec w) : List Byte :=
  (List.range n).map fun i => v.extractLsb' (8 * i) 8

/-- The 16-bit value of two bytes, the first the least significant. -/
def word16 (b0 b1 : Byte) : BitVec 16 := b1 ++ b0

/-- The 24-bit value of three bytes, the first the least significant. -/
def word24 (b0 b1 b2 : Byte) : BitVec 24 := b2 ++ b1 ++ b0

/-- The 32-bit value of four bytes, the first the least significant. -/
def word32 (b0 b1 b2 b3 : Byte) : BitVec 32 := b3 ++ b2 ++ b1 ++ b0

/-! ### Reading operands -/

/-- One operand of 8 bits or fewer. -/
def readByte : List Byte → Option (Byte × List Byte)
  | b :: r => some (b, r)
  | [] => none

/-- One 32-bit operand. -/
def readWord : List Byte → Option (Word × List Byte)
  | b0 :: b1 :: b2 :: b3 :: r => some (word32 b0 b1 b2 b3, r)
  | _ => none

/-- One 64-bit operand. -/
def readName (r : List Byte) : Option (NameWord × List Byte) := do
  let (lo, r) ← readWord r
  let (hi, r) ← readWord r
  return (hi ++ lo, r)

/-- A 1-bit operand: bit 0 of its byte. -/
def bitOf (b : Byte) : Bool := b.getLsbD 0

/-- The `type` operand: 0 = Standard, 1 = Extended (30_encoding.md R80). -/
def idTypeOf (b : Byte) : IdType := if bitOf b then .extended else .standard

/-- The `dir` operand: 0 = Tx, 1 = Rx (30_encoding.md R80). -/
def dirOf (b : Byte) : Dir := if bitOf b then .rx else .tx

/-- TX_SEND's optional `prio`: bit 3 of its byte says that it is present, bits 2:0 hold it (log 2). -/
def prioOf (b : Byte) : Option (BitVec 3) :=
  if b.getLsbD 3 then some (b.extractLsb' 0 3) else none

/-- `n` filters of NAME_MATCH, each a selector byte and a 32-bit value. -/
def readFilters : Nat → List Byte → Option (List Filter × List Byte)
  | 0, r => some ([], r)
  | n + 1, r => do
    let (f, r) ← readByte r
    let (v, r) ← readWord r
    let (fs, r) ← readFilters n r
    return (⟨f.extractLsb' 0 4, v⟩ :: fs, r)

/-- The instruction, if the record has ended. -/
def atEnd (i : Instr) : List Byte → Option Instr
  | [] => some i
  | _ :: _ => none

/-- A record that holds one NAME: NAME_DECODE and the getters. -/
def readNameRecord (k : NameWord → Instr) (r : List Byte) : Option Instr := do
  let (n, r) ← readName r
  atEnd (k n) r

/-- A record that holds a NAME and a value: the setters. -/
def readSetRecord (k : NameWord → Word → Instr) (r : List Byte) : Option Instr := do
  let (n, r) ← readName r
  let (v, r) ← readWord r
  atEnd (k n v) r

/-- ID_ENCODE: `type`, `prio`, `pgn`, `da`, `sa`. -/
def readIdEncode (r : List Byte) : Option Instr := do
  let (ty, r) ← readByte r
  let (prio, r) ← readWord r
  let (pgn, r) ← readWord r
  let (da, r) ← readByte r
  let (sa, r) ← readByte r
  atEnd (.idEncode (idTypeOf ty) prio pgn da sa) r

/-- ID_DECODE: `type`, `raw`. -/
def readIdDecode (r : List Byte) : Option Instr := do
  let (ty, r) ← readByte r
  let (raw, r) ← readWord r
  atEnd (.idDecode (idTypeOf ty) raw) r

/-- NAME_ENCODE: the nine fields, then `reserved`. -/
def readNameEncode (r : List Byte) : Option Instr := do
  let (f0, r) ← readWord r
  let (f1, r) ← readWord r
  let (f2, r) ← readWord r
  let (f3, r) ← readWord r
  let (f4, r) ← readWord r
  let (f5, r) ← readWord r
  let (f6, r) ← readWord r
  let (f7, r) ← readWord r
  let (f8, r) ← readWord r
  let (rs, r) ← readByte r
  atEnd (.nameEncode ⟨f0, f1, f2, f3, f4, f5, f6, f7, f8, bitOf rs⟩) r

/-- NAME_CMP: `a`, `b`. -/
def readNameCmp (r : List Byte) : Option Instr := do
  let (a, r) ← readName r
  let (b, r) ← readName r
  atEnd (.nameCmp a b) r

/-- NAME_MATCH: `name`, `count`, `count` filters. -/
def readNameMatch (r : List Byte) : Option Instr := do
  let (n, r) ← readName r
  let (count, r) ← readByte r
  let (fs, r) ← readFilters count.toNat r
  atEnd (.nameMatch n count fs) r

/-- TX_SEND: `now`, `channel`, `pgn`, `prio`, `src`, `dst`, `len`, `len` payload bytes. -/
def readTxSend (r : List Byte) : Option Instr := do
  let (now, r) ← readWord r
  let (channel, r) ← readWord r
  let (pgn, r) ← readWord r
  let (prio, r) ← readByte r
  let (src, r) ← readByte r
  let (dst, r) ← readByte r
  let (len, r) ← readWord r
  if r.length = len.toNat then
    some (.txSend ⟨now, channel, pgn, prioOf prio, src, dst, len, r⟩)
  else none

/-- RX_FRAME: `channel`, `identifier`, `length`, `extended`, `timestamp`, and every byte that follows as `data`, so that a length that is not their number can be issued (30_encoding.md R84; log 22). -/
def readRxFrame (r : List Byte) : Option Instr := do
  let (channel, r) ← readWord r
  let (identifier, r) ← readWord r
  let (length, r) ← readByte r
  let (extended, r) ← readByte r
  let (timestamp, r) ← readWord r
  some (.rxFrame ⟨channel, identifier, r, length.extractLsb' 0 4, bitOf extended, timestamp⟩)

/-- UPDATE: `now`. -/
def readUpdate (r : List Byte) : Option Instr := do
  let (now, r) ← readWord r
  atEnd (.update now) r

/-- SESSION_ABORT: `now`, `channel`, `src`, `dst`, `dir`. -/
def readSessionAbort (r : List Byte) : Option Instr := do
  let (now, r) ← readWord r
  let (channel, r) ← readWord r
  let (src, r) ← readByte r
  let (dst, r) ← readByte r
  let (dir, r) ← readByte r
  atEnd (.sessionAbort now channel src dst (dirOf dir)) r

/-- The opcode map (30_encoding.md R81): the reader of the opcode's operand record, or `none` for a reserved opcode (R84). -/
def recordReader (op : Byte) : Option (List Byte → Option Instr) :=
  match op.toNat with
  | 0x01 => some readIdEncode
  | 0x02 => some readIdDecode
  | 0x10 => some readNameEncode
  | 0x11 => some (readNameRecord .nameDecode)
  | 0x12 => some readNameCmp
  | 0x13 => some readNameMatch
  | 0x20 => some (readNameRecord .nameGetIdentity)
  | 0x21 => some (readNameRecord .nameGetManufacturer)
  | 0x22 => some (readNameRecord .nameGetEcuInstance)
  | 0x23 => some (readNameRecord .nameGetFunctionInstance)
  | 0x24 => some (readNameRecord .nameGetFunction)
  | 0x25 => some (readNameRecord .nameGetDeviceClass)
  | 0x26 => some (readNameRecord .nameGetDeviceClassInstance)
  | 0x27 => some (readNameRecord .nameGetIndustryGroup)
  | 0x28 => some (readNameRecord .nameGetAac)
  | 0x30 => some (readSetRecord .nameSetIdentity)
  | 0x31 => some (readSetRecord .nameSetManufacturer)
  | 0x32 => some (readSetRecord .nameSetEcuInstance)
  | 0x33 => some (readSetRecord .nameSetFunctionInstance)
  | 0x34 => some (readSetRecord .nameSetFunction)
  | 0x35 => some (readSetRecord .nameSetDeviceClass)
  | 0x36 => some (readSetRecord .nameSetDeviceClassInstance)
  | 0x37 => some (readSetRecord .nameSetIndustryGroup)
  | 0x38 => some (readSetRecord .nameSetAac)
  | 0x40 => some readTxSend
  | 0x41 => some readRxFrame
  | 0x42 => some readUpdate
  | 0x43 => some readSessionAbort
  | 0x44 => some (atEnd .status)
  | 0x7F => some (atEnd .reset)
  | _ => none

/-- The command of a record. Total on any bytes: a record that is no command is rejected by name. -/
def decode : List Byte → Except DecodeError Instr
  | [] => .error .emptyRecord
  | op :: r =>
    match recordReader op with
    | none => .error (.reservedOpcode op)
    | some read =>
      match read r with
      | some i => .ok i
      | none => .error (.badRecord op)

/-! ### Writing a record -/

/-- The byte of a 1-bit operand. -/
def byteOfBit (b : Bool) : Byte := if b then 1 else 0

/-- The byte of the `type` operand. -/
def byteOfIdType : IdType → Byte
  | .standard => 0
  | .extended => 1

/-- The byte of the `dir` operand. -/
def byteOfDir : Dir → Byte
  | .tx => 0
  | .rx => 1

/-- The byte of TX_SEND's optional `prio`. -/
def byteOfPrio : Option (BitVec 3) → Byte
  | none => 0
  | some p => 0b00001#5 ++ p

/-- The bytes of one filter. -/
def filterBytes (f : Filter) : List Byte := f.field.setWidth 8 :: leBytes 4 f.value

/-- The opcode of a command (30_encoding.md R81). -/
def opcode : Instr → Byte
  | .idEncode .. => 0x01
  | .idDecode .. => 0x02
  | .nameEncode .. => 0x10
  | .nameDecode .. => 0x11
  | .nameCmp .. => 0x12
  | .nameMatch .. => 0x13
  | .nameGetIdentity .. => 0x20
  | .nameGetManufacturer .. => 0x21
  | .nameGetEcuInstance .. => 0x22
  | .nameGetFunctionInstance .. => 0x23
  | .nameGetFunction .. => 0x24
  | .nameGetDeviceClass .. => 0x25
  | .nameGetDeviceClassInstance .. => 0x26
  | .nameGetIndustryGroup .. => 0x27
  | .nameGetAac .. => 0x28
  | .nameSetIdentity .. => 0x30
  | .nameSetManufacturer .. => 0x31
  | .nameSetEcuInstance .. => 0x32
  | .nameSetFunctionInstance .. => 0x33
  | .nameSetFunction .. => 0x34
  | .nameSetDeviceClass .. => 0x35
  | .nameSetDeviceClassInstance .. => 0x36
  | .nameSetIndustryGroup .. => 0x37
  | .nameSetAac .. => 0x38
  | .txSend .. => 0x40
  | .rxFrame .. => 0x41
  | .update .. => 0x42
  | .sessionAbort .. => 0x43
  | .status => 0x44
  | .reset => 0x7F

/-- The operand bytes of a command, in the order of 30_encoding.md R80 (log 2). -/
def operandBytes : Instr → List Byte
  | .idEncode ty prio pgn da sa => byteOfIdType ty :: leBytes 4 prio ++ leBytes 4 pgn ++ [da, sa]
  | .idDecode ty raw => byteOfIdType ty :: leBytes 4 raw
  | .nameEncode f =>
    leBytes 4 f.identity ++ leBytes 4 f.manufacturer ++ leBytes 4 f.ecuInstance ++
    leBytes 4 f.functionInstance ++ leBytes 4 f.function ++ leBytes 4 f.deviceClass ++
    leBytes 4 f.deviceClassInstance ++ leBytes 4 f.industryGroup ++ leBytes 4 f.aac ++
    [byteOfBit f.reserved]
  | .nameCmp a b => leBytes 8 a ++ leBytes 8 b
  | .nameMatch n count fs => leBytes 8 n ++ [count] ++ fs.flatMap filterBytes
  | .nameDecode n | .nameGetIdentity n | .nameGetManufacturer n | .nameGetEcuInstance n
  | .nameGetFunctionInstance n | .nameGetFunction n | .nameGetDeviceClass n
  | .nameGetDeviceClassInstance n | .nameGetIndustryGroup n | .nameGetAac n => leBytes 8 n
  | .nameSetIdentity n v | .nameSetManufacturer n v | .nameSetEcuInstance n v
  | .nameSetFunctionInstance n v | .nameSetFunction n v | .nameSetDeviceClass n v
  | .nameSetDeviceClassInstance n v | .nameSetIndustryGroup n v | .nameSetAac n v =>
    leBytes 8 n ++ leBytes 4 v
  | .txSend q =>
    leBytes 4 q.now ++ leBytes 4 q.channel ++ leBytes 4 q.pgn ++
    [byteOfPrio q.prio, q.src, q.dst] ++ leBytes 4 q.len ++ q.payload
  | .rxFrame f =>
    leBytes 4 f.channel ++ leBytes 4 f.identifier ++
    [f.length.setWidth 8, byteOfBit f.extended] ++ leBytes 4 f.timestamp ++ f.data
  | .update now => leBytes 4 now
  | .sessionAbort now ch src dst dir => leBytes 4 now ++ leBytes 4 ch ++ [src, dst, byteOfDir dir]
  | .status | .reset => []

/-- The record of a command. -/
def encode (i : Instr) : List Byte := opcode i :: operandBytes i

/-! ### The opcode table's words -/

/-- How many operand bytes a record of this opcode has when its count or length operand is 0. -/
def shortestOperands (op : Byte) : Nat :=
  match op.toNat with
  | 0x01 => 11
  | 0x02 => 5
  | 0x10 => 37
  | 0x11 => 8
  | 0x12 => 16
  | 0x13 => 9
  | 0x40 => 19
  | 0x41 => 14
  | 0x42 => 4
  | 0x43 => 11
  | 0x44 => 0
  | 0x7F => 0
  | n => if 0x20 ≤ n ∧ n ≤ 0x28 then 8 else if 0x30 ≤ n ∧ n ≤ 0x38 then 12 else 0

/-- The record of a table word of `nbits` bits: its bytes, the first the opcode, then operand bytes of zeros up to the record's own length. -/
def tableRecord (nbits w : Nat) : List Byte :=
  let bytes := (List.range (nbits / 8)).map fun i => BitVec.ofNat 8 (w / 2 ^ (8 * i))
  bytes ++ List.replicate (1 + shortestOperands (bytes.headD 0) - bytes.length) 0

/-- The instruction the decoder reads from an opcode-table word, `none` where it refuses. -/
def decodeTableWord (nbits w : Nat) : Option Instr :=
  match decode (tableRecord nbits w) with
  | .ok i => some i
  | .error _ => none

end Sys2Proof
end

