-- ==== Sys2Proof/Config.lean ====
section
/-! DEFINITION. The parameters fixed when the block is elaborated (00_scope.md R7, R8; 10_state.md R31), and the free values of the model: constants with no body, of which nothing in Lean can know a value. -/

namespace Sys2Proof

/-- The abort reason codes, parameters of the block (60_exceptions.md R351). -/
structure AbortCodes where
  alreadyInSession  : Byte
  systemResources   : Byte
  timeout           : Byte
  ctsWhileSending   : Byte
  maxRetransmit     : Byte
  unexpectedDT      : Byte
  badSequence       : Byte
  duplicateSequence : Byte
  tooBig            : Byte
  unexpectedDPO     : Byte
  dpoCountTooBig    : Byte
  badDpoOffset      : Byte
  etpTooBig         : Byte
  anyOther          : Byte
  appAbort          : Byte
deriving DecidableEq, Repr

/-- The default abort reason codes (60_exceptions.md R351). UNVERIFIED (log 18): the spec marks them as general knowledge. -/
def AbortCodes.default : AbortCodes where
  alreadyInSession  := 1
  systemResources   := 2
  timeout           := 3
  ctsWhileSending   := 4
  maxRetransmit     := 5
  unexpectedDT      := 6
  badSequence       := 7
  duplicateSequence := 8
  tooBig            := 9
  unexpectedDPO     := 9
  dpoCountTooBig    := 11
  badDpoOffset      := 12
  etpTooBig         := 250
  anyOther          := 250
  appAbort          := 250

/-- The parameter `can_allocate(len)`, an OPEN predicate that may depend on the slots in use (00_scope.md R7, D29; log 7). -/
inductive Allocator where
  /-- Any predicate of the slot file and the length: the constant `Config.freeAlloc`, of which nothing is known. DESIGN CHOICE (log 7, safe): it may read all of each session. -/
  | free
  /-- The predicate `len <= limit`, the form that 95_test_vectors.md uses. -/
  | upTo (limit : Nat)
deriving DecidableEq, Repr

/-- The configuration registers (10_state.md R31). The state holds one, no command writes it, and a statement about every state is a statement about every configuration. -/
structure Config where
  /-- `NUM_CHANNELS`, OPEN, at least 1 (D43). -/
  numChannels : Nat
  /-- `MAX_SESSIONS`, OPEN, at least 1 (D29). -/
  maxSessions : Nat
  /-- `can_allocate`, OPEN (D29). -/
  allocator : Allocator
  /-- `CTS_MAX_PACKETS`, 1..255. -/
  ctsMaxPackets : Byte
  /-- `TP_PRIORITY`. -/
  tpPriority : BitVec 3
  /-- `DEFAULT_PRIORITY`. -/
  defaultPriority : BitVec 3
  /-- `T1`: Rx timeout between data frames. -/
  t1 : Millis
  /-- `T2`: Rx timeout after a CTS is sent. -/
  t2 : Millis
  /-- `T3`: Tx timeout for a CTS or an EOMA. -/
  t3 : Millis
  /-- `T4`: Tx timeout after a hold CTS. -/
  t4 : Millis
  /-- `BAM_INTERVAL`. -/
  bamInterval : Millis
  /-- `MAX_FILTERS`. -/
  maxFilters : Nat
  /-- `IDV_REJECT_GLOBAL_SA`. -/
  idvRejectGlobalSa : Bool
  /-- The abort reason codes. -/
  codes : AbortCodes
deriving DecidableEq, Repr

/-- The configuration of the reset state: the defaults of 00_scope.md R7, of which the spec marks the times, the priorities and the CTS size as general knowledge (UNVERIFIED, log 18).
DESIGN CHOICE (log 1, unsafe): the OPEN `NUM_CHANNELS` and `MAX_SESSIONS` stand at 1 and 4. The OPEN `can_allocate` is left open (log 7). -/
def Config.default : Config where
  numChannels       := 1
  maxSessions       := 4
  allocator         := .free
  ctsMaxPackets     := 16
  tpPriority        := 7
  defaultPriority   := 6
  t1                := 750
  t2                := 1250
  t3                := 1250
  t4                := 1050
  bamInterval       := 50
  maxFilters        := 16
  idvRejectGlobalSa := false
  codes             := AbortCodes.default

/-- A configuration the spec allows: the ranges of 00_scope.md R7. -/
def Config.wf (c : Config) : Bool :=
  decide (1 ≤ c.numChannels) && decide (1 ≤ c.maxSessions) && decide (1 ≤ c.ctsMaxPackets.toNat)

/-- `TP_MAX_LEN`: the largest TP-CM or BAM message (00_scope.md R7). -/
def tpMaxLen : Nat := 1785

/-- `ETP_MAX_LEN`: the largest ETP message (00_scope.md R7). -/
def etpMaxLen : Nat := 117440505

/-- `SF_MAX_LEN`: the largest single-frame payload (00_scope.md R7). -/
def sfMaxLen : Nat := 8

/-- `BYTES_PER_PACKET`: the payload bytes of a data-transfer frame (00_scope.md R7). -/
def bytesPerPacket : Nat := 7

/-- `NULL_ADDR` (00_scope.md R13). -/
def nullAddr : Addr := 0xFE

/-- `GLOBAL_ADDR` (00_scope.md R13). -/
def globalAddr : Addr := 0xFF

/-- FREE VALUE (log 5, safe): the `n`-th unspecified value of result port `port`, of width `w` (93_implementation_defined.md U1, U5). -/
opaque Config.freePort (w port n : Nat) : BitVec w

/-- FREE VALUE (log 6, safe): the driver's answer to the offer made at draw `n`, where the state's list of answers has run out (93_implementation_defined.md U10). -/
opaque Config.freeAccept (n : Nat) : Bool

/-- FREE VALUE (log 7, safe): `can_allocate(len)` of a block whose slots hold these sessions, where the configuration leaves the predicate open (00_scope.md R7, 93_implementation_defined.md U11). That it is given whole sessions is a DESIGN CHOICE (log 7). -/
opaque Config.freeAlloc {Session : Type} (slots : List (Option Session)) (len : Nat) : Bool

/-- FREE VALUE (log 12, safe): the byte at offset `off` of the buffer taken at draw `n`, until it is written (93_implementation_defined.md U3). -/
opaque Config.freeByte (n off : Nat) : Byte

/-- FREE VALUE (log 24, safe): the timestamp of the frame emitted at draw `n`, a field that 30_encoding.md R89 gives an emitted frame and for which the spec states no value. -/
opaque Config.freeStamp (n : Nat) : Millis

end Sys2Proof
end

