-- ==== Sys2Proof/Machine/State.lean ====
section
/-! DEFINITION. The state of the block as plain data (10_state.md, 20_memory.md), the record of the world around it that a run needs (the commands issued, the driver's answers, the frames offered, the events produced), the reasons a step can stop, and the state after reset (70_reset_and_hazards.md R380). -/

namespace Sys2Proof.Machine

/-- A transport mode (10_state.md R22). -/
inductive Mode where
  | tp
  | bam
  | etp
deriving DecidableEq, Repr

/-- A session's state (10_state.md R24). `complete` and `aborted` are written by the step that also frees the slot, so no slot holds them between commands. -/
inductive SessionState where
  | idle
  | requestedToSend
  | clearToSendReceived
  | sending
  | waitingForEndAck
  | announced
  | requestReceived
  | clearToSendSent
  | receiving
  | complete
  | aborted
deriving DecidableEq, Repr

/-- A control frame a session can owe (10_state.md R25). `pending = none` is the spec's `None`. -/
inductive Control where
  | rts
  | cts
  | dpo
  | eoma
  | announce
deriving DecidableEq, Repr

/-- The bytes written to a session's buffer: by offset, offsets strictly rising (20_memory.md R60). -/
abbrev Memory := List Host.Cell

/-- A live session: the fields of a valid slot (10_state.md R22). -/
structure Session where
  channel      : Channel
  mode         : Mode
  dir          : Dir
  src          : Addr
  dst          : Addr
  pgn          : Pgn
  totalLen     : BitVec 32
  totalPkts    : BitVec 24
  nextPkt      : BitVec 32
  burstLeft    : Byte
  rtsMax       : Byte
  dpoOffset    : BitVec 24
  dpoSeen      : Bool
  hold         : Bool
  state        : SessionState
  pending      : Option Control
  lastActivity : Millis
  abortReason  : Byte
  buf          : Memory
  /-- MODEL'S OWN: the draw at which the buffer was taken; it names the values of the bytes nothing has written (20_memory.md R62; log 12). -/
  bufDraw      : Nat
deriving DecidableEq, Repr

/-- The status of a command (30_encoding.md R83). -/
inductive Status where
  | ok
  | illegal
  | unsupported
deriving DecidableEq, Repr

/-- The result ports (30_encoding.md R80), the status among them. A port the last command did not write holds a free value (10_state.md R20). -/
structure Ports where
  status    : Status
  raw       : Word
  prio      : BitVec 3
  pgn       : Pgn
  da        : Addr
  sa        : Addr
  valid     : Bool
  name      : NameWord
  fields    : NameFields
  value     : Word
  order     : BitVec 2
  matched   : Bool
  accepted  : Bool
  found     : Bool
  dropCount : BitVec 32
  nextMsgId : BitVec 64
  active    : Byte
deriving DecidableEq, Repr

/-- The registry's answers to the two predicates the block reads (60_exceptions.md R356): the (channel, address) pairs of internal control functions, and of all reachable ones. -/
structure Registry where
  internalCfs  : List (Channel × Addr)
  reachableCfs : List (Channel × Addr)
deriving DecidableEq, Repr

/-- A command issued by the host: its record, and the registry's answers at the time of the command (60_exceptions.md R356; log 17). -/
structure Command where
  record   : List Byte
  registry : Registry
deriving DecidableEq, Repr

/-- A frame offered to the CAN driver and the driver's answer (30_encoding.md R89, 60_exceptions.md R355). -/
structure Offer where
  frame    : Frame
  accepted : Bool
deriving DecidableEq, Repr

/-- The output events (60_exceptions.md R353). -/
inductive Event where
  | delivered (channel : Channel) (pgn : Pgn) (src dst : Addr) (len : BitVec 32) (payload : List Byte) (msgId : BitVec 64)
  | txCompleted (channel : Channel) (mode : Mode) (pgn : Pgn) (src dst : Addr)
  | aborted (channel : Channel) (mode : Mode) (dir : Dir) (pgn : Pgn) (src dst : Addr) (reason : Byte)
  | passthrough (frame : Frame)
deriving DecidableEq, Repr

/-- The state. `cfg` to `out` are the block's; `inbox` to `events` record the world around it, and `draws` counts the free values drawn. -/
structure State where
  /-- The configuration registers (10_state.md R31): read only. -/
  cfg       : Config
  /-- The session slot file (10_state.md R22): `none` is a slot with `valid = 0`, whose other fields are never read (R23; log 20). -/
  slots     : List (Option Session)
  /-- `drop_count` (10_state.md R26). -/
  dropCount : BitVec 32
  /-- `next_msg_id` (10_state.md R26). -/
  nextMsgId : BitVec 64
  /-- The result ports of the last command (10_state.md R20). -/
  out       : Ports
  /-- The commands the host has issued and the block has not yet taken, oldest first (20_memory.md R69). The head's record is the operand ports. -/
  inbox     : List Command
  /-- The registry's answers for the current command (60_exceptions.md R356). -/
  registry  : Registry
  /-- The driver's answers to the offers to come, first to come first (60_exceptions.md R355). Where the list has run out an answer is a free value (log 6). -/
  driverIn  : List Bool
  /-- MODEL'S OWN: how many free values have been drawn; it makes each of them a fresh one (log 5). -/
  draws     : Nat
  /-- Every frame offered to the driver, oldest first (60_exceptions.md R355; log 19). -/
  offered   : List Offer
  /-- The event stream, oldest first (60_exceptions.md R353; log 19). -/
  events    : List Event
deriving DecidableEq, Repr

/-- Why the machine stops. The rules never make the access (20_memory.md R61), and no state that meets `State.wf` raises the fault. -/
inductive Fault where
  /-- `BufferBounds` of 20_memory.md R61 (93_implementation_defined.md U2): raised by `memRead` and `memWrite` on an access outside `0..total_len-1` (log 13). Safe: the model stops. -/
  | bufferBounds
deriving DecidableEq, Repr

/-- Why a step has no meaning. -/
inductive Refusal where
  /-- Raised by an arm of `exec` whose command has no meaning yet: none. Safe: the model stops. -/
  | notModelled (mnemonic : String)
  /-- Raised by `step` on a record that is no operand record of 30_encoding.md R80: empty, or of a length that does not follow from its opcode (R106). The host cannot issue one. Safe: the model stops. -/
  | malformedRecord
deriving DecidableEq, Repr

/-- Every result port at zero: their value at power-on. DESIGN CHOICE (log 4, unsafe): the spec leaves it unspecified. -/
def Ports.reset : Ports where
  status    := .ok
  raw       := 0
  prio      := 0
  pgn       := 0
  da        := 0
  sa        := 0
  valid     := false
  name      := 0
  fields    := ⟨0, 0, 0, 0, 0, 0, 0, 0, 0, false⟩
  value     := 0
  order     := 0
  matched   := false
  accepted  := false
  found     := false
  dropCount := 0
  nextMsgId := 0
  active    := 0

/-- The state after a power-on reset of a block of this configuration (70_reset_and_hazards.md R380). The registry has named no control function, no command has been issued, and nothing has been sent (log 8). -/
def State.resetWith (cfg : Config) : State where
  cfg       := cfg
  slots     := List.replicate cfg.maxSessions none
  dropCount := 0
  nextMsgId := 0
  out       := Ports.reset
  inbox     := []
  registry  := ⟨[], []⟩
  driverIn  := []
  draws     := 0
  offered   := []
  events    := []

/-- The state after reset, of the default configuration (70_reset_and_hazards.md R380). -/
def State.reset : State := State.resetWith Config.default

end Sys2Proof.Machine
end

