-- ==== Sys2Proof/Machine/Operands.lean ====
section
/-! DEFINITION. The value formats the commands work on: the identifier codec, the NAME bit fields, the transport PGNs and control bytes, the packet arithmetic, the abort codes, the timeout limits, and the frames a session builds (30_encoding.md part B, 40_identifier_codec.md, 41_name_codec.md, 42_session_engine.md). -/

namespace Sys2Proof.Machine

/-! ### The 29-bit identifier (30_encoding.md R85 to R87) -/

/-- PDU2 (broadcast): `PF >= 0xF0`, that is `pgn[15:12] == 0xF` (30_encoding.md R87). -/
def isPdu2 (g : Pgn) : Bool := g.extractLsb' 12 4 == 0xF#4

/-- `IDENC` on fields already truncated: `{0b000, p, g, sa}` for PDU2, `{0b000, p, g[17:8], da, sa}` for PDU1 (40_identifier_codec.md R131). -/
def idEncode (p : BitVec 3) (g : Pgn) (da sa : Addr) : Word :=
  if isPdu2 g then (0#3 ++ p ++ g ++ sa : BitVec (3 + 3 + 18 + 8))
  else (0#3 ++ p ++ g.extractLsb' 8 10 ++ da ++ sa : BitVec (3 + 3 + 10 + 8 + 8))

/-- The field record of ID_DECODE (40_identifier_codec.md R133). -/
structure IdFields where
  prio : BitVec 3
  pgn  : Pgn
  da   : Addr
  sa   : Addr
deriving DecidableEq, Repr

/-- `IDDEC`: bits 28:26, 25:8, 15:8 and 7:0. A PDU2 identifier decodes to the global destination, a PDU1 PGN to one with PS = 0 (40_identifier_codec.md R133). -/
def idDecode (raw : Word) : IdFields :=
  if raw.extractLsb' 20 4 == 0xF#4 then
    ⟨raw.extractLsb' 26 3, raw.extractLsb' 8 18, globalAddr, raw.extractLsb' 0 8⟩
  else
    ⟨raw.extractLsb' 26 3, (raw.extractLsb' 16 10 ++ 0#8 : BitVec (10 + 8)), raw.extractLsb' 8 8, raw.extractLsb' 0 8⟩

/-! ### The 64-bit NAME (30_encoding.md R88) -/

/-- The nine fields of a NAME, in the order of their selectors (30_encoding.md R82). -/
inductive NameField where
  | identity
  | manufacturer
  | ecuInstance
  | functionInstance
  | function
  | deviceClass
  | deviceClassInstance
  | industryGroup
  | aac
deriving DecidableEq, Repr

/-- `lo(f)`: the field's low bit (30_encoding.md R88). -/
def NameField.lo : NameField → Nat
  | .identity => 0
  | .manufacturer => 21
  | .ecuInstance => 32
  | .functionInstance => 35
  | .function => 40
  | .deviceClass => 49
  | .deviceClassInstance => 56
  | .industryGroup => 60
  | .aac => 63

/-- `w(f)`: the field's width (30_encoding.md R88). -/
def NameField.width : NameField → Nat
  | .identity => 21
  | .manufacturer => 11
  | .ecuInstance => 3
  | .functionInstance => 5
  | .function => 8
  | .deviceClass => 7
  | .deviceClassInstance => 4
  | .industryGroup => 3
  | .aac => 1

/-- `mask(f) = ((1 << w(f)) - 1) << lo(f)` (30_encoding.md R88). -/
def NameField.mask (f : NameField) : NameWord := ((1#64 <<< f.width) - 1#64) <<< f.lo

/-- The field of a selector; 9..15 are reserved (30_encoding.md R82). -/
def NameField.ofSelector (f : BitVec 4) : Option NameField :=
  match f.toNat with
  | 0 => some .identity
  | 1 => some .manufacturer
  | 2 => some .ecuInstance
  | 3 => some .functionInstance
  | 4 => some .function
  | 5 => some .deviceClass
  | 6 => some .deviceClassInstance
  | 7 => some .industryGroup
  | 8 => some .aac
  | _ => none

/-- `NameGet(n, f) = zext_32(n[lo(f)+w(f)-1 : lo(f)])` (41_name_codec.md R151). -/
def nameGet (n : NameWord) (f : NameField) : Word := (n.extractLsb' f.lo f.width).setWidth 32

/-- `NameSet(n, f, v) = (n & ~mask(f)) | (zext_64(v[w(f)-1:0]) << lo(f))` (41_name_codec.md R152). -/
def nameSet (n : NameWord) (f : NameField) (v : Word) : NameWord :=
  (n &&& ~~~f.mask) ||| (((v.setWidth f.width).setWidth 64) <<< f.lo)

/-- The reserved bit of a NAME (30_encoding.md R88). -/
def nameReserved (n : NameWord) : Bool := n.getLsbD 48

/-- NAME_ENCODE: the nine fields set one after another on the reserved bit alone (41_name_codec.md R171). -/
def nameEncode (f : NameFields) : NameWord :=
  let n := if f.reserved then 1#64 <<< 48 else 0#64
  let n := nameSet n .identity f.identity
  let n := nameSet n .manufacturer f.manufacturer
  let n := nameSet n .ecuInstance f.ecuInstance
  let n := nameSet n .functionInstance f.functionInstance
  let n := nameSet n .function f.function
  let n := nameSet n .deviceClass f.deviceClass
  let n := nameSet n .deviceClassInstance f.deviceClassInstance
  let n := nameSet n .industryGroup f.industryGroup
  nameSet n .aac f.aac

/-- NAME_DECODE (41_name_codec.md R172). -/
def nameDecode (n : NameWord) : NameFields where
  identity            := nameGet n .identity
  manufacturer        := nameGet n .manufacturer
  ecuInstance         := nameGet n .ecuInstance
  functionInstance    := nameGet n .functionInstance
  function            := nameGet n .function
  deviceClass         := nameGet n .deviceClass
  deviceClassInstance := nameGet n .deviceClassInstance
  industryGroup       := nameGet n .industryGroup
  aac                 := nameGet n .aac
  reserved            := nameReserved n

/-! ### Transport PGNs and control bytes (30_encoding.md R90, R91) -/

/-- TP.CM: TP connection management, and BAM. -/
def pgnTpCm : Pgn := 0x0EC00

/-- TP.DT: TP and BAM data transfer. -/
def pgnTpDt : Pgn := 0x0EB00

/-- ETP.CM: ETP connection management. -/
def pgnEtpCm : Pgn := 0x0C800

/-- ETP.DT: ETP data transfer. -/
def pgnEtpDt : Pgn := 0x0C700

/-- `CM(mode)` (42_session_engine.md, helper names). -/
def cmPgn : Mode → Pgn
  | .tp | .bam => pgnTpCm
  | .etp => pgnEtpCm

/-- `DT(mode)` (42_session_engine.md, helper names). -/
def dtPgn : Mode → Pgn
  | .tp | .bam => pgnTpDt
  | .etp => pgnEtpDt

/-- The kinds of frame a control byte selects (30_encoding.md R91). -/
inductive ControlKind where
  | rts
  | cts
  | eoma
  | dpo
  | announce
  | abort
deriving DecidableEq, Repr

/-- The kind of a TP.CM frame (30_encoding.md R91). -/
def tpControlKind (b0 : Byte) : Option ControlKind :=
  if b0 = 0x10 then some .rts
  else if b0 = 0x11 then some .cts
  else if b0 = 0x13 then some .eoma
  else if b0 = 0x20 then some .announce
  else if b0 = 0xFF then some .abort
  else none

/-- The kind of an ETP.CM frame (30_encoding.md R91). -/
def etpControlKind (b0 : Byte) : Option ControlKind :=
  if b0 = 0x14 then some .rts
  else if b0 = 0x15 then some .cts
  else if b0 = 0x16 then some .dpo
  else if b0 = 0x17 then some .eoma
  else if b0 = 0xFF then some .abort
  else none

/-! ### Abort reasons (60_exceptions.md R351) -/

/-- The named abort reasons. `systemResources` and `maxRetransmit` are never raised by the block. -/
inductive AbortReason where
  | alreadyInSession
  | systemResources
  | timeout
  | ctsWhileSending
  | maxRetransmit
  | unexpectedDT
  | badSequence
  | duplicateSequence
  | tooBig
  | unexpectedDPO
  | dpoCountTooBig
  | badDpoOffset
  | etpTooBig
  | anyOther
  | appAbort
  | received (code : Byte)
deriving DecidableEq, Repr

/-- `code(r)`: the reason byte of an abort frame and of the Aborted event (60_exceptions.md R351). -/
def reasonCode (c : Config) : AbortReason → Byte
  | .alreadyInSession => c.codes.alreadyInSession
  | .systemResources => c.codes.systemResources
  | .timeout => c.codes.timeout
  | .ctsWhileSending => c.codes.ctsWhileSending
  | .maxRetransmit => c.codes.maxRetransmit
  | .unexpectedDT => c.codes.unexpectedDT
  | .badSequence => c.codes.badSequence
  | .duplicateSequence => c.codes.duplicateSequence
  | .tooBig => c.codes.tooBig
  | .unexpectedDPO => c.codes.unexpectedDPO
  | .dpoCountTooBig => c.codes.dpoCountTooBig
  | .badDpoOffset => c.codes.badDpoOffset
  | .etpTooBig => c.codes.etpTooBig
  | .anyOther => c.codes.anyOther
  | .appAbort => c.codes.appAbort
  | .received r => r

/-- The causes of a dropped frame (60_exceptions.md R352). No cause is stored. -/
inductive DropCause where
  | invalidIdentifier
  | shortFrame
  | badDestination
  | unknownControl
  | noSession
  | protocolMismatch
  | pgnMismatch
  | unexpectedControl
  | badAnnounce
  | noResources
deriving DecidableEq, Repr

/-! ### Sessions: parties, packets, time -/

/-- `total_pkts = ceil_div(total_len, 7)` (20_memory.md R63). -/
def packetCount (len : Nat) : Nat := ceilDiv len bytesPerPacket

/-- Our address: `src` of a Tx session, `dst` of a Rx session (42_session_engine.md, helper names). -/
def Session.ours (x : Session) : Addr :=
  match x.dir with
  | .tx => x.src
  | .rx => x.dst

/-- The peer's address (42_session_engine.md, helper names). -/
def Session.peer (x : Session) : Addr :=
  match x.dir with
  | .tx => x.dst
  | .rx => x.src

/-- The slot key (10_state.md R30). -/
def Session.hasKey (x : Session) (ch : Channel) (src dst : Addr) (dir : Dir) : Bool :=
  x.channel == ch && x.src == src && x.dst == dst && x.dir == dir

/-- A newly opened session, every field of 10_state.md R22 written: packet 1 comes next, no grant, nothing pending, no byte of the buffer written (42_session_engine.md R215, R229, R237, R239). -/
def Session.opened (ch : Channel) (mode : Mode) (dir : Dir) (src dst : Addr) (pgn : Pgn) (len : BitVec 32) (rtsMax : Byte)
    (state : SessionState) (now : Millis) (draw : Nat) : Session where
  channel      := ch
  mode         := mode
  dir          := dir
  src          := src
  dst          := dst
  pgn          := pgn
  totalLen     := len
  totalPkts    := BitVec.ofNat 24 (packetCount len.toNat)
  nextPkt      := 1
  burstLeft    := 0
  rtsMax       := rtsMax
  dpoOffset    := 0
  dpoSeen      := false
  hold         := false
  state        := state
  pending      := none
  lastActivity := now
  abortReason  := 0
  buf          := []
  bufDraw      := draw

/-- `off = 7*(k-1)`, the offset of packet `k` (20_memory.md R63), modulo 2^32 (00_scope.md R9). -/
def packetOffset (k : BitVec 32) : BitVec 32 := 7#32 * (k - 1#32)

/-- `m = min(7, total_len - off)`, the payload bytes of the packet at `off` (42_session_engine.md R226, R231). -/
def packetBytes (x : Session) (off : BitVec 32) : Nat := min bytesPerPacket (x.totalLen - off).toNat

/-- `next_pkt > total_pkts`: every packet has been sent or received. -/
def Session.allPackets (x : Session) : Bool := decide (x.totalPkts.toNat < x.nextPkt.toNat)

/-- The sequence number of packet `k`: `k` for TP and BAM, `k - dpo_offset` for ETP (42_session_engine.md R216, R231), modulo 2^32 (log 16). -/
def Session.sequence (x : Session) (k : BitVec 32) : BitVec 32 :=
  match x.mode with
  | .tp | .bam => k
  | .etp => k - x.dpoOffset.setWidth 32

/-- `elapsed(s) = (in.now - last_activity) mod 2^32` (10_state.md R27). -/
def Session.elapsed (x : Session) (now : Millis) : Millis := now - x.lastActivity

/-- `limit(s)`: the timeout of the session's state, where it has one and owes no frame (42_session_engine.md R209). -/
def Session.limit (c : Config) (x : Session) : Option Millis :=
  match x.pending, x.mode, x.dir, x.state with
  | none, .tp, .tx, .requestedToSend | none, .etp, .tx, .requestedToSend => some (if x.hold then c.t4 else c.t3)
  | none, .tp, .tx, .waitingForEndAck | none, .etp, .tx, .waitingForEndAck => some c.t3
  | none, .tp, .rx, .clearToSendSent | none, .etp, .rx, .clearToSendSent => some c.t2
  | none, .tp, .rx, .receiving | none, .etp, .rx, .receiving | none, .bam, .rx, .receiving => some c.t1
  | _, _, _, _ => none

/-- `TimedOut(s)` is `elapsed(s) > limit(s)` (42_session_engine.md R210). -/
def Session.timedOut (c : Config) (x : Session) (now : Millis) : Bool :=
  match x.limit c with
  | some l => decide (l.toNat < (x.elapsed now).toNat)
  | none => false

/-! ### Frames a session builds (30_encoding.md R92 to R104) -/

/-- The PGN field, bytes 5..7 of a control frame (30_encoding.md R104). -/
def pgnBytes (g : Pgn) : List Byte := leBytes 3 g

/-- The identifier of a transport frame: `IDENC(TP_PRIORITY, <PGN>, <da>, <sa>)` (30_encoding.md R90). -/
def transportId (c : Config) (g : Pgn) (da sa : Addr) : Word := idEncode c.tpPriority g da sa

/-- TP.CM_RTS and ETP.CM_RTS (30_encoding.md R92, R98; 42_session_engine.md R227). -/
def rtsData (x : Session) : List Byte :=
  match x.mode with
  | .tp | .bam => [0x10] ++ leBytes 2 x.totalLen ++ [x.totalPkts.setWidth 8, 0xFF] ++ pgnBytes x.pgn
  | .etp => [0x14] ++ leBytes 4 x.totalLen ++ pgnBytes x.pgn

/-- The packets a CTS grants: `min(CTS_MAX_PACKETS, rts_max, total_pkts - next_pkt + 1)` (42_session_engine.md R230). -/
def ctsCount (c : Config) (x : Session) : Byte :=
  BitVec.ofNat 8 (min (min c.ctsMaxPackets.toNat x.rtsMax.toNat) (x.totalPkts.setWidth 32 - x.nextPkt + 1#32).toNat)

/-- TP.CM_CTS and ETP.CM_CTS (30_encoding.md R93, R99; 42_session_engine.md R230). -/
def ctsData (c : Config) (x : Session) : List Byte :=
  match x.mode with
  | .tp | .bam => [0x11, ctsCount c x, x.nextPkt.setWidth 8, 0xFF, 0xFF] ++ pgnBytes x.pgn
  | .etp => [0x15, ctsCount c x] ++ leBytes 3 x.nextPkt ++ pgnBytes x.pgn

/-- ETP.CM_DPO (30_encoding.md R100; 42_session_engine.md R224). -/
def dpoData (x : Session) : List Byte := [0x16, x.burstLeft] ++ leBytes 3 (x.nextPkt - 1#32) ++ pgnBytes x.pgn

/-- TP.CM_EOMA and ETP.CM_EOMA (30_encoding.md R94, R101; 42_session_engine.md R235). -/
def eomaData (x : Session) : List Byte :=
  match x.mode with
  | .tp | .bam => [0x13] ++ leBytes 2 x.totalLen ++ [x.totalPkts.setWidth 8, 0xFF] ++ pgnBytes x.pgn
  | .etp => [0x17] ++ leBytes 4 x.totalLen ++ pgnBytes x.pgn

/-- TP.CM_BAM (30_encoding.md R95; 42_session_engine.md R237). -/
def announceData (x : Session) : List Byte :=
  [0x20] ++ leBytes 2 x.totalLen ++ [x.totalPkts.setWidth 8, 0xFF] ++ pgnBytes x.pgn

/-- A Connection Abort's data (30_encoding.md R96, R102). -/
def abortData (code : Byte) (g : Pgn) : List Byte := [0xFF, code, 0xFF, 0xFF, 0xFF] ++ pgnBytes g

/-- `Build(s, K)`: the identifier and data of an owed control frame. A Tx session's frames go from `src` to `dst`, a Rx session's CTS and EOMA from `dst` to `src` (42_session_engine.md R224, R227, R230, R235, R237). -/
def build (c : Config) (x : Session) : Control → Word × List Byte
  | .rts => (transportId c (cmPgn x.mode) x.dst x.src, rtsData x)
  | .cts => (transportId c (cmPgn x.mode) x.src x.dst, ctsData c x)
  | .dpo => (transportId c pgnEtpCm x.dst x.src, dpoData x)
  | .eoma => (transportId c (cmPgn x.mode) x.src x.dst, eomaData x)
  | .announce => (transportId c pgnTpCm globalAddr x.src, announceData x)

/-- The identifier of a data frame (42_session_engine.md R226). -/
def dataId (c : Config) (x : Session) : Word := transportId c (dtPgn x.mode) x.dst x.src

/-- The data of a data frame: the sequence byte, the packet's payload bytes, and 0xFF up to eight bytes (42_session_engine.md R226). -/
def dataBytes (seq : BitVec 32) (payload : List Byte) : List Byte :=
  [seq.setWidth 8] ++ payload ++ List.replicate (bytesPerPacket - payload.length) 0xFF

end Sys2Proof.Machine

namespace Sys2Proof

/-! ### Fields of a received frame (30_encoding.md R92 to R104) -/

/-- Byte `n` of a frame's data. -/
def Frame.byte (f : Frame) (n : Nat) : Byte := f.data.getD n 0

/-- The PGN field of a control frame: `{b7, b6, b5}[17:0]` (30_encoding.md R104). -/
def Frame.pgnField (f : Frame) : Pgn := (word24 (f.byte 5) (f.byte 6) (f.byte 7)).setWidth 18

/-- The length an RTS announces: `{b2, b1}` for TP, `{b4, b3, b2, b1}` for ETP (42_session_engine.md R228). -/
def Frame.rtsLen (f : Frame) : Machine.Mode → BitVec 32
  | .tp | .bam => (word16 (f.byte 1) (f.byte 2)).setWidth 32
  | .etp => word32 (f.byte 1) (f.byte 2) (f.byte 3) (f.byte 4)

/-- The next packet of a CTS: `b2` for TP, `{b4, b3, b2}` for ETP (42_session_engine.md R223). -/
def Frame.ctsNext (f : Frame) : Machine.Mode → BitVec 24
  | .tp | .bam => (f.byte 2).setWidth 24
  | .etp => word24 (f.byte 2) (f.byte 3) (f.byte 4)

end Sys2Proof
end

