-- ==== Sys2Proof/Machine/Flags.lean ====
section
/-! DEFINITION. The one-bit and ordering results of the codec commands. The block has no condition codes that persist between commands: each of these is a result port of its command (10_state.md R28). -/

namespace Sys2Proof.Machine

/-- `IdValid(raw)`: bits 31:29 are 0 and, where the configuration asks it, the source is not the global address (40_identifier_codec.md R135). -/
def idValid (c : Config) (raw : Word) : Bool :=
  raw.extractLsb' 29 3 == 0#3 && !(c.idvRejectGlobalSa && raw.extractLsb' 0 8 == globalAddr)

/-- The validity of a Standard identifier: `raw[31:11] == 0` (40_identifier_codec.md R134). -/
def standardIdValid (raw : Word) : Bool := raw.extractLsb' 11 21 == 0#21

/-- NAME_CMP's order, unsigned over all 64 bits: 0 LESS, 1 EQUAL, 2 GREATER (41_name_codec.md R173). -/
def nameOrder (a b : NameWord) : BitVec 2 :=
  if a.toNat < b.toNat then 0 else if a = b then 1 else 2

/-- One filter of NAME_MATCH: the whole 32-bit value against the field; a reserved selector matches nothing (41_name_codec.md R174). -/
def filterMatches (n : NameWord) (f : Filter) : Bool :=
  match NameField.ofSelector f.field with
  | some g => nameGet n g == f.value
  | none => false

/-- NAME_MATCH's result: every filter matches (41_name_codec.md R174). -/
def nameMatches (n : NameWord) (fs : List Filter) : Bool := fs.all (filterMatches n)

/-- A reserved NAME_MATCH: too many filters, or a reserved selector (30_encoding.md R84). -/
def nameMatchIllegal (c : Config) (count : Byte) (fs : List Filter) : Bool :=
  decide (c.maxFilters < count.toNat) || fs.any fun f => (NameField.ofSelector f.field).isNone

/-- A channel the block does not have (30_encoding.md R84). -/
def channelIllegal (c : Config) (ch : Channel) : Bool := decide (c.numChannels ≤ ch.toNat)

/-- A reserved RX_FRAME: a bad channel, a length above 8, or a length that is not the number of data bytes (30_encoding.md R84). -/
def frameIllegal (c : Config) (f : Frame) : Bool :=
  channelIllegal c f.channel || decide (8 < f.length.toNat) || decide (f.length.toNat ≠ f.data.length)

end Sys2Proof.Machine
end

