-- ==== Sys2Proof/Machine/Ops.lean ====
section
/-! DEFINITION. The named operations over the state: the buffers, the slot file, the result ports, the driver, the allocator, the registry, events and drops (10_state.md, 20_memory.md, 60_exceptions.md). The block has no traps (60_exceptions.md R357): an abnormal condition ends in `State.illegal`, `State.unsupported`, `State.dropFrame` here or `abortSession` in Machine/Session.lean. -/

namespace Sys2Proof.Machine

/-! ### Buffers (20_memory.md R60 to R62) -/

/-- The byte at an offset, `none` where nothing has written one. -/
def Memory.byte : Memory → Nat → Option Byte
  | [], _ => none
  | (a, v) :: m, off => if a = off then some v else Memory.byte m off

/-- One byte written, the offsets kept strictly rising. -/
def Memory.setByte : Memory → Nat → Byte → Memory
  | [], off, b => [(off, b)]
  | (a, v) :: m, off, b =>
    if off < a then (off, b) :: (a, v) :: m
    else if off = a then (off, b) :: m
    else (a, v) :: Memory.setByte m off b

/-- The `n` bytes from `off` on, `none` where one of them was never written. -/
def Memory.bytes (m : Memory) (off : Nat) : Nat → Option (List Byte)
  | 0 => some []
  | n + 1 =>
    match m.byte off, Memory.bytes m (off + 1) n with
    | some b, some bs => some (b :: bs)
    | _, _ => none

/-- Bytes written from `off` on. -/
def Memory.setBytes (m : Memory) (off : Nat) : List Byte → Memory
  | [] => m
  | b :: bs => Memory.setBytes (m.setByte off b) (off + 1) bs

/-- The canonical form: offsets strictly rising. What an unlisted offset reads as is a free value (`Session.byte`), so every byte written stays listed (log 12). -/
def Memory.wf : Memory → Bool
  | [] => true
  | [_] => true
  | (a, _) :: (b, v) :: m => decide (a < b) && Memory.wf ((b, v) :: m)

/-- The byte at an offset of a session's buffer: the one written last, or else the free value it held when the buffer was taken (20_memory.md R62, 93_implementation_defined.md U3; log 12). -/
def Session.byte (x : Session) (off : Nat) : Byte := (x.buf.byte off).getD (Config.freeByte x.bufDraw off)

/-- `MemRead(s, off, n)`, its bound checked (20_memory.md R61). -/
def memRead (x : Session) (off n : Nat) : Except Fault (List Byte) :=
  if off + n ≤ x.totalLen.toNat then .ok ((List.range n).map fun k => x.byte (off + k))
  else .error .bufferBounds

/-- `MemWrite(s, off, n, bytes)`, its bound checked (20_memory.md R61). -/
def memWrite (x : Session) (off : Nat) (bs : List Byte) : Except Fault Session :=
  if off + bs.length ≤ x.totalLen.toNat then .ok { x with buf := x.buf.setBytes off bs }
  else .error .bufferBounds

/-! ### The slot file (10_state.md R22, R23, R29, R30) -/

/-- The session of slot `i`, `none` where the slot is free. -/
def State.slot (s : State) (i : Nat) : Option Session := s.slots.getD i none

/-- Slot `i` written; `none` frees it, and its buffer with it (10_state.md R23, 20_memory.md R62). -/
def State.setSlot (s : State) (i : Nat) (x : Option Session) : State := { s with slots := s.slots.set i x }

/-- `Free(s)` (10_state.md R23). -/
def State.free (s : State) (i : Nat) : State := s.setSlot i none

/-- The first valid slot of a list that meets a test, counting slots from `i`. -/
def findFrom (p : Session → Bool) : Nat → List (Option Session) → Option (Nat × Session)
  | _, [] => none
  | i, none :: r => findFrom p (i + 1) r
  | i, some x :: r => if p x then some (i, x) else findFrom p (i + 1) r

/-- `FindSlot(ch, src, dst, dir)`: the valid slot with that key (42_session_engine.md, helper names). -/
def State.findSlot (s : State) (ch : Channel) (src dst : Addr) (dir : Dir) : Option (Nat × Session) :=
  findFrom (fun x => x.hasKey ch src dst dir) 0 s.slots

/-- The lowest free slot of a list, counting slots from `i`. -/
def freeFrom : Nat → List (Option Session) → Option Nat
  | _, [] => none
  | i, none :: _ => some i
  | i, some _ :: r => freeFrom (i + 1) r

/-- The free slot of lowest index (10_state.md R23); `FreeSlotExists` where there is one. -/
def State.freeSlot (s : State) : Option Nat := freeFrom 0 s.slots

/-- `bam_tx_active(ch)` (10_state.md R29). -/
def State.bamTxActive (s : State) (ch : Channel) : Bool :=
  (findFrom (fun x => x.channel == ch && x.mode == .bam && x.dir == .tx) 0 s.slots).isSome

/-- The number of valid slots (43_block_commands.md R316). -/
def State.activeCount (s : State) : Nat := s.slots.countP Option.isSome

/-! ### Result ports (10_state.md R20, 30_encoding.md R83) -/

/-- The result ports before a command writes any: free values, fresh at draw `n` (93_implementation_defined.md U1; log 5). -/
def Ports.unspecified (n : Nat) : Ports where
  status    := .ok
  raw       := Config.freePort 32 0 n
  prio      := Config.freePort 3 1 n
  pgn       := Config.freePort 18 2 n
  da        := Config.freePort 8 3 n
  sa        := Config.freePort 8 4 n
  valid     := Config.freePort 1 5 n == 1#1
  name      := Config.freePort 64 6 n
  fields    := ⟨Config.freePort 32 7 n, Config.freePort 32 8 n, Config.freePort 32 9 n,
                Config.freePort 32 10 n, Config.freePort 32 11 n, Config.freePort 32 12 n,
                Config.freePort 32 13 n, Config.freePort 32 14 n, Config.freePort 32 15 n,
                Config.freePort 1 16 n == 1#1⟩
  value     := Config.freePort 32 17 n
  order     := Config.freePort 2 18 n
  matched   := Config.freePort 1 19 n == 1#1
  accepted  := Config.freePort 1 20 n == 1#1
  found     := Config.freePort 1 21 n == 1#1
  dropCount := Config.freePort 32 22 n
  nextMsgId := Config.freePort 64 23 n
  active    := Config.freePort 8 24 n

/-- The end of a command: its status and the ports it writes, every other port unspecified (10_state.md R20). -/
def State.reply (s : State) (write : Ports → Ports) : State :=
  { s with out := write (Ports.unspecified s.draws), draws := s.draws + 1 }

/-- Status `OK` and the ports the command writes. -/
def State.done (s : State) (write : Ports → Ports) : Host.Outcome State Fault Refusal :=
  .next (s.reply fun p => { write p with status := .ok })

/-- Status `ILLEGAL` and no other effect (30_encoding.md R83, R84; log 10). -/
def State.illegal (s : State) : Host.Outcome State Fault Refusal :=
  .next (s.reply fun p => { p with status := .illegal })

/-- Status `UNSUPPORTED` and no other effect (30_encoding.md R83; log 10). -/
def State.unsupported (s : State) : Host.Outcome State Fault Refusal :=
  .next (s.reply fun p => { p with status := .unsupported })

/-- The end of a transport command that writes no port but the status. -/
def finish : Except Fault State → Host.Outcome State Fault Refusal
  | .ok s => s.done id
  | .error e => .fault e

/-! ### The driver, the allocator and the registry (60_exceptions.md R355, R356; 00_scope.md R7) -/

/-- The driver's answer to the next offer: the head of the list, or a free value (60_exceptions.md R355; log 6). -/
def State.driverAccepts (s : State) : Bool := s.driverIn.headD (Config.freeAccept s.draws)

/-- The frame that `Send(ch, id, data)` emits: extended, its length the number of its data bytes, its timestamp a free value (30_encoding.md R89, 60_exceptions.md R355; log 24). -/
def State.emitted (s : State) (ch : Channel) (id : Word) (data : List Byte) : Frame where
  channel    := ch
  identifier := id
  data       := data
  length     := BitVec.ofNat 4 data.length
  extended   := true
  timestamp  := Config.freeStamp s.draws

/-- The state after `Send(ch, id, data)`: the answer is used up and the offer is on record (60_exceptions.md R355). -/
def State.send (s : State) (ch : Channel) (id : Word) (data : List Byte) : State :=
  { s with driverIn := s.driverIn.tail
           draws    := s.draws + 1
           offered  := s.offered ++ [⟨s.emitted ch id data, s.driverAccepts⟩] }

/-- `can_allocate(len)`: a parameter, fixed but for the slots in use (00_scope.md R7, R8; log 7).
DESIGN CHOICE (log 7, safe): the spec does not say what of the slots it may read. Left open, it may read the whole slot file, the model's own `bufDraw` of each session included. -/
def State.canAllocate (s : State) (len : Nat) : Bool :=
  match s.cfg.allocator with
  | .free => Config.freeAlloc s.slots len
  | .upTo limit => decide (len ≤ limit)

/-- `is_internal(ch, a)`, false for the null and global addresses (60_exceptions.md R356). -/
def State.isInternal (s : State) (ch : Channel) (a : Addr) : Bool :=
  s.registry.internalCfs.contains (ch, a) && a != nullAddr && a != globalAddr

/-- `reachable(ch, a)`, false for the null and global addresses (60_exceptions.md R356). -/
def State.reachable (s : State) (ch : Channel) (a : Addr) : Bool :=
  s.registry.reachableCfs.contains (ch, a) && a != nullAddr && a != globalAddr

/-! ### Events and drops (60_exceptions.md R352, R353) -/

/-- `Event(E)`: appended to the event stream (60_exceptions.md R353). -/
def State.emit (s : State) (e : Event) : State := { s with events := s.events ++ [e] }

/-- `Drop(cause)`: the frame is discarded and counted modulo 2^32; the cause is not stored (60_exceptions.md R352). -/
def State.dropFrame (s : State) (_cause : DropCause) : State := { s with dropCount := s.dropCount + 1#32 }

/-! ### Taking a command -/

/-- The record of the next command, and the state once the block has taken it: the operand and registry ports hold its values (20_memory.md R69, 60_exceptions.md R356). -/
def State.take (s : State) : Option (List Byte × State) :=
  match s.inbox with
  | [] => none
  | c :: rest => some (c.record, { s with inbox := rest, registry := c.registry })

/-- A record issued by the host, placed before every other command, under the registry answers now in force. -/
def State.issue (s : State) (record : List Byte) : State :=
  { s with inbox := ⟨record, s.registry⟩ :: s.inbox }

end Sys2Proof.Machine
end

