-- ==== Sys2Proof/Machine/Identifier.lean ====
section
/-! DEFINITION. The identifier codec's commands (40_identifier_codec.md). They read their operands alone and write result ports alone (R130). -/

namespace Sys2Proof.Machine

/-- ID_ENCODE: Extended packs the truncated fields (R131); Standard has no meaning, status UNSUPPORTED (R132). -/
def execIdEncode (ty : IdType) (prio pgn : Word) (da sa : Addr) (s : State) : Host.Outcome State Fault Refusal :=
  match ty with
  | .extended => s.done fun p => { p with raw := idEncode (prio.setWidth 3) (pgn.setWidth 18) da sa }
  | .standard => s.unsupported

/-- ID_DECODE: Extended gives the fields and their validity (R133, R135); Standard gives the validity alone, the other ports being free values (R134). -/
def execIdDecode (ty : IdType) (raw : Word) (s : State) : Host.Outcome State Fault Refusal :=
  match ty with
  | .extended =>
    let d := idDecode raw
    s.done fun p => { p with prio := d.prio, pgn := d.pgn, da := d.da, sa := d.sa, valid := idValid s.cfg raw }
  | .standard => s.done fun p => { p with valid := standardIdValid raw }

end Sys2Proof.Machine
end

