-- ==== Sys2Proof/Machine/Name.lean ====
section
/-! DEFINITION. The NAME codec's commands (41_name_codec.md). They read their operands alone and write result ports alone (R150). -/

namespace Sys2Proof.Machine

/-- NAME_ENCODE (R171). -/
def execNameEncode (f : NameFields) (s : State) : Host.Outcome State Fault Refusal :=
  s.done fun p => { p with name := nameEncode f }

/-- NAME_DECODE (R172). -/
def execNameDecode (n : NameWord) (s : State) : Host.Outcome State Fault Refusal :=
  s.done fun p => { p with fields := nameDecode n }

/-- NAME_CMP (R173). -/
def execNameCmp (a b : NameWord) (s : State) : Host.Outcome State Fault Refusal :=
  s.done fun p => { p with order := nameOrder a b }

/-- NAME_MATCH: status ILLEGAL for too many filters or a reserved selector (R174; 30_encoding.md R84). -/
def execNameMatch (n : NameWord) (count : Byte) (fs : List Filter) (s : State) : Host.Outcome State Fault Refusal :=
  if nameMatchIllegal s.cfg count fs then s.illegal
  else s.done fun p => { p with matched := nameMatches n fs }

/-- Every getter: `out.value <- NameGet(in.name, f)`. -/
def getField (f : NameField) (n : NameWord) (s : State) : Host.Outcome State Fault Refusal :=
  s.done fun p => { p with value := nameGet n f }

/-- Every setter: `out.name <- NameSet(in.name, f, in.value)`. -/
def setField (f : NameField) (n : NameWord) (v : Word) (s : State) : Host.Outcome State Fault Refusal :=
  s.done fun p => { p with name := nameSet n f v }

/-- NAME_GET_IDENTITY (R153). -/
def execNameGetIdentity (n : NameWord) (s : State) : Host.Outcome State Fault Refusal := getField .identity n s

/-- NAME_GET_MANUFACTURER (R154). -/
def execNameGetManufacturer (n : NameWord) (s : State) : Host.Outcome State Fault Refusal := getField .manufacturer n s

/-- NAME_GET_ECU_INSTANCE (R155). -/
def execNameGetEcuInstance (n : NameWord) (s : State) : Host.Outcome State Fault Refusal := getField .ecuInstance n s

/-- NAME_GET_FUNCTION_INSTANCE (R156). -/
def execNameGetFunctionInstance (n : NameWord) (s : State) : Host.Outcome State Fault Refusal := getField .functionInstance n s

/-- NAME_GET_FUNCTION (R157). -/
def execNameGetFunction (n : NameWord) (s : State) : Host.Outcome State Fault Refusal := getField .function n s

/-- NAME_GET_DEVICE_CLASS (R158). -/
def execNameGetDeviceClass (n : NameWord) (s : State) : Host.Outcome State Fault Refusal := getField .deviceClass n s

/-- NAME_GET_DEVICE_CLASS_INSTANCE (R159). -/
def execNameGetDeviceClassInstance (n : NameWord) (s : State) : Host.Outcome State Fault Refusal := getField .deviceClassInstance n s

/-- NAME_GET_INDUSTRY_GROUP (R160). -/
def execNameGetIndustryGroup (n : NameWord) (s : State) : Host.Outcome State Fault Refusal := getField .industryGroup n s

/-- NAME_GET_AAC (R161). -/
def execNameGetAac (n : NameWord) (s : State) : Host.Outcome State Fault Refusal := getField .aac n s

/-- NAME_SET_IDENTITY (R162). -/
def execNameSetIdentity (n : NameWord) (v : Word) (s : State) : Host.Outcome State Fault Refusal := setField .identity n v s

/-- NAME_SET_MANUFACTURER (R163). -/
def execNameSetManufacturer (n : NameWord) (v : Word) (s : State) : Host.Outcome State Fault Refusal := setField .manufacturer n v s

/-- NAME_SET_ECU_INSTANCE (R164). -/
def execNameSetEcuInstance (n : NameWord) (v : Word) (s : State) : Host.Outcome State Fault Refusal := setField .ecuInstance n v s

/-- NAME_SET_FUNCTION_INSTANCE (R165). -/
def execNameSetFunctionInstance (n : NameWord) (v : Word) (s : State) : Host.Outcome State Fault Refusal := setField .functionInstance n v s

/-- NAME_SET_FUNCTION (R166). -/
def execNameSetFunction (n : NameWord) (v : Word) (s : State) : Host.Outcome State Fault Refusal := setField .function n v s

/-- NAME_SET_DEVICE_CLASS (R167). -/
def execNameSetDeviceClass (n : NameWord) (v : Word) (s : State) : Host.Outcome State Fault Refusal := setField .deviceClass n v s

/-- NAME_SET_DEVICE_CLASS_INSTANCE (R168). -/
def execNameSetDeviceClassInstance (n : NameWord) (v : Word) (s : State) : Host.Outcome State Fault Refusal := setField .deviceClassInstance n v s

/-- NAME_SET_INDUSTRY_GROUP (R169). -/
def execNameSetIndustryGroup (n : NameWord) (v : Word) (s : State) : Host.Outcome State Fault Refusal := setField .industryGroup n v s

/-- NAME_SET_AAC (R170). -/
def execNameSetAac (n : NameWord) (v : Word) (s : State) : Host.Outcome State Fault Refusal := setField .aac n v s

end Sys2Proof.Machine
end

