-- ==== Sys2Proof/Machine/System.lean ====
section
/-! DEFINITION. STATUS and RESET (43_block_commands.md R315, R316). -/

namespace Sys2Proof.Machine

/-- STATUS: the two counters and the number of valid slots modulo 2^8 (log 15); no state changes (R316). -/
def execStatus (s : State) : Host.Outcome State Fault Refusal :=
  s.done fun p => { p with dropCount := s.dropCount, nextMsgId := s.nextMsgId, active := BitVec.ofNat 8 s.activeCount }

/-- The block's own state put back to its reset value: every slot free, both counters 0, the configuration kept. The world around it keeps what it has: commands waiting, answers to come, frames offered, events produced (70_reset_and_hazards.md R380, R381). -/
def State.resetBlock (s : State) : State :=
  { s with slots := List.replicate s.cfg.maxSessions none, dropCount := 0, nextMsgId := 0 }

/-- RESET (R315). -/
def execReset (s : State) : Host.Outcome State Fault Refusal := s.resetBlock.done id

end Sys2Proof.Machine
end

