-- ==== Sys2Proof/Machine/Session.lean ====
section
/-! DEFINITION. The session machinery of 42_session_engine.md section 1 and the sending side of its sections 3 to 5: completing and aborting a session, offering a control frame, the data bursts, BAM pacing, and what UPDATE does to a slot. Each operation takes the slot's index `i` and the session `x` the slot holds. -/

namespace Sys2Proof.Machine

/-- `Complete(s)`: a Rx session delivers its message under the next message id, a Tx session reports its end, and the slot is freed (42_session_engine.md R203). -/
def complete (i : Nat) (x : Session) (s : State) : Except Fault State :=
  let s := s.setSlot i (some { x with state := .complete })
  match x.dir with
  | .rx =>
    match memRead x 0 x.totalLen.toNat with
    | .error e => .error e
    | .ok payload =>
      let s := s.emit (.delivered x.channel x.pgn x.src x.dst x.totalLen payload s.nextMsgId)
      .ok (State.free { s with nextMsgId := s.nextMsgId + 1#64 } i)
  | .tx => .ok ((s.emit (.txCompleted x.channel x.mode x.pgn x.src x.dst)).free i)

/-- `SendAbort(ch, P, to, from, r, g)`: the driver's answer is ignored (42_session_engine.md R204). -/
def sendAbort (ch : Channel) (mode : Mode) (receiver sender : Addr) (r : AbortReason) (g : Pgn) (s : State) : State :=
  s.send ch (transportId s.cfg (cmPgn mode) receiver sender) (abortData (reasonCode s.cfg r) g)

/-- `AbortSession(s, reason, notify_peer)`: the abort frame where asked and the session is no BAM, the event, and the slot freed (42_session_engine.md R204). -/
def abortSession (i : Nat) (x : Session) (r : AbortReason) (notify : Bool) (s : State) : State :=
  let y := { x with state := .aborted, abortReason := reasonCode s.cfg r }
  let s := s.setSlot i (some y)
  let s := if notify && y.mode != .bam then sendAbort y.channel y.mode y.peer y.ours r y.pgn s else s
  (s.emit (.aborted y.channel y.mode y.dir y.pgn y.src y.dst y.abortReason)).free i

/-- `OnSent(s, K)`: what the driver's acceptance of a control frame does (42_session_engine.md R224, R227, R230, R235, R237). -/
def onSent (i : Nat) (x : Session) (k : Control) (s : State) : Except Fault State :=
  match k with
  | .rts => .ok (s.setSlot i (some { x with state := .requestedToSend, hold := false }))
  | .cts => .ok (s.setSlot i (some { x with state := .clearToSendSent, burstLeft := ctsCount s.cfg x, dpoSeen := false }))
  | .dpo => .ok (s.setSlot i (some { x with dpoOffset := (x.nextPkt - 1#32).setWidth 24, state := .sending }))
  | .eoma => complete i x s
  | .announce => .ok (s.setSlot i (some { x with state := .announced }))

/-- `Offer(s, K)`: the frame is built and offered; refused, it stays pending (42_session_engine.md R206). -/
def offer (now : Millis) (i : Nat) (x : Session) (k : Control) (s : State) : Except Fault State :=
  let frame := build s.cfg x k
  let t := s.send x.channel frame.1 frame.2
  if s.driverAccepts then onSent i { x with pending := none, lastActivity := now } k t
  else .ok (t.setSlot i (some { x with pending := some k }))

/-- `DataFrame(s, k, seq)`: the data of packet `k` (42_session_engine.md R226). -/
def dataFrame (x : Session) (k seq : BitVec 32) : Except Fault (List Byte) :=
  let off := packetOffset k
  match memRead x off.toNat (packetBytes x off) with
  | .ok payload => .ok (dataBytes seq payload)
  | .error e => .error e

/-- `BurstDone(s)` (42_session_engine.md R217). -/
def burstDone (i : Nat) (x : Session) (s : State) : State :=
  if x.allPackets then s.setSlot i (some { x with state := .waitingForEndAck })
  else s.setSlot i (some { x with state := .requestedToSend, hold := false })

/-- The loop of `TxBurst(s)` (42_session_engine.md R216). Its first argument is the `burst_left` of the session, which each accepted frame lowers by one. -/
def txBurstLoop (now : Millis) (i : Nat) : Nat → Session → State → Except Fault State
  | 0, x, s => .ok (burstDone i x s)
  | n + 1, x, s =>
    match dataFrame x x.nextPkt (x.sequence x.nextPkt) with
    | .error e => .error e
    | .ok data =>
      let t := s.send x.channel (dataId s.cfg x) data
      if s.driverAccepts then
        let y := { x with lastActivity := now, nextPkt := x.nextPkt + 1#32, burstLeft := x.burstLeft - 1#8 }
        txBurstLoop now i n y (t.setSlot i (some y))
      else .ok t

/-- `TxBurst(s)`: the data frames of the current grant, until it is used up or the driver refuses one (42_session_engine.md R216). -/
def txBurst (now : Millis) (i : Nat) (x : Session) (s : State) : Except Fault State :=
  txBurstLoop now i x.burstLeft.toNat x s

/-- `BamPace(s)`: at most one data frame, no sooner than `BAM_INTERVAL` after the last (42_session_engine.md R238). -/
def bamPace (now : Millis) (i : Nat) (x : Session) (s : State) : Except Fault State :=
  if s.cfg.bamInterval.toNat ≤ (x.elapsed now).toNat then
    match dataFrame x x.nextPkt x.nextPkt with
    | .error e => .error e
    | .ok data =>
      let t := s.send x.channel (dataId s.cfg x) data
      if s.driverAccepts then
        let y := { x with lastActivity := now, nextPkt := x.nextPkt + 1#32, state := .sending }
        if y.allPackets then complete i y (t.setSlot i (some y)) else .ok (t.setSlot i (some y))
      else .ok t
  else .ok s

/-- The last part of `ServiceSlot(s)`: the work of a session that owes no control frame (42_session_engine.md R207). -/
def serviceWork (now : Millis) (i : Nat) (x : Session) (s : State) : Except Fault State :=
  match x.mode, x.dir, x.state with
  | .tp, .tx, .clearToSendReceived =>
    let y := { x with state := .sending }
    txBurst now i y (s.setSlot i (some y))
  | .etp, .tx, .clearToSendReceived =>
    match offer now i x .dpo s with
    | .error e => .error e
    | .ok t =>
      match t.slot i with
      | some y => if y.state = .sending then txBurst now i y t else .ok t
      | none => .ok t
  | .tp, .tx, .sending => txBurst now i x s
  | .etp, .tx, .sending => txBurst now i x s
  | .bam, .tx, .announced => bamPace now i x s
  | .bam, .tx, .sending => bamPace now i x s
  | _, _, _ => .ok s

/-- `ServiceSlot(s)`: timeout first, then the pending frame, then the work (42_session_engine.md R207). -/
def serviceSlot (now : Millis) (i : Nat) (x : Session) (s : State) : Except Fault State :=
  match x.pending with
  | none =>
    if x.timedOut s.cfg now then .ok (abortSession i x .timeout (x.mode != .bam) s)
    else serviceWork now i x s
  | some k =>
    match offer now i x k s with
    | .error e => .error e
    | .ok t =>
      match t.slot i with
      | some y => if y.pending = none then serviceWork now i y t else .ok t
      | none => .ok t

/-- The slots of a list served one after another, each if it is still valid (42_session_engine.md R208, 43_block_commands.md R313). -/
def serviceSlots (now : Millis) : List Nat → State → Except Fault State
  | [], s => .ok s
  | i :: live, s =>
    match s.slot i with
    | none => serviceSlots now live s
    | some x =>
      match serviceSlot now i x s with
      | .error e => .error e
      | .ok t => serviceSlots now live t

/-- The slots valid at the start of UPDATE, in ascending order (43_block_commands.md R313). -/
def liveSlots (s : State) : List Nat := (List.range s.slots.length).filter fun i => (s.slot i).isSome

end Sys2Proof.Machine
end

