-- ==== Sys2Proof/Machine/Receive.lean ====
section
/-! DEFINITION. Received transport frames: the routing of 42_session_engine.md section 2 and the handlers of its sections 2 to 5. -/

namespace Sys2Proof.Machine

/-! ### Connection Abort -/

/-- One candidate of a received Connection Abort: the session with this key, if its mode and PGN are the frame's (42_session_engine.md R214). -/
def abortCandidate (f : Frame) (mode : Mode) (src dst : Addr) (dir : Dir) (s : State) : Option (Nat × Session) :=
  match s.findSlot f.channel src dst dir with
  | some (i, x) => if x.mode = mode && x.pgn = f.pgnField then some (i, x) else none
  | none => none

/-- The end of a candidate, where there is one. -/
def endCandidate (f : Frame) (c : Option (Nat × Session)) (s : State) : State :=
  match c with
  | some (i, x) => abortSession i x (.received (f.byte 1)) false s
  | none => s

/-- A received Connection Abort: every candidate that qualifies ends, the Tx one first; none qualifying, the frame is dropped (42_session_engine.md R214). -/
def rxAbort (f : Frame) (mode : Mode) (sa da : Addr) (s : State) : State :=
  match abortCandidate f mode da sa .tx s, abortCandidate f mode sa da .rx s with
  | none, none => s.dropFrame .noSession
  | tx, rx => endCandidate f rx (endCandidate f tx s)

/-! ### The Tx side: CTS and EOMA -/

/-- The Tx session a received CTS or EOMA is for, or the cause the frame is dropped for (42_session_engine.md R223). -/
def txTarget (f : Frame) (mode : Mode) (sa da : Addr) (s : State) : Except DropCause (Nat × Session) :=
  match s.findSlot f.channel da sa .tx with
  | none => .error .noSession
  | some (i, x) =>
    if x.mode ≠ mode then .error .protocolMismatch
    else if x.pgn ≠ f.pgnField then .error .pgnMismatch
    else .ok (i, x)

/-- A CTS in a state that waits for one: a hold, a grant, or a bad packet number (42_session_engine.md R218 to R220). -/
def grantCts (f : Frame) (i : Nat) (x : Session) (s : State) : State :=
  let n := f.byte 1
  let nx := f.ctsNext x.mode
  if n = 0 then
    s.setSlot i (some { x with hold := true, state := .requestedToSend, lastActivity := f.timestamp })
  else if nx = 0 ∨ x.totalPkts.toNat < nx.toNat then abortSession i x .anyOther true s
  else
    s.setSlot i (some { x with
      nextPkt      := nx.setWidth 32
      burstLeft    := BitVec.ofNat 8 (min n.toNat (x.totalPkts.toNat - nx.toNat + 1))
      hold         := false
      state        := .clearToSendReceived
      lastActivity := f.timestamp })

/-- A received CTS (42_session_engine.md R218 to R223). DEDUCED (log 14): in a state no sender has, it is dropped as in `idle`. -/
def rxCts (f : Frame) (mode : Mode) (sa da : Addr) (s : State) : State :=
  match txTarget f mode sa da s with
  | .error cause => s.dropFrame cause
  | .ok (i, x) =>
    match x.state with
    | .requestedToSend | .clearToSendReceived | .waitingForEndAck => grantCts f i x s
    | .sending => abortSession i x .ctsWhileSending true s
    | _ => s.dropFrame .unexpectedControl

/-- A received EOMA (42_session_engine.md R223, R225). -/
def rxEoma (f : Frame) (mode : Mode) (sa da : Addr) (s : State) : Except Fault State :=
  match txTarget f mode sa da s with
  | .error cause => .ok (s.dropFrame cause)
  | .ok (i, x) =>
    if x.state = .waitingForEndAck then complete i x s else .ok (s.dropFrame .unexpectedControl)

/-! ### The Rx side: RTS, data, DPO -/

/-- The checks on a received RTS that read the frame alone: length 0, length over the maximum, packet count (42_session_engine.md R228, checks 2 to 4). -/
def rtsFrameError (f : Frame) (mode : Mode) : Option AbortReason :=
  let len := (f.rtsLen mode).toNat
  if len = 0 then some .anyOther
  else
    match mode with
    | .etp => if etpMaxLen < len then some .etpTooBig else none
    | .tp | .bam =>
      if tpMaxLen < len then some .tooBig
      else if (f.byte 3).toNat ≠ packetCount len then some .anyOther
      else none

/-- The session an accepted RTS opens (42_session_engine.md R229). -/
def rtsSession (f : Frame) (mode : Mode) (sa da : Addr) (draw : Nat) : Session :=
  let rtsMax := if mode = .tp && f.byte 4 != 0 then f.byte 4 else 0xFF
  Session.opened f.channel mode .rx sa da f.pgnField (f.rtsLen mode) rtsMax .requestReceived f.timestamp draw

/-- A received RTS: the checks in their order, the first failure rejecting it by an abort frame (42_session_engine.md R228, R229). -/
def rxRts (f : Frame) (mode : Mode) (sa da : Addr) (s : State) : Except Fault State :=
  let reject (r : AbortReason) : State := sendAbort f.channel mode sa da r f.pgnField s
  if (s.findSlot f.channel sa da .rx).isSome then .ok (reject .alreadyInSession)
  else
    match rtsFrameError f mode with
    | some r => .ok (reject r)
    | none =>
      match s.freeSlot with
      | none => .ok (reject .alreadyInSession)
      | some i =>
        if s.canAllocate (f.rtsLen mode).toNat then
          let x := rtsSession f mode sa da s.draws
          offer f.timestamp i x .cts (s.setSlot i (some x))
        else .ok (reject .alreadyInSession)

/-- The packet of a data frame written into the buffer (42_session_engine.md R231). -/
def storePacket (f : Frame) (x : Session) : Except Fault Session :=
  let off := packetOffset x.nextPkt
  memWrite x off.toNat ((f.data.drop 1).take (packetBytes x off))

/-- A data frame for which no grant is outstanding (42_session_engine.md R233). -/
def noGrant (x : Session) : Bool :=
  (x.state != .clearToSendSent && x.state != .receiving) || x.burstLeft == 0 || x.pending.isSome ||
    (x.mode == .etp && !x.dpoSeen)

/-- The reason for a sequence number that is not the expected one (42_session_engine.md R232, R240). -/
def sequenceError (seq : Byte) (expected : BitVec 32) : AbortReason :=
  if 1 ≤ seq.toNat ∧ seq.toNat < expected.toNat then .duplicateSequence else .badSequence

/-- A data frame with a grant outstanding: stored if its sequence number is the expected one, else the session ends (42_session_engine.md R231, R232, R234, R235). -/
def acceptData (f : Frame) (i : Nat) (x : Session) (s : State) : Except Fault State :=
  let seq := f.byte 0
  let expected := x.sequence x.nextPkt
  if seq.setWidth 32 = expected then
    match storePacket f x with
    | .error e => .error e
    | .ok y =>
      let z := { y with
        nextPkt      := y.nextPkt + 1#32
        burstLeft    := y.burstLeft - 1#8
        state        := .receiving
        lastActivity := f.timestamp }
      let t := s.setSlot i (some z)
      if z.allPackets then offer f.timestamp i z .eoma t
      else if z.burstLeft = 0 then offer f.timestamp i z .cts t
      else .ok t
  else .ok (abortSession i x (sequenceError seq expected) true s)

/-- A received data frame to an internal address (42_session_engine.md R231 to R233). -/
def rxData (f : Frame) (mode : Mode) (sa da : Addr) (s : State) : Except Fault State :=
  match s.findSlot f.channel sa da .rx with
  | none => .ok (s.dropFrame .noSession)
  | some (i, x) =>
    if x.mode ≠ mode then .ok (s.dropFrame .protocolMismatch)
    else if noGrant x then .ok (abortSession i x .unexpectedDT true s)
    else acceptData f i x s

/-- A received ETP DPO (42_session_engine.md R236). -/
def rxDpo (f : Frame) (sa da : Addr) (s : State) : State :=
  match s.findSlot f.channel sa da .rx with
  | none => s.dropFrame .noSession
  | some (i, x) =>
    let dn := f.byte 1
    let doff := word24 (f.byte 2) (f.byte 3) (f.byte 4)
    if x.mode ≠ .etp then s.dropFrame .protocolMismatch
    else if x.pgn ≠ f.pgnField then s.dropFrame .pgnMismatch
    else if x.state ≠ .clearToSendSent ∨ x.dpoSeen = true ∨ x.pending ≠ none then
      abortSession i x .unexpectedDPO true s
    else if dn = 0 ∨ x.burstLeft.toNat < dn.toNat then abortSession i x .dpoCountTooBig true s
    else if doff.setWidth 32 ≠ x.nextPkt - 1#32 then abortSession i x .badDpoOffset true s
    else
      s.setSlot i (some { x with dpoOffset := doff, burstLeft := dn, dpoSeen := true, lastActivity := f.timestamp })

/-! ### BAM (42_session_engine.md R239, R240) -/

/-- The old session of a peer that announces anew ends, with no frame sent (42_session_engine.md R239). -/
def endOldReceiver (f : Frame) (sa : Addr) (s : State) : State :=
  match s.findSlot f.channel sa globalAddr .rx with
  | some (o, x) => abortSession o x .anyOther false s
  | none => s

/-- A received BAM announce: a bad one is dropped, an old session of the same peer ends, and the new one opens if there is room (42_session_engine.md R239). -/
def rxAnnounce (f : Frame) (sa : Addr) (s : State) : State :=
  let len := f.rtsLen .bam
  if len = 0 ∨ tpMaxLen < len.toNat ∨ (f.byte 3).toNat ≠ packetCount len.toNat then s.dropFrame .badAnnounce
  else
    let s := endOldReceiver f sa s
    match s.freeSlot with
    | none => s.dropFrame .noResources
    | some i =>
      if s.canAllocate len.toNat then
        s.setSlot i (some (Session.opened f.channel .bam .rx sa globalAddr f.pgnField len 0xFF .receiving f.timestamp s.draws))
      else s.dropFrame .noResources

/-- A received TP.DT to the global address (42_session_engine.md R240). -/
def rxBamData (f : Frame) (sa : Addr) (s : State) : Except Fault State :=
  match s.findSlot f.channel sa globalAddr .rx with
  | none => .ok (s.dropFrame .noSession)
  | some (i, x) =>
    let seq := f.byte 0
    if seq.setWidth 32 = x.nextPkt then
      match storePacket f x with
      | .error e => .error e
      | .ok y =>
        let z := { y with nextPkt := y.nextPkt + 1#32, lastActivity := f.timestamp }
        let t := s.setSlot i (some z)
        if z.allPackets then complete i z t else .ok t
    else .ok (abortSession i x (sequenceError seq x.nextPkt) false s)

/-! ### Routing (42_session_engine.md R211 to R213) -/

/-- A frame dropped for its destination: a global one that is neither a BAM announce nor a TP.DT, or a BAM announce to one address (42_session_engine.md R213). -/
def badDestination (f : Frame) (g : Pgn) (da : Addr) : Bool :=
  let announce := g == pgnTpCm && tpControlKind (f.byte 0) == some .announce
  if da == globalAddr then !(announce || g == pgnTpDt) else announce

/-- A connection-management frame handed to its handler by its control byte (42_session_engine.md R211, step 3). -/
def rxControl (f : Frame) (mode : Mode) (kind : Option ControlKind) (sa da : Addr) (s : State) : Except Fault State :=
  match kind with
  | some .rts => rxRts f mode sa da s
  | some .cts => .ok (rxCts f mode sa da s)
  | some .eoma => rxEoma f mode sa da s
  | some .dpo => .ok (rxDpo f sa da s)
  | some .announce => .ok (rxAnnounce f sa s)
  | some .abort => .ok (rxAbort f mode sa da s)
  | none => .ok (s.dropFrame .unknownControl)

/-- `TseRx(f)`: length, destination, control byte, data, in this order (42_session_engine.md R211). -/
def tseRx (f : Frame) (s : State) : Except Fault State :=
  let id := idDecode f.identifier
  if f.length.toNat < 8 then .ok (s.dropFrame .shortFrame)
  else if id.da != globalAddr && !s.isInternal f.channel id.da then .ok s
  else if badDestination f id.pgn id.da then .ok (s.dropFrame .badDestination)
  else if id.pgn = pgnTpCm then rxControl f .tp (tpControlKind (f.byte 0)) id.sa id.da s
  else if id.pgn = pgnEtpCm then rxControl f .etp (etpControlKind (f.byte 0)) id.sa id.da s
  else if id.pgn = pgnTpDt then
    if id.da = globalAddr then rxBamData f id.sa s else rxData f .tp id.sa id.da s
  else rxData f .etp id.sa id.da s

/-- A transport PGN, which RX_FRAME routes to the engine (43_block_commands.md R308). -/
def isTransportPgn (g : Pgn) : Bool := g == pgnTpCm || g == pgnTpDt || g == pgnEtpCm || g == pgnEtpDt

/-- The routing of a received frame (43_block_commands.md R308 to R311). -/
def routeFrame (f : Frame) (s : State) : Except Fault State :=
  if f.extended = false then .ok (s.emit (.passthrough f))
  else if f.identifier.extractLsb' 29 3 ≠ 0#3 then .ok (s.dropFrame .invalidIdentifier)
  else if isTransportPgn (idDecode f.identifier).pgn then tseRx f s
  else .ok (s.emit (.passthrough f))

end Sys2Proof.Machine
end

