-- ==== Sys2Proof/Machine/Transport.lean ====
section
/-! DEFINITION. The commands that drive the transport session engine (43_block_commands.md): TX_SEND, RX_FRAME, UPDATE and SESSION_ABORT. -/

namespace Sys2Proof.Machine

/-! ### TX_SEND -/

/-- `SendAllowed(ch, src, dst, absent)` (R301). -/
def sendAllowed (s : State) (ch : Channel) (src dst : Addr) : Bool :=
  s.isInternal ch src && (dst == globalAddr || s.reachable ch dst)

/-- The modes a message can be sent in (R302). -/
inductive SendMode where
  | reject
  | single
  | tp
  | bam
  | etp
deriving DecidableEq, Repr

/-- `SelectMode(L, absent)` (R302). -/
def selectMode (len : Nat) (absent : Bool) : SendMode :=
  if len ≤ sfMaxLen then .single
  else if len ≤ tpMaxLen then (if absent then .bam else .tp)
  else if len ≤ etpMaxLen then (if absent then .reject else .etp)
  else .reject

/-- `SingleFrame(ch, p, g, dst, src, L, payload)`: one frame offered, its answer the result, no state kept (R303). -/
def singleFrame (q : SendRequest) (s : State) : Bool × State :=
  let prio := q.prio.getD s.cfg.defaultPriority
  (s.driverAccepts, s.send q.channel (idEncode prio (q.pgn.setWidth 18) q.dst q.src) q.payload)

/-- A Tx session written to slot `i` with its payload, and its first control frame offered (42_session_engine.md R215, R237). -/
def openSession (q : SendRequest) (mode : Mode) (dst : Addr) (k : Control) (i : Nat) (s : State) : Except Fault State :=
  let x := Session.opened q.channel mode .tx q.src dst (q.pgn.setWidth 18) q.len 0xFF .idle q.now s.draws
  match memWrite x 0 q.payload with
  | .error e => .error e
  | .ok y => offer q.now i y k (s.setSlot i (some y))

/-- A Tx session opened where a slot and a buffer can be had (R304 to R306). -/
def openTx (q : SendRequest) (mode : Mode) (dst : Addr) (k : Control) (s : State) : Except Fault (Bool × State) :=
  match s.freeSlot with
  | none => .ok (false, s)
  | some i =>
    if s.canAllocate q.len.toNat then
      match openSession q mode dst k i s with
      | .ok t => .ok (true, t)
      | .error e => .error e
    else .ok (false, s)

/-- `OpenTx(P)`: the capacity rule of 42_session_engine.md R201, then the session (R304, R306). -/
def openPeer (q : SendRequest) (mode : Mode) (s : State) : Except Fault (Bool × State) :=
  if (s.findSlot q.channel q.src q.dst .tx).isSome then .ok (false, s)
  else openTx q mode q.dst .rts s

/-- `OpenBam()`: the BAM rule of 42_session_engine.md R202, then the session (R305). -/
def openBam (q : SendRequest) (s : State) : Except Fault (Bool × State) :=
  if s.bamTxActive q.channel then .ok (false, s)
  else openTx q .bam globalAddr .announce s

/-- The body of TX_SEND: the value of `accepted` and the state (R300). -/
def sendMessage (q : SendRequest) (s : State) : Except Fault (Bool × State) :=
  if sendAllowed s q.channel q.src q.dst then
    match selectMode q.len.toNat (q.dst == globalAddr) with
    | .reject => .ok (false, s)
    | .single => .ok (singleFrame q s)
    | .tp => openPeer q .tp s
    | .bam => openBam q s
    | .etp => openPeer q .etp s
  else .ok (false, s)

/-- TX_SEND (R300). -/
def execTxSend (q : SendRequest) (s : State) : Host.Outcome State Fault Refusal :=
  if channelIllegal s.cfg q.channel then s.illegal
  else
    match sendMessage q s with
    | .ok (accepted, t) => t.done fun p => { p with accepted := accepted }
    | .error e => .fault e

/-! ### RX_FRAME -/

/-- RX_FRAME (R308). -/
def execRxFrame (f : Frame) (s : State) : Host.Outcome State Fault Refusal :=
  if frameIllegal s.cfg f then s.illegal else finish (routeFrame f s)

/-! ### UPDATE -/

/-- UPDATE: every slot valid at its start is served, in ascending order (R313). -/
def execUpdate (now : Millis) (s : State) : Host.Outcome State Fault Refusal :=
  finish (serviceSlots now (liveSlots s) s)

/-! ### SESSION_ABORT -/

/-- `AppAbort(ch, src, dst, dir)`: the value of `found` and the state (42_session_engine.md R242). -/
def appAbort (ch : Channel) (src dst : Addr) (dir : Dir) (s : State) : Bool × State :=
  match s.findSlot ch src dst dir with
  | some (i, x) => (true, abortSession i x .appAbort (x.mode != .bam) s)
  | none => (false, s)

/-- SESSION_ABORT; its `now` is read by nothing (R314; log 21). -/
def execSessionAbort (_now : Millis) (ch : Channel) (src dst : Addr) (dir : Dir) (s : State) : Host.Outcome State Fault Refusal :=
  if channelIllegal s.cfg ch then s.illegal
  else
    let r := appAbort ch src dst dir s
    r.2.done fun p => { p with found := r.1 }

end Sys2Proof.Machine
end

