-- ==== Sys2Proof/Machine/Dispatch.lean ====
section
/-! DEFINITION. The dispatch of a command to its meaning: one arm per constructor of `Instr`. -/

namespace Sys2Proof.Machine

def exec (i : Instr) (s : State) : Host.Outcome State Fault Refusal :=
  match i with
  | .idEncode ty prio pgn da sa => Sys2Proof.Machine.execIdEncode ty prio pgn da sa s
  | .idDecode ty raw => Sys2Proof.Machine.execIdDecode ty raw s
  | .nameEncode f => Sys2Proof.Machine.execNameEncode f s
  | .nameDecode n => Sys2Proof.Machine.execNameDecode n s
  | .nameCmp a b => Sys2Proof.Machine.execNameCmp a b s
  | .nameMatch n count fs => Sys2Proof.Machine.execNameMatch n count fs s
  | .nameGetIdentity n => Sys2Proof.Machine.execNameGetIdentity n s
  | .nameGetManufacturer n => Sys2Proof.Machine.execNameGetManufacturer n s
  | .nameGetEcuInstance n => Sys2Proof.Machine.execNameGetEcuInstance n s
  | .nameGetFunctionInstance n => Sys2Proof.Machine.execNameGetFunctionInstance n s
  | .nameGetFunction n => Sys2Proof.Machine.execNameGetFunction n s
  | .nameGetDeviceClass n => Sys2Proof.Machine.execNameGetDeviceClass n s
  | .nameGetDeviceClassInstance n => Sys2Proof.Machine.execNameGetDeviceClassInstance n s
  | .nameGetIndustryGroup n => Sys2Proof.Machine.execNameGetIndustryGroup n s
  | .nameGetAac n => Sys2Proof.Machine.execNameGetAac n s
  | .nameSetIdentity n v => Sys2Proof.Machine.execNameSetIdentity n v s
  | .nameSetManufacturer n v => Sys2Proof.Machine.execNameSetManufacturer n v s
  | .nameSetEcuInstance n v => Sys2Proof.Machine.execNameSetEcuInstance n v s
  | .nameSetFunctionInstance n v => Sys2Proof.Machine.execNameSetFunctionInstance n v s
  | .nameSetFunction n v => Sys2Proof.Machine.execNameSetFunction n v s
  | .nameSetDeviceClass n v => Sys2Proof.Machine.execNameSetDeviceClass n v s
  | .nameSetDeviceClassInstance n v => Sys2Proof.Machine.execNameSetDeviceClassInstance n v s
  | .nameSetIndustryGroup n v => Sys2Proof.Machine.execNameSetIndustryGroup n v s
  | .nameSetAac n v => Sys2Proof.Machine.execNameSetAac n v s
  | .txSend r => Sys2Proof.Machine.execTxSend r s
  | .rxFrame f => Sys2Proof.Machine.execRxFrame f s
  | .update now => Sys2Proof.Machine.execUpdate now s
  | .sessionAbort now ch src dst dir => Sys2Proof.Machine.execSessionAbort now ch src dst dir s
  | .status => Sys2Proof.Machine.execStatus s
  | .reset => Sys2Proof.Machine.execReset s

end Sys2Proof.Machine
end

