-- ==== Sys2Proof/Machine/Step.lean ====
section
/-! DEFINITION. One step: the block takes the next command the host has issued and runs it (00_scope.md R6, 20_memory.md R67). -/

namespace Sys2Proof.Machine

/-- With no command issued the block does nothing (60_exceptions.md R364; log 9). A reserved opcode gets status ILLEGAL (30_encoding.md R84). A record that is no operand record is refused (log 11). -/
def step (s : State) : Host.Outcome State Fault Refusal :=
  match s.take with
  | none => .next s
  | some (record, t) =>
    match decode record with
    | .ok i => exec i t
    | .error (.reservedOpcode _) => t.illegal
    | .error _ => .refused .malformedRecord

/-- The state in which the next command is the opcode-table word `w` of `nbits` bits. -/
def State.withFetchWord (s : State) (nbits w : Nat) : State := s.issue (tableRecord nbits w)

end Sys2Proof.Machine
end

