-- ==== Sys2Proof/WellFormed.lean ====
section
/-! DEFINITION. Which terms of `Instr` are operand records of the block: NAME_MATCH carries `count` filters and TX_SEND carries `len` payload bytes (30_encoding.md R80, R106). Every other term is one, RX_FRAME with any number of data bytes among them: a length that differs from it is a command with status ILLEGAL (R84), not an ill-formed term. -/

namespace Sys2Proof

/-- The operand record's length follows from the opcode and its count or length operand (30_encoding.md R106). -/
def Instr.wf : Instr → Bool
  | .nameMatch _ count filters => decide (filters.length = count.toNat)
  | .txSend r => decide (r.payload.length = r.len.toNat)
  | .idEncode .. | .idDecode .. | .nameEncode .. | .nameDecode .. | .nameCmp ..
  | .nameGetIdentity .. | .nameGetManufacturer .. | .nameGetEcuInstance ..
  | .nameGetFunctionInstance .. | .nameGetFunction .. | .nameGetDeviceClass ..
  | .nameGetDeviceClassInstance .. | .nameGetIndustryGroup .. | .nameGetAac ..
  | .nameSetIdentity .. | .nameSetManufacturer .. | .nameSetEcuInstance ..
  | .nameSetFunctionInstance .. | .nameSetFunction .. | .nameSetDeviceClass ..
  | .nameSetDeviceClassInstance .. | .nameSetIndustryGroup .. | .nameSetAac ..
  | .rxFrame .. | .update .. | .sessionAbort .. | .status | .reset => true

end Sys2Proof
end

