-- ==== Sys2Proof/Safety.lean ====
section
/-! DEFINITION. What a good state is (10_state.md R22 to R25, R30; 20_memory.md R60 to R63), and the words the statements use: what a command changes, which frames reach the transport engine, where a key is free. -/

namespace Sys2Proof.Machine

/-! ### A good session -/

/-- The states of each mode and direction (10_state.md R24). -/
def Session.legalState (x : Session) : Bool :=
  match x.mode, x.dir, x.state with
  | .bam, .tx, .idle | .bam, .tx, .announced | .bam, .tx, .sending => true
  | .bam, .rx, .receiving => true
  | .tp, .tx, .idle | .tp, .tx, .requestedToSend | .tp, .tx, .clearToSendReceived
  | .tp, .tx, .sending | .tp, .tx, .waitingForEndAck => true
  | .etp, .tx, .idle | .etp, .tx, .requestedToSend | .etp, .tx, .clearToSendReceived
  | .etp, .tx, .sending | .etp, .tx, .waitingForEndAck => true
  | .tp, .rx, .requestReceived | .tp, .rx, .clearToSendSent | .tp, .rx, .receiving => true
  | .etp, .rx, .requestReceived | .etp, .rx, .clearToSendSent | .etp, .rx, .receiving => true
  | _, _, _ => false

/-- The control frame each state can owe: the opening frame exactly in the opening state, a DPO only of an ETP sender with a grant, a CTS only with packets to come, an EOMA only with every packet received (10_state.md R25). -/
def Session.legalPending (x : Session) : Bool :=
  match x.dir, x.state, x.pending with
  | .tx, .idle, some .rts => x.mode != .bam
  | .tx, .idle, some .announce => x.mode == .bam
  | .tx, .idle, _ => false
  | .tx, .clearToSendReceived, some .dpo | .tx, .requestedToSend, some .dpo => x.mode == .etp
  | .rx, .requestReceived, some .cts => !x.allPackets
  | .rx, .requestReceived, _ => false
  | .rx, .receiving, some .cts => x.mode != .bam && !x.allPackets
  | .rx, .receiving, some .eoma => x.mode != .bam && x.allPackets
  | _, _, none => x.dir == .tx || !x.allPackets
  | _, _, some _ => false

/-- The largest message of a mode (00_scope.md R7). -/
def Mode.maxLen : Mode → Nat
  | .tp | .bam => tpMaxLen
  | .etp => etpMaxLen

/-- The length, the packet count and the next packet in their ranges (10_state.md R22, 20_memory.md R63). -/
def Session.packetsInRange (x : Session) : Bool :=
  decide (1 ≤ x.totalLen.toNat) && decide (x.totalLen.toNat ≤ x.mode.maxLen) &&
  decide (x.totalPkts.toNat = packetCount x.totalLen.toNat) &&
  decide (1 ≤ x.nextPkt.toNat) && decide (x.nextPkt.toNat ≤ x.totalPkts.toNat + 1) &&
  (x.mode != .bam || !x.allPackets)

/-- A session that uses its grant: a receiver of TP or ETP always, a sender from the CTS to the end of the burst (10_state.md R22 `burst_left`). -/
def Session.holdsGrant (x : Session) : Bool :=
  x.mode != .bam &&
    (x.dir == .rx || x.state == .clearToSendReceived || x.state == .sending || x.pending == some .dpo)

/-- The grant does not reach past the last packet, and an ETP sender's sequence numbers stay within 1..255 (30_encoding.md R103). -/
def Session.grantInRange (x : Session) : Bool :=
  (!x.holdsGrant || decide (x.nextPkt.toNat + x.burstLeft.toNat ≤ x.totalPkts.toNat + 1)) &&
  (!(x.mode == .etp && x.dir == .tx && x.state == .sending) ||
    (decide (x.dpoOffset.toNat < x.nextPkt.toNat) &&
     decide (x.nextPkt.toNat + x.burstLeft.toNat ≤ x.dpoOffset.toNat + 256)))

/-- The bytes a buffer must hold: all of them for a sender, those of the packets received for a receiver (20_memory.md R62, R64). -/
def Session.filledLen (x : Session) : Nat :=
  match x.dir with
  | .tx => x.totalLen.toNat
  | .rx => min (bytesPerPacket * (x.nextPkt.toNat - 1)) x.totalLen.toNat

/-- The buffer in canonical form, within `0..total_len-1`, and filled as far as the session has come. -/
def Session.bufferFilled (x : Session) : Bool :=
  x.buf.wf && x.buf.all (fun c => decide (c.1 < x.totalLen.toNat)) && (x.buf.bytes 0 x.filledLen).isSome

/-- A good session of a block with this configuration. The global destination is BAM's and BAM's alone (42_session_engine.md R202). -/
def Session.wf (c : Config) (x : Session) : Bool :=
  decide (x.channel.toNat < c.numChannels) && (x.mode == .bam) == (x.dst == globalAddr) &&
  x.legalState && x.legalPending && x.packetsInRange && x.grantInRange && x.bufferFilled

/-! ### A good state -/

/-- Two slots that may not both be valid: one key twice, or two BAM Tx sessions on one channel (10_state.md R30). -/
def clash : Option Session → Option Session → Bool
  | some x, some y =>
    x.hasKey y.channel y.src y.dst y.dir ||
      (x.channel == y.channel && x.mode == .bam && y.mode == .bam && x.dir == .tx && y.dir == .tx)
  | _, _ => false

/-- The invariant of the slot file (10_state.md R30). -/
abbrev State.keysUnique (s : State) : Prop := s.slots.Pairwise fun a b => clash a b = false

/-- Every session's destination is the global address exactly where its mode is BAM (42_session_engine.md R202). -/
def State.globalIsBam (s : State) : Bool :=
  s.slots.all fun o => o.all fun x => (x.mode == .bam) == (x.dst == globalAddr)

/-- Every session of the slot file is good. -/
def State.sessionsWf (s : State) : Bool := s.slots.all fun o => o.all fun x => x.wf s.cfg

/-- A good state: a configuration the spec allows, `MAX_SESSIONS` slots, good sessions, unique keys. -/
abbrev State.wf (s : State) : Prop :=
  s.cfg.wf = true ∧ s.slots.length = s.cfg.maxSessions ∧ s.sessionsWf = true ∧ s.keysUnique

/-! ### What a command changes -/

/-- What a command does to the block and to the outputs: the slot file after it, the frames dropped, the messages delivered, the frames offered, the events produced. -/
structure Change where
  slots    : List (Option Session)
  drops    : Nat := 0
  messages : Nat := 0
  offers   : List Offer := []
  events   : List Event := []

/-- `t` is `s` changed by `c` and in nothing else but the result ports and the count of free values drawn. -/
structure State.changed (s t : State) (c : Change) : Prop where
  cfg       : t.cfg = s.cfg
  inbox     : t.inbox = s.inbox
  registry  : t.registry = s.registry
  slots     : t.slots = c.slots
  dropCount : t.dropCount = s.dropCount + BitVec.ofNat 32 c.drops
  nextMsgId : t.nextMsgId = s.nextMsgId + BitVec.ofNat 64 c.messages
  driverIn  : t.driverIn = s.driverIn.drop c.offers.length
  offered   : t.offered = s.offered ++ c.offers
  events    : t.events = s.events ++ c.events

/-- The command answers a next state with status `OK`, the change `c`, and ports of which `ports` holds. -/
def completes (i : Instr) (s : State) (c : Change) (ports : Ports → Prop) : Prop :=
  ∃ t, exec i s = .next t ∧ s.changed t c ∧ t.out.status = .ok ∧ ports t.out

/-- The command answers a next state with status `OK` in which nothing has changed but the result ports, of which `ports` holds. -/
def computes (i : Instr) (s : State) (ports : Ports → Prop) : Prop := completes i s ⟨s.slots, 0, 0, [], []⟩ ports

/-- The command answers a next state with this status in which nothing has changed but the result ports, and those hold free values (30_encoding.md R83). -/
def turnedAway (i : Instr) (s : State) (status : Status) : Prop :=
  ∃ t, exec i s = .next t ∧ s.changed t ⟨s.slots, 0, 0, [], []⟩ ∧
    t.out = { Ports.unspecified s.draws with status := status }

/-! ### Which frames reach the transport engine, and where a session can open -/

/-- A frame RX_FRAME routes to the transport engine, of eight bytes, with this PGN, destination and source (43_block_commands.md R308, 42_session_engine.md R212). -/
structure Received (s : State) (f : Frame) (g : Pgn) (da sa : Addr) : Prop where
  channel    : f.channel.toNat < s.cfg.numChannels
  extended   : f.extended = true
  length     : f.length = 8
  data       : f.data.length = 8
  reserved   : f.identifier.toNat < 2 ^ 29
  pgn        : (idDecode f.identifier).pgn = g
  da         : (idDecode f.identifier).da = da
  sa         : (idDecode f.identifier).sa = sa

/-- No valid slot has this key. -/
def State.keyFree (s : State) (ch : Channel) (src dst : Addr) (dir : Dir) : Prop :=
  ∀ i x, s.slot i = some x → x.hasKey ch src dst dir = false

/-- Slot `i` is the free slot of lowest index (10_state.md R23). -/
def State.lowestFree (s : State) (i : Nat) : Prop :=
  i < s.slots.length ∧ s.slot i = none ∧ ∀ j, j < i → (s.slot j).isSome = true

/-- No slot is free. -/
def State.full (s : State) : Prop := ∀ j, j < s.slots.length → (s.slot j).isSome = true

/-- Slot `i` holds session `x`, and `x` has this key. -/
def State.holds (s : State) (i : Nat) (x : Session) (ch : Channel) (src dst : Addr) (dir : Dir) : Prop :=
  s.slot i = some x ∧ x.hasKey ch src dst dir = true

/-- The commands of the identifier and NAME codecs (40_identifier_codec.md, 41_name_codec.md). -/
def isCodec : Instr → Bool
  | .txSend .. | .rxFrame .. | .update .. | .sessionAbort .. | .status | .reset => false
  | .idEncode .. | .idDecode .. | .nameEncode .. | .nameDecode .. | .nameCmp .. | .nameMatch ..
  | .nameGetIdentity .. | .nameGetManufacturer .. | .nameGetEcuInstance ..
  | .nameGetFunctionInstance .. | .nameGetFunction .. | .nameGetDeviceClass ..
  | .nameGetDeviceClassInstance .. | .nameGetIndustryGroup .. | .nameGetAac ..
  | .nameSetIdentity .. | .nameSetManufacturer .. | .nameSetEcuInstance ..
  | .nameSetFunctionInstance .. | .nameSetFunction .. | .nameSetDeviceClass ..
  | .nameSetDeviceClassInstance .. | .nameSetIndustryGroup .. | .nameSetAac .. => true

/-- The low `k` bytes of a number, least significant first: how a statement writes `L16`, `L24`, `L32` and the PGN field (30_encoding.md R92, R104). -/
def littleEndian (k n : Nat) : List Byte := (List.range k).map fun i => BitVec.ofNat 8 (n / 256 ^ i)

/-- Bits `lo` up to `lo + w - 1` of a number. -/
def bitField (n lo w : Nat) : Nat := n / 2 ^ lo % 2 ^ w

/-- The low bit and width of the NAME fields 0..8 (30_encoding.md R88). -/
def nameLayout : List (Nat × Nat) := [(0, 21), (21, 11), (32, 3), (35, 5), (40, 8), (49, 7), (56, 4), (60, 3), (63, 1)]

/-- The getters, by field selector (30_encoding.md R82). -/
def nameGetters : List (NameWord → Instr) :=
  [.nameGetIdentity, .nameGetManufacturer, .nameGetEcuInstance, .nameGetFunctionInstance, .nameGetFunction,
   .nameGetDeviceClass, .nameGetDeviceClassInstance, .nameGetIndustryGroup, .nameGetAac]

/-- The setters, by field selector (30_encoding.md R82). -/
def nameSetters : List (NameWord → Word → Instr) :=
  [.nameSetIdentity, .nameSetManufacturer, .nameSetEcuInstance, .nameSetFunctionInstance, .nameSetFunction,
   .nameSetDeviceClass, .nameSetDeviceClassInstance, .nameSetIndustryGroup, .nameSetAac]

/-! ### Frames as the rules write them -/

/-- The number a little-endian run of bytes stands for (20_memory.md R65). -/
def leNumber : List Byte → Nat
  | [] => 0
  | b :: bs => b.toNat + 256 * leNumber bs

/-- The PGN field of a received control frame: `{b7, b6, b5}[17:0]` (30_encoding.md R104). -/
def pgnNumber (f : Frame) : Nat := leNumber [f.byte 5, f.byte 6, f.byte 7] % 2 ^ 18

/-- The PGN of a mode's control frames (30_encoding.md R90). -/
def Mode.cm : Mode → Pgn
  | .tp | .bam => 0xEC00
  | .etp => 0xC800

/-- The PGN of a mode's data frames (30_encoding.md R90). -/
def Mode.dt : Mode → Pgn
  | .tp | .bam => 0xEB00
  | .etp => 0xC700

/-- The driver's answer to the `k`-th offer from now on, where nothing else is drawn in between (60_exceptions.md R355; log 6). -/
def State.answer (s : State) (k : Nat) : Bool := (s.driverIn.drop k).headD (Config.freeAccept (s.draws + k))

/-- The `k`-th transport frame offered from now on: extended, its identifier `IDENC(TP_PRIORITY, g, receiver, sender)`, its length the number of its data bytes, its timestamp a free value (30_encoding.md R89, R90; log 24). -/
def State.frame (s : State) (k : Nat) (ch : Channel) (g : Pgn) (receiver sender : Addr) (data : List Byte) : Offer :=
  ⟨⟨ch, idEncode s.cfg.tpPriority g receiver sender, data, BitVec.ofNat 4 data.length, true, Config.freeStamp (s.draws + k)⟩,
   s.answer k⟩

/-- An abort frame (42_session_engine.md R204). -/
def State.abortFrame (s : State) (ch : Channel) (m : Mode) (receiver sender : Addr) (code : Byte) (pgn : Nat) : Offer :=
  s.frame 0 ch m.cm receiver sender ([0xFF, code, 0xFF, 0xFF, 0xFF] ++ littleEndian 3 pgn)

/-- What `AbortSession` changes: the slot is free, one event, and an abort frame where the peer is notified (42_session_engine.md R204). -/
def State.ending (s : State) (i : Nat) (x : Session) (code : Byte) (notify : Bool) : Change where
  slots  := s.slots.set i none
  offers := if notify then [s.abortFrame x.channel x.mode x.peer x.ours code x.pgn.toNat] else []
  events := [.aborted x.channel x.mode x.dir x.pgn x.src x.dst code]

/-- The packets a receiver's CTS grants (42_session_engine.md R230). -/
def Session.grant (c : Config) (x : Session) : Nat :=
  min (min c.ctsMaxPackets.toNat x.rtsMax.toNat) (x.totalPkts.toNat + 1 - x.nextPkt.toNat)

/-- The control frame a session owes, offered now (42_session_engine.md R224, R227, R230, R235, R237). -/
def State.owed (s : State) (x : Session) : Control → Offer
  | .rts => s.frame 0 x.channel x.mode.cm x.dst x.src
      ((if x.mode = .etp then [0x14] ++ littleEndian 4 x.totalLen.toNat
        else [0x10] ++ littleEndian 2 x.totalLen.toNat ++ [BitVec.ofNat 8 x.totalPkts.toNat, 0xFF]) ++ littleEndian 3 x.pgn.toNat)
  | .cts => s.frame 0 x.channel x.mode.cm x.src x.dst
      ((if x.mode = .etp then [0x15, BitVec.ofNat 8 (x.grant s.cfg)] ++ littleEndian 3 x.nextPkt.toNat
        else [0x11, BitVec.ofNat 8 (x.grant s.cfg), BitVec.ofNat 8 x.nextPkt.toNat, 0xFF, 0xFF]) ++ littleEndian 3 x.pgn.toNat)
  | .dpo => s.frame 0 x.channel 0xC800 x.dst x.src
      ([0x16, x.burstLeft] ++ littleEndian 3 (x.nextPkt.toNat - 1) ++ littleEndian 3 x.pgn.toNat)
  | .eoma => s.frame 0 x.channel x.mode.cm x.src x.dst
      ((if x.mode = .etp then [0x17] ++ littleEndian 4 x.totalLen.toNat
        else [0x13] ++ littleEndian 2 x.totalLen.toNat ++ [BitVec.ofNat 8 x.totalPkts.toNat, 0xFF]) ++ littleEndian 3 x.pgn.toNat)
  | .announce => s.frame 0 x.channel 0xEC00 0xFF x.src
      ([0x20] ++ littleEndian 2 x.totalLen.toNat ++ [BitVec.ofNat 8 x.totalPkts.toNat, 0xFF] ++ littleEndian 3 x.pgn.toNat)

/-- A receiver whose CTS is offered now: the grant stands if the driver accepts it, else the CTS stays owed (42_session_engine.md R206, R230). -/
def State.afterCts (s : State) (x : Session) (now : Millis) : Session :=
  if s.answer 0 then
    { x with state := .clearToSendSent, burstLeft := BitVec.ofNat 8 (x.grant s.cfg), dpoSeen := false, pending := none,
             lastActivity := now }
  else { x with pending := some .cts }

/-! ### Packets, grants and limits -/

/-- The bytes of packet `k`: those of the buffer from `7*(k-1)` up to `min(7*k, total_len)` (20_memory.md R63). -/
def Session.packet (x : Session) (k : Nat) (bytes : List Byte) : Prop :=
  bytes.length = min (7 * k) x.totalLen.toNat - 7 * (k - 1) ∧ ∀ j, j < bytes.length → x.buf.byte (7 * (k - 1) + j) = bytes[j]?

/-- A data frame's data: the sequence number, the packet, 0xFF up to eight bytes (42_session_engine.md R226). -/
def packetData (seq : Nat) (bytes : List Byte) : List Byte :=
  [BitVec.ofNat 8 seq] ++ bytes ++ List.replicate (7 - bytes.length) 0xFF

/-- A buffer after the next packet was stored from a frame, and nothing else was (42_session_engine.md R231). -/
def Session.stores (x : Session) (f : Frame) (buf : Memory) : Prop :=
  buf.wf = true ∧ ∀ j, buf.byte j =
    if 7 * (x.nextPkt.toNat - 1) ≤ j ∧ j < min (7 * x.nextPkt.toNat) x.totalLen.toNat
    then f.data[j - 7 * (x.nextPkt.toNat - 1) + 1]? else x.buf.byte j

/-- The whole message of a buffer. -/
def Memory.message (m : Memory) (len : Nat) (payload : List Byte) : Prop :=
  payload.length = len ∧ ∀ j, j < len → m.byte j = payload[j]?

/-- A receiver with a grant outstanding: none of the conditions of 42_session_engine.md R233. -/
def Session.granted (x : Session) : Prop :=
  (x.state = .clearToSendSent ∨ x.state = .receiving) ∧ x.burstLeft ≠ 0 ∧ x.pending = none ∧
    (x.mode = .etp → x.dpoSeen = true)

/-- The sequence number a receiver expects: `next_pkt`, or for ETP `next_pkt - dpo_offset` modulo 2^32 (42_session_engine.md R231). -/
def Session.expected (x : Session) : Nat :=
  if x.mode = .etp then (x.nextPkt.toNat + 2 ^ 32 - x.dpoOffset.toNat) % 2 ^ 32 else x.nextPkt.toNat

/-- A session that waits for a peer frame under this limit and owes no frame itself: the table of 42_session_engine.md R209. -/
def Session.waits (c : Config) (x : Session) (limit : Millis) : Prop :=
  x.pending = none ∧
    ((x.mode ≠ .bam ∧ x.dir = .tx ∧ x.state = .requestedToSend ∧ x.hold = false ∧ limit = c.t3) ∨
     (x.mode ≠ .bam ∧ x.dir = .tx ∧ x.state = .requestedToSend ∧ x.hold = true ∧ limit = c.t4) ∨
     (x.mode ≠ .bam ∧ x.dir = .tx ∧ x.state = .waitingForEndAck ∧ limit = c.t3) ∨
     (x.mode ≠ .bam ∧ x.dir = .rx ∧ x.state = .clearToSendSent ∧ limit = c.t2) ∨
     (x.dir = .rx ∧ x.state = .receiving ∧ limit = c.t1))

/-- Slot `i` holds session `x`, and no other slot is valid. -/
def State.only (s : State) (i : Nat) (x : Session) : Prop := s.slot i = some x ∧ ∀ j, j ≠ i → s.slot j = none

/-- What an UPDATE of `s` is to slot `i` once `n` frames have been offered and `m` messages delivered in it: no other slot is valid, the driver's answers and the free values are those from the `n`-th offer on, and the message ids those from the `m`-th delivery on (42_session_engine.md R208). -/
def State.turn (s : State) (i n m : Nat) : State :=
  { s with
    slots     := (List.range s.slots.length).map fun j => if j = i then s.slot i else none
    driverIn  := s.driverIn.drop n
    draws     := s.draws + n
    nextMsgId := s.nextMsgId + BitVec.ofNat 64 m }

/-- The message ids of the deliveries among some events, in order. -/
def deliveredIds : List Event → List (BitVec 64)
  | [] => []
  | .delivered _ _ _ _ _ _ msgId :: es => msgId :: deliveredIds es
  | _ :: es => deliveredIds es

/-- Commands run one after another, as long as each answers a next state. -/
def runAll : List Instr → State → Host.Outcome State Fault Refusal
  | [], s => .next s
  | i :: is, s =>
    match exec i s with
    | .next t => runAll is t
    | .fault e => .fault e
    | .refused r => .refused r

end Sys2Proof.Machine
end

