-- ==== Sys2Proof/Certificates/Slice0/Obligations.lean ====
section
/-! DEFINITION. What is claimed of the block: statements for the provers, each a reading of rules of spec/. Nothing is proved here. -/

open Sys2Proof Sys2Proof.Machine

/-! ### Records and steps -/

/-- A command's record decodes to the command, with every operand at every value its port admits (R80, R81, R106). The byte layout of a record is the model's choice (log 2). -/
def Obligations.DecodingARecordGivesItsCommand : Prop :=
  ∀ i : Instr, i.wf = true → decode (encode i) = .ok i

/-- Whatever record decodes to a command is headed by the command's opcode and has the length that follows from the opcode and its count or length operand (R81, R106). The byte layout is the model's choice (log 2). -/
def Obligations.ARecordsLengthFollowsFromItsOpcode : Prop :=
  ∀ (record : List Byte) (i : Instr), decode record = .ok i →
    i.wf = true ∧ record.head? = some (opcode i) ∧ record.length = (encode i).length

/-- Words of the opcode map read as the commands they stand for (R81), one of each family, the operands zero or written out. -/
def Obligations.OpcodeWordsReadAsTheirCommands : Prop :=
  decodeTableWord 8 0x01 = some (.idEncode .standard 0 0 0 0) ∧
  decode [0x02, 1, 0x1C, 0x80, 0xEF, 0x18] = .ok (.idDecode .extended 0x18EF801C) ∧
  decode [0x24, 0x45, 0x23, 0xA1, 0x08, 0x11, 0x81, 0x32, 0xA3] = .ok (.nameGetFunction 0xA332811108A12345) ∧
  decode [0x34, 0x45, 0x23, 0xA1, 0x08, 0x11, 0x81, 0x32, 0xA3, 0xFF, 0, 0, 0] =
    .ok (.nameSetFunction 0xA332811108A12345 0xFF) ∧
  decode [0x42, 0xE3, 0x04, 0, 0] = .ok (.update 1251) ∧
  decodeTableWord 8 0x44 = some .status ∧ decodeTableWord 8 0x7F = some .reset ∧ decodeTableWord 8 0x45 = none

/-- A step runs the command its record decodes to, at the state in which the command has left the queue and the registry's answers are those that came with it (R67, R69, R356). -/
def Obligations.AStepRunsTheDecodedCommand : Prop :=
  ∀ (s : State) (record : List Byte) (reg : Registry) (rest : List Command) (i : Instr),
    s.inbox = ⟨record, reg⟩ :: rest → decode record = .ok i →
    step s = exec i { s with inbox := rest, registry := reg }

/-- With no command waiting a step changes nothing (R364), and a record that is no operand record is refused; both are the model's choice (logs 9 and 11). -/
def Obligations.AStepWithoutACommandChangesNothing : Prop :=
  (∀ s : State, s.inbox = [] → step s = .next s) ∧
  ∀ (s : State) (record : List Byte) (reg : Registry) (rest : List Command), s.inbox = ⟨record, reg⟩ :: rest →
    (decode record = .error .emptyRecord ∨ ∃ op, decode record = .error (.badRecord op)) →
    step s = .refused .malformedRecord

/-- Reserved encodings get status ILLEGAL and have no other effect (R84): a reserved opcode, too many filters or a reserved selector, a bad channel, a bad frame length. -/
def Obligations.ReservedEncodingsAreIllegalWithoutEffect : Prop :=
  (∀ (s : State) (op : Byte) (r : List Byte) (reg : Registry) (rest : List Command),
    op.toNat ∉ [0x01, 0x02, 0x10, 0x11, 0x12, 0x13, 0x20, 0x21, 0x22, 0x23, 0x24, 0x25, 0x26, 0x27, 0x28,
      0x30, 0x31, 0x32, 0x33, 0x34, 0x35, 0x36, 0x37, 0x38, 0x40, 0x41, 0x42, 0x43, 0x44, 0x7F] →
    s.inbox = ⟨op :: r, reg⟩ :: rest →
    ∃ t, step s = .next t ∧
      State.changed { s with inbox := rest, registry := reg } t ⟨s.slots, 0, 0, [], []⟩ ∧
      t.out = { Ports.unspecified s.draws with status := .illegal }) ∧
  (∀ (s : State) (n : NameWord) (count : Byte) (fs : List Filter),
    (s.cfg.maxFilters < count.toNat ∨ ∃ f ∈ fs, 9 ≤ f.field.toNat) → turnedAway (.nameMatch n count fs) s .illegal) ∧
  (∀ (s : State) (q : SendRequest), s.cfg.numChannels ≤ q.channel.toNat → turnedAway (.txSend q) s .illegal) ∧
  (∀ (s : State) (f : Frame),
    (s.cfg.numChannels ≤ f.channel.toNat ∨ 8 < f.length.toNat ∨ f.length.toNat ≠ f.data.length) →
    turnedAway (.rxFrame f) s .illegal) ∧
  (∀ (s : State) (now : Millis) (ch : Channel) (src dst : Addr) (dir : Dir),
    s.cfg.numChannels ≤ ch.toNat → turnedAway (.sessionAbort now ch src dst dir) s .illegal)

/-! ### The identifier codec -/

/-- ID_ENCODE: an Extended identifier has its priority at bit 26, its PGN at bit 8, the destination folded into a PDU1 PGN, and the source below (R131); a Standard one has no meaning, status UNSUPPORTED, `raw` unspecified, no state change (R132). -/
def Obligations.IdEncodePacksTheFields : Prop :=
  ∀ (prio pgn : Word) (da sa : Addr) (s : State),
    computes (.idEncode .extended prio pgn da sa) s (fun p =>
      p.raw.toNat = prio.toNat % 2 ^ 3 * 2 ^ 26 +
        (if 0xF0 ≤ bitField pgn.toNat 8 8 then pgn.toNat % 2 ^ 18 * 2 ^ 8
         else bitField pgn.toNat 8 10 * 2 ^ 16 + da.toNat * 2 ^ 8) + sa.toNat) ∧
    turnedAway (.idEncode .standard prio pgn da sa) s .unsupported

/-- ID_DECODE: the fields of an Extended identifier (R133) and its validity (R135); of a Standard one the validity alone, that the value fits in 11 bits (R134). -/
def Obligations.IdDecodeUnpacksTheFields : Prop :=
  ∀ (raw : Word) (s : State),
    computes (.idDecode .extended raw) s (fun p =>
      p.prio.toNat = bitField raw.toNat 26 3 ∧ p.sa.toNat = bitField raw.toNat 0 8 ∧
      (0xF0 ≤ bitField raw.toNat 16 8 → p.pgn.toNat = bitField raw.toNat 8 18 ∧ p.da = 0xFF) ∧
      (bitField raw.toNat 16 8 < 0xF0 → p.pgn.toNat = bitField raw.toNat 16 10 * 2 ^ 8 ∧ p.da.toNat = bitField raw.toNat 8 8) ∧
      (p.valid = true ↔ raw.toNat < 2 ^ 29 ∧ ¬(s.cfg.idvRejectGlobalSa = true ∧ bitField raw.toNat 0 8 = 0xFF))) ∧
    computes (.idDecode .standard raw) s (fun p => p.valid = true ↔ raw.toNat < 2 ^ 11)

/-- The truncation law of ID_ENCODE (R136). -/
def Obligations.IdEncodeTruncatesItsOperands : Prop :=
  ∀ (prio pgn : Word) (da sa : Addr) (s : State), ∃ t,
    exec (.idEncode .extended prio pgn da sa) s = .next t ∧
    exec (.idEncode .extended (BitVec.ofNat 32 (prio.toNat % 8)) (BitVec.ofNat 32 (pgn.toNat % 2 ^ 18)) da sa) s = .next t

/-- The round-trip law of the identifier codec (R137): a valid tuple decodes back to itself, valid; a 29-bit value encodes back to itself. -/
def Obligations.IdentifiersRoundTrip : Prop :=
  (∀ (prio pgn : Word) (da sa : Addr) (s u : State),
    prio.toNat ≤ 7 → pgn.toNat ≤ 0x3FFFF →
    (bitField pgn.toNat 8 8 < 0xF0 → pgn.toNat % 2 ^ 8 = 0) → (0xF0 ≤ bitField pgn.toNat 8 8 → da = 0xFF) →
    (u.cfg.idvRejectGlobalSa = true → sa ≠ 0xFF) →
    computes (.idEncode .extended prio pgn da sa) s fun p =>
      computes (.idDecode .extended p.raw) u fun q =>
        q.prio.toNat = prio.toNat ∧ q.pgn.toNat = pgn.toNat ∧ q.da = da ∧ q.sa = sa ∧ q.valid = true) ∧
  ∀ (raw : Word) (s u : State), raw.toNat < 2 ^ 29 →
    computes (.idDecode .extended raw) s fun q =>
      computes (.idEncode .extended (q.prio.setWidth 32) (q.pgn.setWidth 32) q.da q.sa) u fun p => p.raw = raw

/-! ### The NAME codec -/

/-- The nine getters (R153 to R161): each gives its bits of the NAME, zero-extended. -/
def Obligations.NameGettersReadTheirBits : Prop :=
  ∀ (n : NameWord) (s : State),
    computes (.nameGetIdentity n) s (fun p => p.value.toNat = bitField n.toNat 0 21) ∧
    computes (.nameGetManufacturer n) s (fun p => p.value.toNat = bitField n.toNat 21 11) ∧
    computes (.nameGetEcuInstance n) s (fun p => p.value.toNat = bitField n.toNat 32 3) ∧
    computes (.nameGetFunctionInstance n) s (fun p => p.value.toNat = bitField n.toNat 35 5) ∧
    computes (.nameGetFunction n) s (fun p => p.value.toNat = bitField n.toNat 40 8) ∧
    computes (.nameGetDeviceClass n) s (fun p => p.value.toNat = bitField n.toNat 49 7) ∧
    computes (.nameGetDeviceClassInstance n) s (fun p => p.value.toNat = bitField n.toNat 56 4) ∧
    computes (.nameGetIndustryGroup n) s (fun p => p.value.toNat = bitField n.toNat 60 3) ∧
    computes (.nameGetAac n) s (fun p => p.value.toNat = bitField n.toNat 63 1)

/-- The nine setters (R162 to R170): the truncated value between the kept bits of the NAME. -/
def Obligations.NameSettersReplaceTheirBits : Prop :=
  ∀ (n : NameWord) (v : Word) (s : State),
    computes (.nameSetIdentity n v) s (fun p => p.name = (n.extractLsb 63 21 ++ v.extractLsb 20 0 : BitVec 64)) ∧
    computes (.nameSetManufacturer n v) s
      (fun p => p.name = (n.extractLsb 63 32 ++ v.extractLsb 10 0 ++ n.extractLsb 20 0 : BitVec 64)) ∧
    computes (.nameSetEcuInstance n v) s
      (fun p => p.name = (n.extractLsb 63 35 ++ v.extractLsb 2 0 ++ n.extractLsb 31 0 : BitVec 64)) ∧
    computes (.nameSetFunctionInstance n v) s
      (fun p => p.name = (n.extractLsb 63 40 ++ v.extractLsb 4 0 ++ n.extractLsb 34 0 : BitVec 64)) ∧
    computes (.nameSetFunction n v) s
      (fun p => p.name = (n.extractLsb 63 48 ++ v.extractLsb 7 0 ++ n.extractLsb 39 0 : BitVec 64)) ∧
    computes (.nameSetDeviceClass n v) s
      (fun p => p.name = (n.extractLsb 63 56 ++ v.extractLsb 6 0 ++ n.extractLsb 48 0 : BitVec 64)) ∧
    computes (.nameSetDeviceClassInstance n v) s
      (fun p => p.name = (n.extractLsb 63 60 ++ v.extractLsb 3 0 ++ n.extractLsb 55 0 : BitVec 64)) ∧
    computes (.nameSetIndustryGroup n v) s
      (fun p => p.name = (n.extractLsb 63 63 ++ v.extractLsb 2 0 ++ n.extractLsb 59 0 : BitVec 64)) ∧
    computes (.nameSetAac n v) s (fun p => p.name = (v.extractLsb 0 0 ++ n.extractLsb 62 0 : BitVec 64))

/-- NAME_ENCODE (R171): each field truncated to its width and put at its bits, the reserved operand at bit 48. -/
def Obligations.NameEncodePacksTheFields : Prop :=
  ∀ (f : NameFields) (s : State), computes (.nameEncode f) s fun p =>
    p.name.toNat = f.identity.toNat % 2 ^ 21 + f.manufacturer.toNat % 2 ^ 11 * 2 ^ 21 +
      f.ecuInstance.toNat % 2 ^ 3 * 2 ^ 32 + f.functionInstance.toNat % 2 ^ 5 * 2 ^ 35 +
      f.function.toNat % 2 ^ 8 * 2 ^ 40 + f.reserved.toNat * 2 ^ 48 + f.deviceClass.toNat % 2 ^ 7 * 2 ^ 49 +
      f.deviceClassInstance.toNat % 2 ^ 4 * 2 ^ 56 + f.industryGroup.toNat % 2 ^ 3 * 2 ^ 60 + f.aac.toNat % 2 * 2 ^ 63

/-- NAME_DECODE (R172): the nine fields and the reserved bit. -/
def Obligations.NameDecodeUnpacksTheFields : Prop :=
  ∀ (n : NameWord) (s : State), computes (.nameDecode n) s fun p =>
    p.fields.identity.toNat = bitField n.toNat 0 21 ∧ p.fields.manufacturer.toNat = bitField n.toNat 21 11 ∧
    p.fields.ecuInstance.toNat = bitField n.toNat 32 3 ∧ p.fields.functionInstance.toNat = bitField n.toNat 35 5 ∧
    p.fields.function.toNat = bitField n.toNat 40 8 ∧ p.fields.reserved.toNat = bitField n.toNat 48 1 ∧
    p.fields.deviceClass.toNat = bitField n.toNat 49 7 ∧ p.fields.deviceClassInstance.toNat = bitField n.toNat 56 4 ∧
    p.fields.industryGroup.toNat = bitField n.toNat 60 3 ∧ p.fields.aac.toNat = bitField n.toNat 63 1

/-- NAME_CMP (R173): unsigned over all 64 bits. -/
def Obligations.NameCmpOrdersUnsigned : Prop :=
  ∀ (a b : NameWord) (s : State), computes (.nameCmp a b) s fun p =>
    (a.toNat < b.toNat → p.order = 0) ∧ (a.toNat = b.toNat → p.order = 1) ∧ (b.toNat < a.toNat → p.order = 2)

/-- NAME_MATCH (R174): every filter's whole value equals its field; too many filters or a reserved selector is ILLEGAL. -/
def Obligations.NameMatchTestsEveryFilter : Prop :=
  ∀ (n : NameWord) (count : Byte) (fs : List Filter) (s : State), fs.length = count.toNat →
    (count.toNat ≤ s.cfg.maxFilters → (∀ f ∈ fs, f.field.toNat ≤ 8) →
      computes (.nameMatch n count fs) s fun p =>
        (p.matched = true ↔ ∀ f ∈ fs, ∃ l ∈ nameLayout[f.field.toNat]?, f.value.toNat = bitField n.toNat l.1 l.2)) ∧
    ((s.cfg.maxFilters < count.toNat ∨ ∃ f ∈ fs, 9 ≤ f.field.toNat) → turnedAway (.nameMatch n count fs) s .illegal)

/-- The round-trip law of NAMEs (R175). -/
def Obligations.NamesRoundTrip : Prop :=
  ∀ (n : NameWord) (s u : State), computes (.nameDecode n) s fun p => computes (.nameEncode p.fields) u fun q => q.name = n

/-- The independence law of NAME fields (R176): a setter changes no other field and not the reserved bit; its own field reads back truncated. -/
def Obligations.NameSettersLeaveOtherFields : Prop :=
  ∀ (n : NameWord) (v : Word) (s u : State) (f g : Nat) (lf lg : Nat × Nat),
    nameLayout[f]? = some lf → nameLayout[g]? = some lg →
    ∃ set ∈ nameSetters[f]?, ∃ get ∈ nameGetters[g]?,
      computes (set n v) s fun p =>
        p.name.getLsbD 48 = n.getLsbD 48 ∧
        computes (get p.name) u fun q =>
          (g ≠ f → q.value.toNat = bitField n.toNat lg.1 lg.2) ∧ (g = f → q.value.toNat = v.toNat % 2 ^ lf.2)

/-- The codec commands answer in every state, change nothing but the result ports, and give a result that depends on their operands and the configuration alone (R68, R130, R150); the unspecified ports, being free values, depend on the count of draws (log 5). -/
def Obligations.CodecCommandsChangeNoState : Prop :=
  ∀ (i : Instr) (s u : State), isCodec i = true → u.cfg = s.cfg → u.draws = s.draws →
    ∃ t v, exec i s = .next t ∧ exec i u = .next v ∧ v.out = t.out ∧ s.changed t ⟨s.slots, 0, 0, [], []⟩

/-! ### STATUS and RESET -/

/-- STATUS (R316): both counters and the number of valid slots, as far as the 8-bit `active` port can hold it; no state changes. -/
def Obligations.StatusReadsTheCounters : Prop :=
  ∀ s : State, computes .status s fun p =>
    p.dropCount = s.dropCount ∧ p.nextMsgId = s.nextMsgId ∧
      ((s.slots.filter Option.isSome).length < 2 ^ 8 → p.active.toNat = (s.slots.filter Option.isSome).length)

/-- RESET (R315): the state of R380, no frame sent, no event produced. -/
def Obligations.ResetFreesEverySlotSilently : Prop :=
  ∀ s : State, ∃ t, exec .reset s = .next t ∧ t.out.status = .ok ∧
    t.slots = List.replicate s.cfg.maxSessions none ∧ t.dropCount = 0 ∧ t.nextMsgId = 0 ∧ t.cfg = s.cfg ∧
    t.offered = s.offered ∧ t.events = s.events ∧ t.inbox = s.inbox ∧ t.registry = s.registry ∧
    t.driverIn = s.driverIn

/-- The reset state (R380) of any configuration: every slot free, both counters 0, no BAM Tx active on any channel. -/
def Obligations.TheResetStateIsEmpty : Prop :=
  ∀ c : Config, (State.resetWith c).cfg = c ∧ (State.resetWith c).slots.length = c.maxSessions ∧
    (∀ i, (State.resetWith c).slot i = none) ∧ (State.resetWith c).dropCount = 0 ∧ (State.resetWith c).nextMsgId = 0 ∧
    ∀ ch, (State.resetWith c).bamTxActive ch = false

/-! ### TX_SEND -/

/-- A message of at most eight bytes is one frame offered, its answer the result, and no state is kept (R303). The frame's timestamp is a free value (log 24). -/
def Obligations.ShortMessagesAreOneFrame : Prop :=
  ∀ (s : State) (q : SendRequest), q.payload.length = q.len.toNat → q.channel.toNat < s.cfg.numChannels →
    s.isInternal q.channel q.src = true → (q.dst = 0xFF ∨ s.reachable q.channel q.dst = true) → q.len.toNat ≤ 8 →
    completes (.txSend q) s
      { slots  := s.slots
        offers := [⟨⟨q.channel, idEncode (q.prio.getD s.cfg.defaultPriority) (q.pgn.setWidth 18) q.dst q.src,
                     q.payload, BitVec.ofNat 4 q.len.toNat, true, Config.freeStamp s.draws⟩, s.driverAccepts⟩] }
      fun p => p.accepted = s.driverAccepts

/-- A message of 9 to 117,440,505 bytes to a reachable destination opens a TP or ETP session in the lowest free slot, its payload copied, and offers the RTS; the result is 1 even if the driver refuses it (R215, R227, R304, R306). -/
def Obligations.LongMessagesOpenAPeerSession : Prop :=
  ∀ (s : State) (q : SendRequest) (i : Nat), q.payload.length = q.len.toNat → q.channel.toNat < s.cfg.numChannels →
    s.isInternal q.channel q.src = true → q.dst ≠ 0xFF → s.reachable q.channel q.dst = true →
    9 ≤ q.len.toNat → q.len.toNat ≤ 117440505 → s.keyFree q.channel q.src q.dst .tx → s.lowestFree i →
    s.canAllocate q.len.toNat = true →
    ∃ buf : Memory, buf.wf = true ∧ (∀ j, buf.byte j = q.payload[j]?) ∧
      completes (.txSend q) s
        { slots := s.slots.set i (some
            { channel := q.channel, mode := if q.len.toNat ≤ 1785 then .tp else .etp, dir := .tx, src := q.src, dst := q.dst,
              pgn := q.pgn.setWidth 18, totalLen := q.len, totalPkts := BitVec.ofNat 24 ((q.len.toNat + 6) / 7), nextPkt := 1,
              burstLeft := 0, rtsMax := 0xFF, dpoOffset := 0, dpoSeen := false, hold := false,
              state := if s.driverAccepts then .requestedToSend else .idle,
              pending := if s.driverAccepts then none else some .rts,
              lastActivity := q.now, abortReason := 0, buf := buf, bufDraw := s.draws })
          offers := [s.frame 0 q.channel (if q.len.toNat ≤ 1785 then 0xEC00 else 0xC800) q.dst q.src
            ((if q.len.toNat ≤ 1785 then [0x10] ++ littleEndian 2 q.len.toNat ++ [BitVec.ofNat 8 ((q.len.toNat + 6) / 7), 0xFF]
              else [0x14] ++ littleEndian 4 q.len.toNat) ++ littleEndian 3 (q.pgn.toNat % 2 ^ 18))] }
        fun p => p.accepted = true

/-- A message of 9 to 1785 bytes with no destination opens the channel's one BAM session and offers the announce (R237, R305). -/
def Obligations.BroadcastsOpenABamSession : Prop :=
  ∀ (s : State) (q : SendRequest) (i : Nat), q.payload.length = q.len.toNat → q.channel.toNat < s.cfg.numChannels →
    s.isInternal q.channel q.src = true → q.dst = 0xFF → 9 ≤ q.len.toNat → q.len.toNat ≤ 1785 →
    (∀ j x, s.slot j = some x → x.channel = q.channel → x.mode = .bam → x.dir = .tx → False) → s.lowestFree i →
    s.canAllocate q.len.toNat = true →
    ∃ buf : Memory, buf.wf = true ∧ (∀ j, buf.byte j = q.payload[j]?) ∧
      completes (.txSend q) s
        { slots := s.slots.set i (some
            { channel := q.channel, mode := .bam, dir := .tx, src := q.src, dst := 0xFF,
              pgn := q.pgn.setWidth 18, totalLen := q.len, totalPkts := BitVec.ofNat 24 ((q.len.toNat + 6) / 7), nextPkt := 1,
              burstLeft := 0, rtsMax := 0xFF, dpoOffset := 0, dpoSeen := false, hold := false,
              state := if s.driverAccepts then .announced else .idle,
              pending := if s.driverAccepts then none else some .announce,
              lastActivity := q.now, abortReason := 0, buf := buf, bufDraw := s.draws })
          offers := [s.frame 0 q.channel 0xEC00 0xFF q.src
            ([0x20] ++ littleEndian 2 q.len.toNat ++ [BitVec.ofNat 8 ((q.len.toNat + 6) / 7), 0xFF] ++
              littleEndian 3 (q.pgn.toNat % 2 ^ 18))] }
        fun p => p.accepted = true

/-- TX_SEND returns `accepted = 0` for one of six causes and no other (R354). Then nothing has changed but the result ports, and no frame has been offered but the single frame that the driver refused. -/
def Obligations.SendsAreRejectedForSixCauses : Prop :=
  ∀ (s : State) (q : SendRequest), q.payload.length = q.len.toNat → q.channel.toNat < s.cfg.numChannels →
    let single := q.len.toNat ≤ 8 ∧ s.isInternal q.channel q.src = true ∧ (q.dst = 0xFF ∨ s.reachable q.channel q.dst = true)
    ∃ t, exec (.txSend q) s = .next t ∧ t.out.status = .ok ∧
      (t.out.accepted = false ↔
        (s.isInternal q.channel q.src = false ∨ q.dst ≠ 0xFF ∧ s.reachable q.channel q.dst = false) ∨
        (117440505 < q.len.toNat ∨ q.dst = 0xFF ∧ 1785 < q.len.toNat) ∨
        (8 < q.len.toNat ∧ q.dst ≠ 0xFF ∧ (¬s.keyFree q.channel q.src q.dst .tx ∨ s.full)) ∨
        (8 < q.len.toNat ∧ q.dst = 0xFF ∧ (s.bamTxActive q.channel = true ∨ s.full)) ∨
        (8 < q.len.toNat ∧ s.canAllocate q.len.toNat = false) ∨
        (q.len.toNat ≤ 8 ∧ s.driverAccepts = false)) ∧
      (t.out.accepted = false →
        ∃ offers, s.changed t { slots := s.slots, offers := offers } ∧ (¬single → offers = []))

/-! ### RX_FRAME: routing -/

/-- Frames the block does not interpret pass through unchanged, and an extended frame with a bit above 28 is dropped and counted (R309, R310, R311). -/
def Obligations.OtherFramesPassThrough : Prop :=
  ∀ (s : State) (f : Frame), f.channel.toNat < s.cfg.numChannels → f.length.toNat ≤ 8 → f.length.toNat = f.data.length →
    (f.extended = false → completes (.rxFrame f) s { slots := s.slots, events := [.passthrough f] } fun _ => True) ∧
    (f.extended = true → 2 ^ 29 ≤ f.identifier.toNat → completes (.rxFrame f) s { slots := s.slots, drops := 1 } fun _ => True) ∧
    (f.extended = true → f.identifier.toNat < 2 ^ 29 →
      (idDecode f.identifier).pgn ∉ [0xEC00, 0xEB00, 0xC800, 0xC700] →
      completes (.rxFrame f) s { slots := s.slots, events := [.passthrough f] } fun _ => True)

/-- A transport frame of fewer than eight bytes is dropped (R212). One for another node is ignored and not counted; a global one that is neither a BAM announce nor a TP.DT is dropped, and so is a BAM announce to one address (R213). -/
def Obligations.TransportFramesAreFiltered : Prop :=
  (∀ (s : State) (f : Frame), f.channel.toNat < s.cfg.numChannels → f.length.toNat < 8 → f.length.toNat = f.data.length →
    f.extended = true → f.identifier.toNat < 2 ^ 29 → (idDecode f.identifier).pgn ∈ [0xEC00, 0xEB00, 0xC800, 0xC700] →
    completes (.rxFrame f) s { slots := s.slots, drops := 1 } fun _ => True) ∧
  ∀ (s : State) (f : Frame) (g : Pgn) (da sa : Addr), Received s f g da sa → g ∈ [0xEC00, 0xEB00, 0xC800, 0xC700] →
    (da ≠ 0xFF → s.isInternal f.channel da = false → computes (.rxFrame f) s fun _ => True) ∧
    (da = 0xFF → ¬(g = 0xEC00 ∧ f.byte 0 = 0x20) → g ≠ 0xEB00 →
      completes (.rxFrame f) s { slots := s.slots, drops := 1 } fun _ => True) ∧
    (da ≠ 0xFF → s.isInternal f.channel da = true → g = 0xEC00 → f.byte 0 = 0x20 →
      completes (.rxFrame f) s { slots := s.slots, drops := 1 } fun _ => True)

/-- A connection-management frame to us whose control byte names no frame is dropped (R91, R211). -/
def Obligations.UnknownControlBytesAreDropped : Prop :=
  ∀ (s : State) (f : Frame) (da sa : Addr), s.isInternal f.channel da = true →
    (Received s f 0xEC00 da sa → f.byte 0 ∉ [0x10, 0x11, 0x13, 0x20, 0xFF] →
      completes (.rxFrame f) s { slots := s.slots, drops := 1 } fun _ => True) ∧
    (Received s f 0xC800 da sa → f.byte 0 ∉ [0x14, 0x15, 0x16, 0x17, 0xFF] →
      completes (.rxFrame f) s { slots := s.slots, drops := 1 } fun _ => True)

/-! ### RX_FRAME: the sender's side -/

/-- A CTS in a state that waits for one: none granted is a hold, a grant is cut to the packets left, a bad packet number ends the session (R218, R219, R220). -/
def Obligations.AnExpectedCtsGrantsOrHolds : Prop :=
  ∀ (s : State) (f : Frame) (i : Nat) (x : Session) (da sa : Addr), s.keysUnique → x.mode ≠ .bam →
    Received s f x.mode.cm da sa → s.isInternal f.channel da = true → s.holds i x f.channel da sa .tx →
    x.pgn.toNat = pgnNumber f → f.byte 0 = (if x.mode = .etp then 0x15 else 0x11) →
    x.state ∈ [.requestedToSend, .clearToSendReceived, .waitingForEndAck] →
    let n := (f.byte 1).toNat
    let nx := if x.mode = .etp then leNumber [f.byte 2, f.byte 3, f.byte 4] else (f.byte 2).toNat
    (n = 0 → completes (.rxFrame f) s
      { slots := s.slots.set i (some { x with hold := true, state := .requestedToSend, lastActivity := f.timestamp }) }
      fun _ => True) ∧
    (0 < n → 1 ≤ nx → nx ≤ x.totalPkts.toNat → completes (.rxFrame f) s
      { slots := s.slots.set i (some { x with
          nextPkt := BitVec.ofNat 32 nx, burstLeft := BitVec.ofNat 8 (min n (x.totalPkts.toNat - nx + 1)), hold := false,
          state := .clearToSendReceived, lastActivity := f.timestamp }) }
      fun _ => True) ∧
    (0 < n → (nx = 0 ∨ x.totalPkts.toNat < nx) →
      completes (.rxFrame f) s (s.ending i x s.cfg.codes.anyOther true) fun _ => True)

/-- A CTS during a burst ends the session, a CTS before the RTS has gone out is dropped (R221, R222), and a CTS or an EOMA that finds no session, one of another mode or one with another PGN is dropped (R223). -/
def Obligations.AnUnexpectedCtsIsDroppedOrEndsTheSession : Prop :=
  (∀ (s : State) (f : Frame) (i : Nat) (x : Session) (da sa : Addr), s.keysUnique → x.mode ≠ .bam →
    Received s f x.mode.cm da sa → s.isInternal f.channel da = true → s.holds i x f.channel da sa .tx →
    x.pgn.toNat = pgnNumber f → f.byte 0 = (if x.mode = .etp then 0x15 else 0x11) →
    (x.state = .sending → completes (.rxFrame f) s (s.ending i x s.cfg.codes.ctsWhileSending true) fun _ => True) ∧
    (x.state = .idle → completes (.rxFrame f) s { slots := s.slots, drops := 1 } fun _ => True)) ∧
  ∀ (s : State) (f : Frame) (m : Mode) (da sa : Addr), s.keysUnique → m ≠ .bam → Received s f m.cm da sa →
    s.isInternal f.channel da = true → f.byte 0 ∈ (if m = .etp then [0x15, 0x17] else [0x11, 0x13] : List Byte) →
    (s.keyFree f.channel da sa .tx ∨
      ∃ i x, s.holds i x f.channel da sa .tx ∧ (x.mode ≠ m ∨ x.pgn.toNat ≠ pgnNumber f)) →
    completes (.rxFrame f) s { slots := s.slots, drops := 1 } fun _ => True

/-- An EOMA completes the session that waits for it, whatever its length and packet count say, and is dropped in every other state (R225, R203). -/
def Obligations.AnEomaCompletesTheSender : Prop :=
  ∀ (s : State) (f : Frame) (i : Nat) (x : Session) (da sa : Addr), s.keysUnique → x.mode ≠ .bam →
    Received s f x.mode.cm da sa → s.isInternal f.channel da = true → s.holds i x f.channel da sa .tx →
    x.pgn.toNat = pgnNumber f → f.byte 0 = (if x.mode = .etp then 0x17 else 0x13) →
    (x.state = .waitingForEndAck → completes (.rxFrame f) s
      { slots := s.slots.set i none, events := [.txCompleted x.channel x.mode x.pgn x.src x.dst] } fun _ => True) ∧
    (x.state ≠ .waitingForEndAck → completes (.rxFrame f) s { slots := s.slots, drops := 1 } fun _ => True)

/-! ### RX_FRAME: the receiver's side -/

/-- The checks on a received RTS run in their order and the first failure rejects it by an abort frame, with no session and no event (R228). -/
def Obligations.AnRtsIsRejectedByItsFirstFailedCheck : Prop :=
  ∀ (s : State) (f : Frame) (m : Mode) (da sa : Addr), m ≠ .bam → Received s f m.cm da sa →
    s.isInternal f.channel da = true → f.byte 0 = (if m = .etp then 0x14 else 0x10) →
    let len := if m = .etp then leNumber [f.byte 1, f.byte 2, f.byte 3, f.byte 4] else leNumber [f.byte 1, f.byte 2]
    let most := if m = .etp then 117440505 else 1785
    let rejects := fun (code : Byte) => completes (.rxFrame f) s
      { slots := s.slots, offers := [s.abortFrame f.channel m sa da code (pgnNumber f)] } fun _ => True
    (¬s.keyFree f.channel sa da .rx → rejects s.cfg.codes.alreadyInSession) ∧
    (s.keyFree f.channel sa da .rx →
      (len = 0 → rejects s.cfg.codes.anyOther) ∧
      (most < len → rejects (if m = .etp then s.cfg.codes.etpTooBig else s.cfg.codes.tooBig)) ∧
      (1 ≤ len → len ≤ most →
        (m = .tp → (f.byte 3).toNat ≠ (len + 6) / 7 → rejects s.cfg.codes.anyOther) ∧
        ((m = .tp → (f.byte 3).toNat = (len + 6) / 7) →
          s.full ∨ s.canAllocate len = false → rejects s.cfg.codes.alreadyInSession)))

/-- An RTS that passes every check opens a receiver in the lowest free slot and offers its first CTS (R229, R230). -/
def Obligations.AnAcceptedRtsOpensAReceiver : Prop :=
  ∀ (s : State) (f : Frame) (m : Mode) (da sa : Addr) (i : Nat), m ≠ .bam → Received s f m.cm da sa →
    s.isInternal f.channel da = true → f.byte 0 = (if m = .etp then 0x14 else 0x10) → s.keyFree f.channel sa da .rx →
    let len := if m = .etp then leNumber [f.byte 1, f.byte 2, f.byte 3, f.byte 4] else leNumber [f.byte 1, f.byte 2]
    1 ≤ len → len ≤ (if m = .etp then 117440505 else 1785) → (m = .tp → (f.byte 3).toNat = (len + 6) / 7) →
    s.lowestFree i → s.canAllocate len = true →
    let x : Session :=
      { channel := f.channel, mode := m, dir := .rx, src := sa, dst := da, pgn := BitVec.ofNat 18 (pgnNumber f),
        totalLen := BitVec.ofNat 32 len, totalPkts := BitVec.ofNat 24 ((len + 6) / 7), nextPkt := 1, burstLeft := 0,
        rtsMax := if m = .tp ∧ f.byte 4 ≠ 0 then f.byte 4 else 0xFF, dpoOffset := 0, dpoSeen := false, hold := false,
        state := .requestReceived, pending := none, lastActivity := f.timestamp, abortReason := 0, buf := [], bufDraw := s.draws }
    completes (.rxFrame f) s
      { slots := s.slots.set i (some (s.afterCts x f.timestamp)), offers := [s.owed x .cts] }
      fun _ => True

/-- A data frame that finds no session, or one of another mode, is dropped (R231); one with no grant outstanding ends the session, before its sequence number is looked at (R233). -/
def Obligations.DataNeedsASessionAndAGrant : Prop :=
  ∀ (s : State) (f : Frame) (m : Mode) (da sa : Addr), s.keysUnique → m ≠ .bam → Received s f m.dt da sa →
    s.isInternal f.channel da = true →
    (s.keyFree f.channel sa da .rx → completes (.rxFrame f) s { slots := s.slots, drops := 1 } fun _ => True) ∧
    ∀ i x, s.holds i x f.channel sa da .rx →
      (x.mode ≠ m → completes (.rxFrame f) s { slots := s.slots, drops := 1 } fun _ => True) ∧
      (x.mode = m → ¬x.granted → completes (.rxFrame f) s (s.ending i x s.cfg.codes.unexpectedDT true) fun _ => True)

/-- A data frame whose sequence number is not the expected one ends the session, as a duplicate or as a bad sequence (R232). -/
def Obligations.DataOutOfOrderEndsTheSession : Prop :=
  ∀ (s : State) (f : Frame) (i : Nat) (x : Session) (da sa : Addr), s.keysUnique → x.mode ≠ .bam →
    Received s f x.mode.dt da sa → s.isInternal f.channel da = true → s.holds i x f.channel sa da .rx → x.granted →
    let seq := (f.byte 0).toNat
    (1 ≤ seq → seq < x.expected →
      completes (.rxFrame f) s (s.ending i x s.cfg.codes.duplicateSequence true) fun _ => True) ∧
    (seq = 0 ∨ x.expected < seq → seq ≠ x.expected →
      completes (.rxFrame f) s (s.ending i x s.cfg.codes.badSequence true) fun _ => True)

/-- A data frame in order is stored at its packet's offset and nowhere else (R231). The last of a grant asks for the next packets (R234). -/
def Obligations.DataInOrderIsStored : Prop :=
  ∀ (s : State) (f : Frame) (i : Nat) (x : Session) (da sa : Addr), s.wf → x.mode ≠ .bam →
    Received s f x.mode.dt da sa → s.isInternal f.channel da = true → s.holds i x f.channel sa da .rx → x.granted →
    (f.byte 0).toNat = x.expected → x.nextPkt.toNat < x.totalPkts.toNat →
    ∃ buf : Memory, x.stores f buf ∧
      let y := { x with buf := buf, nextPkt := x.nextPkt + 1, burstLeft := x.burstLeft - 1, state := .receiving,
                        lastActivity := f.timestamp }
      (1 < x.burstLeft.toNat → completes (.rxFrame f) s { slots := s.slots.set i (some y) } fun _ => True) ∧
      (x.burstLeft.toNat = 1 → completes (.rxFrame f) s
        { slots := s.slots.set i (some (s.afterCts y f.timestamp)), offers := [s.owed y .cts] } fun _ => True)

/-- The last packet of a message is acknowledged, and the message is delivered with the acknowledgement: at once where the driver accepts it, else the EOMA stays owed (R235, R203). -/
def Obligations.TheLastPacketIsAcknowledged : Prop :=
  ∀ (s : State) (f : Frame) (i : Nat) (x : Session) (da sa : Addr), s.wf → x.mode ≠ .bam →
    Received s f x.mode.dt da sa → s.isInternal f.channel da = true → s.holds i x f.channel sa da .rx → x.granted →
    (f.byte 0).toNat = x.expected → x.nextPkt.toNat = x.totalPkts.toNat →
    ∃ (buf : Memory) (payload : List Byte), x.stores f buf ∧ buf.message x.totalLen.toNat payload ∧
      (s.answer 0 = true → completes (.rxFrame f) s
        { slots := s.slots.set i none, messages := 1, offers := [s.owed x .eoma]
          events := [.delivered x.channel x.pgn x.src x.dst x.totalLen payload s.nextMsgId] } fun _ => True) ∧
      (s.answer 0 = false → completes (.rxFrame f) s
        { slots := s.slots.set i (some { x with
            buf := buf, nextPkt := x.nextPkt + 1, burstLeft := x.burstLeft - 1, state := .receiving,
            lastActivity := f.timestamp, pending := some .eoma })
          offers := [s.owed x .eoma] } fun _ => True)

/-- A received DPO is dropped, ends the session, or opens the burst it announces, by the checks of R236 in their order. -/
def Obligations.ADpoOpensTheBurstItAnnounces : Prop :=
  ∀ (s : State) (f : Frame) (da sa : Addr), s.keysUnique → Received s f 0xC800 da sa →
    s.isInternal f.channel da = true → f.byte 0 = 0x16 →
    (s.keyFree f.channel sa da .rx → completes (.rxFrame f) s { slots := s.slots, drops := 1 } fun _ => True) ∧
    ∀ i x, s.holds i x f.channel sa da .rx →
      let dn := (f.byte 1).toNat
      let doff := leNumber [f.byte 2, f.byte 3, f.byte 4]
      (x.mode ≠ .etp ∨ x.pgn.toNat ≠ pgnNumber f →
        completes (.rxFrame f) s { slots := s.slots, drops := 1 } fun _ => True) ∧
      (x.mode = .etp → x.pgn.toNat = pgnNumber f →
        (x.state ≠ .clearToSendSent ∨ x.dpoSeen = true ∨ x.pending ≠ none →
          completes (.rxFrame f) s (s.ending i x s.cfg.codes.unexpectedDPO true) fun _ => True) ∧
        (x.state = .clearToSendSent → x.dpoSeen = false → x.pending = none →
          (dn = 0 ∨ x.burstLeft.toNat < dn →
            completes (.rxFrame f) s (s.ending i x s.cfg.codes.dpoCountTooBig true) fun _ => True) ∧
          (1 ≤ dn → dn ≤ x.burstLeft.toNat →
            (BitVec.ofNat 32 doff ≠ x.nextPkt - 1 →
              completes (.rxFrame f) s (s.ending i x s.cfg.codes.badDpoOffset true) fun _ => True) ∧
            (BitVec.ofNat 32 doff = x.nextPkt - 1 → completes (.rxFrame f) s
              { slots := s.slots.set i (some { x with
                  dpoOffset := BitVec.ofNat 24 doff, burstLeft := f.byte 1, dpoSeen := true, lastActivity := f.timestamp }) }
              fun _ => True))))

/-- A received Connection Abort ends the sender and the receiver it names by mode and PGN, each with the received code, and sends nothing; naming none, it is dropped (R214). -/
def Obligations.AReceivedAbortEndsItsSessions : Prop :=
  ∀ (s : State) (f : Frame) (m : Mode) (da sa : Addr), s.keysUnique → m ≠ .bam → Received s f m.cm da sa →
    s.isInternal f.channel da = true → f.byte 0 = 0xFF →
    let names := fun (i : Nat) (x : Session) (src dst : Addr) (dir : Dir) =>
      s.holds i x f.channel src dst dir ∧ x.mode = m ∧ x.pgn.toNat = pgnNumber f
    let ended := fun (x : Session) => Event.aborted x.channel x.mode x.dir x.pgn x.src x.dst (f.byte 1)
    ((¬∃ i x, names i x da sa .tx) → (¬∃ j y, names j y sa da .rx) →
      completes (.rxFrame f) s { slots := s.slots, drops := 1 } fun _ => True) ∧
    (∀ i x, names i x da sa .tx → (¬∃ j y, names j y sa da .rx) →
      completes (.rxFrame f) s { slots := s.slots.set i none, events := [ended x] } fun _ => True) ∧
    (∀ j y, names j y sa da .rx → (¬∃ i x, names i x da sa .tx) →
      completes (.rxFrame f) s { slots := s.slots.set j none, events := [ended y] } fun _ => True) ∧
    (∀ i x j y, names i x da sa .tx → names j y sa da .rx →
      completes (.rxFrame f) s { slots := (s.slots.set i none).set j none, events := [ended x, ended y] } fun _ => True)

/-! ### RX_FRAME: BAM -/

/-- A BAM announce is dropped if it is bad; else it ends the peer's old session and opens a new receiver where a slot and a buffer can be had (R239). -/
def Obligations.ABamAnnounceOpensAReceiver : Prop :=
  ∀ (s : State) (f : Frame) (sa : Addr), s.keysUnique → Received s f 0xEC00 0xFF sa → f.byte 0 = 0x20 →
    let len := leNumber [f.byte 1, f.byte 2]
    (len = 0 ∨ 1785 < len ∨ (f.byte 3).toNat ≠ (len + 6) / 7 →
      completes (.rxFrame f) s { slots := s.slots, drops := 1 } fun _ => True) ∧
    (1 ≤ len → len ≤ 1785 → (f.byte 3).toNat = (len + 6) / 7 →
      ∀ (slots : List (Option Session)) (events : List Event),
        ((s.keyFree f.channel sa 0xFF .rx ∧ slots = s.slots ∧ events = []) ∨
         ∃ o x, s.holds o x f.channel sa 0xFF .rx ∧ slots = s.slots.set o none ∧
           events = [.aborted x.channel x.mode x.dir x.pgn x.src x.dst s.cfg.codes.anyOther]) →
        let u : State := { s with slots := slots }
        (u.full ∨ u.canAllocate len = false →
          completes (.rxFrame f) s { slots := slots, drops := 1, events := events } fun _ => True) ∧
        (∀ i, u.lowestFree i → u.canAllocate len = true → completes (.rxFrame f) s
          { slots := slots.set i (some
              { channel := f.channel, mode := .bam, dir := .rx, src := sa, dst := 0xFF, pgn := BitVec.ofNat 18 (pgnNumber f),
                totalLen := BitVec.ofNat 32 len, totalPkts := BitVec.ofNat 24 (f.byte 3).toNat, nextPkt := 1, burstLeft := 0,
                rtsMax := 0xFF, dpoOffset := 0, dpoSeen := false, hold := false, state := .receiving, pending := none,
                lastActivity := f.timestamp, abortReason := 0, buf := [], bufDraw := s.draws })
            events := events } fun _ => True))

/-- A broadcast data frame is dropped without a session, stored and at the end delivered in order, and ends the session out of order; a BAM receiver never sends (R240). -/
def Obligations.BamDataIsStoredInOrder : Prop :=
  ∀ (s : State) (f : Frame) (sa : Addr), s.wf → Received s f 0xEB00 0xFF sa →
    (s.keyFree f.channel sa 0xFF .rx → completes (.rxFrame f) s { slots := s.slots, drops := 1 } fun _ => True) ∧
    ∀ i x, s.holds i x f.channel sa 0xFF .rx →
      let seq := (f.byte 0).toNat
      (seq = x.nextPkt.toNat → ∃ buf : Memory, x.stores f buf ∧
        (x.nextPkt.toNat < x.totalPkts.toNat → completes (.rxFrame f) s
          { slots := s.slots.set i (some { x with buf := buf, nextPkt := x.nextPkt + 1, lastActivity := f.timestamp }) }
          fun _ => True) ∧
        (x.nextPkt.toNat = x.totalPkts.toNat → ∃ payload, buf.message x.totalLen.toNat payload ∧ completes (.rxFrame f) s
          { slots := s.slots.set i none, messages := 1
            events := [.delivered x.channel x.pgn x.src 0xFF x.totalLen payload s.nextMsgId] } fun _ => True)) ∧
      (1 ≤ seq → seq < x.nextPkt.toNat →
        completes (.rxFrame f) s (s.ending i x s.cfg.codes.duplicateSequence false) fun _ => True) ∧
      (seq = 0 ∨ x.nextPkt.toNat < seq → seq ≠ x.nextPkt.toNat →
        completes (.rxFrame f) s (s.ending i x s.cfg.codes.badSequence false) fun _ => True)

/-! ### UPDATE -/

/-- UPDATE ends exactly the sessions whose wait has exceeded its limit (R207, R209, R210), and leaves one still within its limit as it is. -/
def Obligations.UpdateEndsTheTimedOutSessions : Prop :=
  ∀ (s : State) (now : Millis), s.wf → ∃ t, exec (.update now) s = .next t ∧ t.out.status = .ok ∧
    ∀ i x, s.slot i = some x →
      (∀ limit, x.waits s.cfg limit → (now - x.lastActivity).toNat ≤ limit.toNat → t.slot i = some x) ∧
      (∀ limit, x.waits s.cfg limit → limit.toNat < (now - x.lastActivity).toNat → t.slot i = none) ∧
      ((∃ code, Event.aborted x.channel x.mode x.dir x.pgn x.src x.dst code ∈ t.events.drop s.events.length) ↔
        ∃ limit, x.waits s.cfg limit ∧ limit.toNat < (now - x.lastActivity).toNat) ∧
      ∀ code, Event.aborted x.channel x.mode x.dir x.pgn x.src x.dst code ∈ t.events.drop s.events.length →
        code = s.cfg.codes.timeout

/-- Where one session is live and waits, UPDATE does nothing up to its limit (R207, R210); beyond it UPDATE ends the session, tells a TP or ETP peer, and does nothing else (R207, R241); with no valid slot it does nothing (R313). The turn of a slot beside others is `AGrantIsSentBackToBack`. -/
def Obligations.ATimeoutTellsThePeer : Prop :=
  (∀ (s : State) (now : Millis) (i : Nat) (x : Session) (limit : Millis), s.only i x → x.waits s.cfg limit →
    ((now - x.lastActivity).toNat ≤ limit.toNat → computes (.update now) s fun _ => True) ∧
    (limit.toNat < (now - x.lastActivity).toNat →
      completes (.update now) s (s.ending i x s.cfg.codes.timeout (x.mode != .bam)) fun _ => True)) ∧
  ∀ (s : State) (now : Millis), (∀ j, s.slot j = none) → computes (.update now) s fun _ => True

/-- Where one session is live, the control frame it owes is offered again by UPDATE, with the session's current fields, and has no timeout: refused again it stays owed; accepted, its transition follows (R206, R207). An announce accepted where `BAM_INTERVAL` is 0 is followed by the first packet in the same UPDATE (R207, R238). A sender that owes a DPO is `AnEtpGrantIsSentBehindADpo`; the turn of a slot beside others is `AGrantIsSentBackToBack`. -/
def Obligations.AnOwedFrameIsOfferedAgain : Prop :=
  ∀ (s : State) (now : Millis) (i : Nat) (x : Session) (k : Control), s.wf → s.only i x → x.pending = some k →
    (s.answer 0 = false → completes (.update now) s { slots := s.slots, offers := [s.owed x k] } fun _ => True) ∧
    (s.answer 0 = true →
      (k = .rts → completes (.update now) s
        { slots := s.slots.set i (some { x with pending := none, lastActivity := now, state := .requestedToSend, hold := false })
          offers := [s.owed x k] } fun _ => True) ∧
      (k = .announce →
        let y := { x with pending := none, lastActivity := now, state := .announced }
        (0 < s.cfg.bamInterval.toNat → completes (.update now) s
          { slots := s.slots.set i (some y), offers := [s.owed x k] } fun _ => True) ∧
        ∀ bytes, s.cfg.bamInterval.toNat = 0 → x.packet x.nextPkt.toNat bytes →
          let frames := [s.owed x k, s.frame 1 x.channel 0xEB00 0xFF x.src (packetData x.nextPkt.toNat bytes)]
          (s.answer 1 = false → completes (.update now) s { slots := s.slots.set i (some y), offers := frames } fun _ => True) ∧
          (s.answer 1 = true → x.nextPkt.toNat < x.totalPkts.toNat → completes (.update now) s
            { slots := s.slots.set i (some { y with nextPkt := x.nextPkt + 1, state := .sending }), offers := frames }
            fun _ => True) ∧
          (s.answer 1 = true → x.nextPkt.toNat = x.totalPkts.toNat → completes (.update now) s
            { slots := s.slots.set i none, offers := frames, events := [.txCompleted x.channel .bam x.pgn x.src 0xFF] }
            fun _ => True)) ∧
      (k = .cts → completes (.update now) s
        { slots := s.slots.set i (some (s.afterCts x now)), offers := [s.owed x k] } fun _ => True) ∧
      (k = .eoma → ∃ payload, x.buf.message x.totalLen.toNat payload ∧ completes (.update now) s
        { slots := s.slots.set i none, messages := 1, offers := [s.owed x k]
          events := [.delivered x.channel x.pgn x.src x.dst x.totalLen payload s.nextMsgId] } fun _ => True))

/-- UPDATE serves the slots in ascending order, each once, and each as if no other were valid, from where the slots below it left the driver's answers and the message ids: its frames and events stand behind theirs, and a slot whose frame is refused keeps no other from its turn (R208, R313). In its turn a sender's grant is sent back to back, until it is used up or the driver refuses the frame after the `m`-th (R216, R226); then the session waits for an EOMA or for the next CTS (R217). -/
def Obligations.AGrantIsSentBackToBack : Prop :=
  (∀ (s : State) (now : Millis), s.wf → ∃ part : Nat → Change,
    let offers := fun k => (List.range k).flatMap fun j => (part j).offers
    let messages := fun k => ((List.range k).map fun j => (part j).messages).sum
    (∀ i, i < s.slots.length →
      completes (.update now) (s.turn i (offers i).length (messages i)) (part i) fun _ => True) ∧
    completes (.update now) s
      { slots := (List.range s.slots.length).map fun i => (part i).slots.getD i none
        messages := messages s.slots.length, offers := offers s.slots.length
        events := (List.range s.slots.length).flatMap fun j => (part j).events } fun _ => True) ∧
  ∀ (s : State) (now : Millis) (i : Nat) (x : Session) (m : Nat) (packet : Nat → List Byte), s.wf → s.only i x →
    x.mode ≠ .bam → x.dir = .tx → x.pending = none →
    (x.state = .sending ∨ (x.mode = .tp ∧ x.state = .clearToSendReceived)) →
    m ≤ x.burstLeft.toNat → (∀ k, k < m → s.answer k = true) → (m < x.burstLeft.toNat → s.answer m = false) →
    (∀ k, k < x.burstLeft.toNat → x.packet (x.nextPkt.toNat + k) (packet k)) →
    let done := m = x.burstLeft.toNat
    let last := x.totalPkts.toNat < x.nextPkt.toNat + m
    completes (.update now) s
      { slots := s.slots.set i (some { x with
          nextPkt := BitVec.ofNat 32 (x.nextPkt.toNat + m), burstLeft := BitVec.ofNat 8 (x.burstLeft.toNat - m),
          lastActivity := if m = 0 then x.lastActivity else now,
          state := if done then (if last then .waitingForEndAck else .requestedToSend) else .sending,
          hold := if done ∧ ¬last then false else x.hold })
        offers := (List.range (min (m + 1) x.burstLeft.toNat)).map fun k =>
          s.frame k x.channel x.mode.dt x.dst x.src (packetData
            (x.nextPkt.toNat + k - if x.mode = .etp then x.dpoOffset.toNat else 0) (packet k)) } fun _ => True

/-- Where one session is live, an ETP grant is announced by a DPO and sent behind it, numbered from 1, in the same UPDATE; a refused DPO stays owed and nothing is sent (R224, R207, R216). The turn of a slot beside others is `AGrantIsSentBackToBack`. -/
def Obligations.AnEtpGrantIsSentBehindADpo : Prop :=
  ∀ (s : State) (now : Millis) (i : Nat) (x : Session) (m : Nat) (packet : Nat → List Byte), s.wf → s.only i x →
    x.mode = .etp → x.dir = .tx → (x.pending = some .dpo ∨ (x.pending = none ∧ x.state = .clearToSendReceived)) →
    (s.answer 0 = false → completes (.update now) s
      { slots := s.slots.set i (some { x with pending := some .dpo }), offers := [s.owed x .dpo] } fun _ => True) ∧
    (s.answer 0 = true → m ≤ x.burstLeft.toNat → (∀ k, k < m → s.answer (k + 1) = true) →
      (m < x.burstLeft.toNat → s.answer (m + 1) = false) →
      (∀ k, k < x.burstLeft.toNat → x.packet (x.nextPkt.toNat + k) (packet k)) →
      let done := m = x.burstLeft.toNat
      let last := x.totalPkts.toNat < x.nextPkt.toNat + m
      completes (.update now) s
        { slots := s.slots.set i (some { x with
            pending := none, dpoOffset := BitVec.ofNat 24 (x.nextPkt.toNat - 1),
            nextPkt := BitVec.ofNat 32 (x.nextPkt.toNat + m), burstLeft := BitVec.ofNat 8 (x.burstLeft.toNat - m),
            lastActivity := now,
            state := if done then (if last then .waitingForEndAck else .requestedToSend) else .sending,
            hold := if done ∧ ¬last then false else x.hold })
          offers := s.owed x .dpo :: (List.range (min (m + 1) x.burstLeft.toNat)).map fun k =>
            s.frame (k + 1) x.channel 0xC700 x.dst x.src (packetData (k + 1) (packet k)) } fun _ => True)

/-- Where one session is live, a BAM sender whose interval has passed sends its next packet, one in an UPDATE, and ends with the last; a refused packet changes nothing, and within the interval nothing is sent (R238). The turn of a slot beside others is `AGrantIsSentBackToBack`. -/
def Obligations.ABamPacketGoesOutWhenItsIntervalHasPassed : Prop :=
  ∀ (s : State) (now : Millis) (i : Nat) (x : Session) (bytes : List Byte), s.wf → s.only i x → x.mode = .bam → x.dir = .tx →
    x.pending = none → x.packet x.nextPkt.toNat bytes →
    let frame := s.frame 0 x.channel 0xEB00 0xFF x.src (packetData x.nextPkt.toNat bytes)
    let due := s.cfg.bamInterval.toNat ≤ (now - x.lastActivity).toNat
    (¬due → computes (.update now) s fun _ => True) ∧
    (due → s.answer 0 = false → completes (.update now) s { slots := s.slots, offers := [frame] } fun _ => True) ∧
    (due → s.answer 0 = true → x.nextPkt.toNat < x.totalPkts.toNat → completes (.update now) s
      { slots := s.slots.set i (some { x with nextPkt := x.nextPkt + 1, lastActivity := now, state := .sending })
        offers := [frame] } fun _ => True) ∧
    (due → s.answer 0 = true → x.nextPkt.toNat = x.totalPkts.toNat → completes (.update now) s
      { slots := s.slots.set i none, offers := [frame], events := [.txCompleted x.channel .bam x.pgn x.src 0xFF] }
      fun _ => True)

/-- BAM frames are never closer than the interval: within it, UPDATE offers no broadcast packet of the session's source and leaves the session as it is, whatever the other sessions do (R238, R385). -/
def Obligations.BamFramesKeepTheirInterval : Prop :=
  ∀ (s t : State) (now : Millis) (i : Nat) (x : Session), s.wf → s.slot i = some x → x.mode = .bam → x.dir = .tx →
    x.pending = none → (now - x.lastActivity).toNat < s.cfg.bamInterval.toNat → exec (.update now) s = .next t →
    t.slot i = some x ∧ ∀ o ∈ t.offered.drop s.offered.length,
      ¬(o.frame.channel = x.channel ∧ o.frame.identifier = idEncode s.cfg.tpPriority 0xEB00 0xFF x.src)

/-! ### SESSION_ABORT -/

/-- SESSION_ABORT ends the session of its key and tells a TP or ETP peer; of a key with no session it finds nothing and changes nothing, and so does a second one (R242, R314). -/
def Obligations.SessionAbortIsIdempotent : Prop :=
  ∀ (s : State) (now : Millis) (ch : Channel) (src dst : Addr) (dir : Dir), s.keysUnique → ch.toNat < s.cfg.numChannels →
    (∀ i x, s.holds i x ch src dst dir →
      completes (.sessionAbort now ch src dst dir) s (s.ending i x s.cfg.codes.appAbort (x.mode != .bam))
        fun p => p.found = true) ∧
    (s.keyFree ch src dst dir → computes (.sessionAbort now ch src dst dir) s fun p => p.found = false) ∧
    ∀ t (later : Millis), exec (.sessionAbort now ch src dst dir) s = .next t →
      computes (.sessionAbort later ch src dst dir) t fun p => p.found = false

/-! ### The machine as a whole -/

/-- The reset state of every configuration the spec allows is good, and so is the reset state of the default one. -/
def Obligations.TheResetStateIsGood : Prop :=
  (∀ c : Config, c.wf = true → (State.resetWith c).wf) ∧ State.reset.wf

/-- A step from a good state answers a good state: sessions keep to their states and ranges, buffers stay filled, keys stay unique (R22 to R25, R30, R60 to R64). -/
def Obligations.GoodStatesStayGood : Prop := ∀ s t : State, s.wf → step s = .next t → t.wf

/-- Nothing stops the block: from a good state every command answers a next state (R61, R350). -/
def Obligations.GoodStatesNeverStop : Prop := ∀ (s : State) (i : Instr), s.wf → i.wf = true → ∃ t, exec i s = .next t

/-- The invariant of the slot file: no key twice, no two BAM senders on one channel (R30). It needs of a state only that the global destination is BAM's alone, which every step keeps too. -/
def Obligations.KeysStayUnique : Prop :=
  ∀ s t : State, s.keysUnique → s.globalIsBam = true → step s = .next t → t.keysUnique ∧ t.globalIsBam = true

/-- No command writes the configuration (R8), and the events of a command are appended to the earlier ones (R353). That the frames offered are kept too, as a list that only grows, is the model's choice (log 19, DEDUCED). -/
def Obligations.ConfigurationAndHistoryAreNeverRewritten : Prop :=
  ∀ s t : State, step s = .next t →
    t.cfg = s.cfg ∧ (∃ offers, t.offered = s.offered ++ offers) ∧ ∃ events, t.events = s.events ++ events

/-- Every frame of the transport engine is extended, has eight data bytes and the identifier `IDENC(TP_PRIORITY, g, da, sa)` of a transport PGN `g` (R89, R90): so has every frame any command offers but the single frame of a TX_SEND. -/
def Obligations.EngineFramesHaveEightBytes : Prop :=
  ∀ (s t : State) (i : Instr), exec i s = .next t → (∀ q, i = .txSend q → 8 < q.len.toNat) →
    ∀ o ∈ t.offered.drop s.offered.length, o.frame.data.length = 8 ∧ o.frame.length = 8 ∧
      o.frame.extended = true ∧
      ∃ g ∈ ([0xEC00, 0xEB00, 0xC800, 0xC700] : List Pgn), ∃ da sa, o.frame.identifier = idEncode s.cfg.tpPriority g da sa

/-- Each delivered message takes the next message id, and nothing but RESET moves the register otherwise (R26). -/
def Obligations.MessageIdsCountDeliveries : Prop :=
  ∀ (s t : State) (i : Instr), i ≠ .reset → exec i s = .next t →
    ∃ n, deliveredIds (t.events.drop s.events.length) = (List.range n).map (fun k => s.nextMsgId + BitVec.ofNat 64 k) ∧
      t.nextMsgId = s.nextMsgId + BitVec.ofNat 64 n

/-- What a sender sends was fixed when its session opened: while the slot holds it, no step changes its parties, its PGN, its length or a byte of its payload (R64). -/
def Obligations.ASendersMessageNeverChanges : Prop :=
  ∀ (s t : State) (i : Nat) (x y : Session), step s = .next t → s.slot i = some x → x.dir = .tx → t.slot i = some y →
    y.channel = x.channel ∧ y.mode = x.mode ∧ y.dir = .tx ∧ y.src = x.src ∧ y.dst = x.dst ∧ y.pgn = x.pgn ∧
    y.totalLen = x.totalLen ∧ y.totalPkts = x.totalPkts ∧ y.buf = x.buf ∧ y.bufDraw = x.bufDraw

/-- A received frame touches no session but those of its own two parties on its own channel: every other one is as it was. -/
def Obligations.AFrameReachesOnlyItsPartiesSessions : Prop :=
  ∀ (s t : State) (f : Frame) (j : Nat) (x : Session), exec (.rxFrame f) s = .next t → s.slot j = some x →
    let da := (idDecode f.identifier).da
    let sa := (idDecode f.identifier).sa
    x.hasKey f.channel da sa .tx = false → x.hasKey f.channel sa da .rx = false → t.slot j = some x

/-- A TP message of 1 to 1785 bytes whose RTS and packets arrive in order, from a good state with room for it and with a driver that accepts, is delivered byte for byte, and its slot is free again (R245, of 1785 bytes there). -/
def Obligations.AMessageReceivedInOrderIsDeliveredWhole : Prop :=
  ∀ (s : State) (ch : Channel) (da sa : Addr) (prio : BitVec 3) (g : Pgn) (most : Byte) (payload : List Byte) (i : Nat)
    (times : Nat → Millis),
    s.wf → ch.toNat < s.cfg.numChannels → s.isInternal ch da = true → s.keyFree ch sa da .rx → s.lowestFree i →
    s.canAllocate payload.length = true → (∀ k, k ≤ payload.length → s.driverIn[k]? = some true) →
    1 ≤ payload.length → payload.length ≤ 1785 →
    let count := (payload.length + 6) / 7
    let rts : Frame := ⟨ch, idEncode prio 0xEC00 da sa, [0x10] ++ littleEndian 2 payload.length ++
      [BitVec.ofNat 8 count, most] ++ littleEndian 3 g.toNat, 8, true, times 0⟩
    let data : Nat → Frame := fun k => ⟨ch, idEncode prio 0xEB00 da sa,
      packetData (k + 1) ((payload.drop (7 * k)).take 7), 8, true, times (k + 1)⟩
    ∃ t, runAll (.rxFrame rts :: (List.range count).map fun k => .rxFrame (data k)) s = .next t ∧
      t.events = s.events ++ [.delivered ch g sa da (BitVec.ofNat 32 payload.length) payload s.nextMsgId] ∧
      t.slots = s.slots ∧ t.dropCount = s.dropCount
end

