-- ==== Sys2Proof/Laws/Memory.lean ====
section
/-! SUPPORT. The laws of a session's buffer: a read after a write, the canonical form kept by every write, and what `memRead` and `memWrite` answer. -/

namespace Sys2Proof.Machine

namespace Memory

/-! ### One byte -/

@[simp] theorem byte_nil (off : Nat) : Memory.byte [] off = none := rfl

theorem byte_cons (a : Nat) (v : Byte) (m : Memory) (off : Nat) :
    Memory.byte ((a, v) :: m) off = if a = off then some v else Memory.byte m off := rfl

@[simp] theorem byte_setByte_self (m : Memory) (off : Nat) (b : Byte) : (Memory.setByte m off b).byte off = some b := by
  induction m with
  | nil => simp [Memory.setByte, byte_cons]
  | cons c m ih =>
    obtain ⟨a, v⟩ := c
    simp only [Memory.setByte]
    split
    · simp [byte_cons]
    · split
      · simp [byte_cons]
      · rename_i h1 h2
        simp [byte_cons, Ne.symm h2, ih]

theorem byte_setByte_ne (m : Memory) {off a : Nat} (b : Byte) (h : a ≠ off) :
    (Memory.setByte m off b).byte a = m.byte a := by
  induction m with
  | nil => simp [Memory.setByte, byte_cons, Ne.symm h]
  | cons c m ih =>
    obtain ⟨e, v⟩ := c
    simp only [Memory.setByte]
    split
    · simp [byte_cons, Ne.symm h]
    · split
      · rename_i h1 h2
        simp [byte_cons, ← h2, Ne.symm h]
      · simp [byte_cons, ih]

/-! ### Runs of bytes -/

/-- A write leaves every offset outside its run. -/
theorem byte_setBytes_of_outside (bs : List Byte) : ∀ (m : Memory) (off : Nat) {a : Nat},
    a < off ∨ off + bs.length ≤ a → (Memory.setBytes m off bs).byte a = m.byte a := by
  induction bs with
  | nil => intro m off a _; rfl
  | cons b bs ih =>
    intro m off a h
    simp only [List.length_cons] at h
    rw [Memory.setBytes, ih _ _ (by omega), byte_setByte_ne _ _ (by omega)]

/-- A read inside a write's run gives the byte written. -/
theorem byte_setBytes_of_inside (bs : List Byte) : ∀ (m : Memory) (off : Nat) {j : Nat} (h : j < bs.length),
    (Memory.setBytes m off bs).byte (off + j) = some bs[j] := by
  induction bs with
  | nil => intro m off j h; simp at h
  | cons b bs ih =>
    intro m off j h
    cases j with
    | zero => rw [Memory.setBytes, byte_setBytes_of_outside _ _ _ (by omega)]; simp
    | succ j =>
      have := ih (m.setByte off b) (off + 1) (j := j) (by simpa using h)
      rw [Memory.setBytes, show off + (j + 1) = off + 1 + j by omega, this]
      simp

/-- Reading a run, byte by byte. -/
theorem bytes_eq_some {n : Nat} : ∀ {m : Memory} {off : Nat} {bs : List Byte},
    Memory.bytes m off n = some bs ↔ bs.length = n ∧ ∀ j (h : j < bs.length), m.byte (off + j) = some bs[j] := by
  induction n with
  | zero =>
    intro m off bs
    constructor
    · intro h; cases h; simp
    · rintro ⟨h, -⟩; rw [List.length_eq_zero_iff.mp h]; rfl
  | succ n ih =>
    intro m off bs
    constructor
    · intro h
      simp only [Memory.bytes] at h
      split at h
      · rename_i b bs' hb hbs
        cases h
        obtain ⟨hl, hj⟩ := ih.mp hbs
        refine ⟨by simp [hl], fun j h => ?_⟩
        cases j with
        | zero => simpa using hb
        | succ j => simpa [show off + (j + 1) = off + 1 + j by omega] using hj j (by simpa using h)
      · cases h
    · rintro ⟨hl, hj⟩
      cases bs with
      | nil => simp at hl
      | cons b bs =>
        have h0 : m.byte off = some b := hj 0 (by simp)
        have h1 : Memory.bytes m (off + 1) n = some bs := by
          refine ih.mpr ⟨by simpa using hl, fun j h => ?_⟩
          have := hj (j + 1) (by simpa using h)
          simpa [show off + (j + 1) = off + 1 + j by omega] using this
        simp [Memory.bytes, h0, h1]

/-- A run can be read exactly where each of its bytes was written. -/
theorem bytes_isSome {m : Memory} {off n : Nat} :
    (Memory.bytes m off n).isSome = true ↔ ∀ j, j < n → (m.byte (off + j)).isSome = true := by
  induction n generalizing off with
  | zero => simp [Memory.bytes]
  | succ n ih =>
    have key : (Memory.bytes m off (n + 1)).isSome = true ↔
        (m.byte off).isSome = true ∧ (Memory.bytes m (off + 1) n).isSome = true := by
      simp only [Memory.bytes]
      cases h : m.byte off <;> cases h' : Memory.bytes m (off + 1) n <;> simp
    rw [key, ih]
    constructor
    · rintro ⟨h0, h1⟩ j hj
      cases j with
      | zero => simpa using h0
      | succ j => rw [show off + (j + 1) = off + 1 + j by omega]; exact h1 j (by omega)
    · intro h
      refine ⟨by simpa using h 0 (by omega), fun j hj => ?_⟩
      rw [show off + 1 + j = off + (j + 1) by omega]
      exact h (j + 1) (by omega)

/-- Reading the run just written. -/
theorem bytes_setBytes (m : Memory) (off : Nat) (bs : List Byte) :
    (m.setBytes off bs).bytes off bs.length = some bs :=
  bytes_eq_some.mpr ⟨rfl, fun _ h => byte_setBytes_of_inside bs m off h⟩

/-! ### The canonical form -/

@[simp] theorem wf_nil : Memory.wf [] = true := rfl

theorem wf_cons {a : Nat} {v : Byte} {m : Memory} :
    Memory.wf ((a, v) :: m) = true ↔ (∀ c ∈ m.head?, a < c.1) ∧ m.wf = true := by
  cases m with
  | nil => simp [Memory.wf]
  | cons c m => obtain ⟨b, w⟩ := c; simp [Memory.wf]

theorem head_setByte {m : Memory} {off : Nat} {b : Byte} {a : Nat} (ho : a < off) (hm : ∀ c ∈ m.head?, a < c.1) :
    ∀ c ∈ (Memory.setByte m off b).head?, a < c.1 := by
  cases m with
  | nil => simpa [Memory.setByte] using ho
  | cons c m =>
    obtain ⟨e, v⟩ := c
    simp only [Memory.setByte]
    split
    · simpa using ho
    · split
      · simpa using ho
      · simpa using hm

/-- A byte written keeps the canonical form. -/
theorem setByte_wf {m : Memory} (h : m.wf = true) (off : Nat) (b : Byte) : (Memory.setByte m off b).wf = true := by
  induction m with
  | nil => simp [Memory.setByte, Memory.wf]
  | cons c m ih =>
    obtain ⟨a, v⟩ := c
    obtain ⟨h1, h2⟩ := wf_cons.mp h
    simp only [Memory.setByte]
    split
    · rename_i ho; exact wf_cons.mpr ⟨by simpa using ho, h⟩
    · split
      · rename_i ho; subst ho; exact wf_cons.mpr ⟨h1, h2⟩
      · rename_i ho hne
        exact wf_cons.mpr ⟨head_setByte (by omega) h1, ih h2⟩

/-- A run written keeps the canonical form. -/
theorem setBytes_wf (bs : List Byte) : ∀ {m : Memory} (_ : m.wf = true) (off : Nat), (Memory.setBytes m off bs).wf = true := by
  induction bs with
  | nil => intro m h off; exact h
  | cons b bs ih => intro m h off; exact ih (setByte_wf h off b) (off + 1)

/-- The offsets a write adds lie in its run. -/
theorem mem_setByte {m : Memory} {off : Nat} {b : Byte} {c : Host.Cell} (h : c ∈ Memory.setByte m off b) :
    c = (off, b) ∨ c ∈ m := by
  induction m with
  | nil => simpa [Memory.setByte] using h
  | cons d m ih =>
    obtain ⟨a, v⟩ := d
    simp only [Memory.setByte] at h
    split at h
    · simpa using h
    · split at h
      · rcases List.mem_cons.mp h with h | h
        · exact .inl h
        · exact .inr (List.mem_cons_of_mem _ h)
      · rcases List.mem_cons.mp h with h | h
        · exact .inr (by simp [h])
        · exact (ih h).imp_right (List.mem_cons_of_mem _)

/-- Every offset of a buffer after a write within a bound lies below the bound, if every one did before. -/
theorem all_setBytes (bs : List Byte) : ∀ {m : Memory} {off bound : Nat},
    (∀ c ∈ m, c.1 < bound) → off + bs.length ≤ bound → ∀ c ∈ Memory.setBytes m off bs, c.1 < bound := by
  induction bs with
  | nil => intro m off bound hm _; exact hm
  | cons b bs ih =>
    intro m off bound hm hb
    simp only [List.length_cons] at hb
    refine ih (fun c hc => ?_) (by omega)
    rcases mem_setByte hc with h | h
    · rw [h]; show off < bound; omega
    · exact hm c h

end Memory

/-! ### `memRead` and `memWrite` (20_memory.md R61) -/

/-- A byte written reads as it was written. -/
theorem Session.byte_of_written {x : Session} {off : Nat} {b : Byte} (h : x.buf.byte off = some b) : x.byte off = b := by
  simp [Session.byte, h]

/-- A byte nothing has written reads as the free value it held when the buffer was taken. -/
theorem Session.byte_of_unwritten {x : Session} {off : Nat} (h : x.buf.byte off = none) :
    x.byte off = Config.freeByte x.bufDraw off := by simp [Session.byte, h]

/-- A read within the buffer answers the bytes at its offsets; any other read faults. -/
theorem memRead_eq_ok {x : Session} {off n : Nat} {bs : List Byte} :
    memRead x off n = .ok bs ↔ off + n ≤ x.totalLen.toNat ∧ bs.length = n ∧ ∀ j (h : j < bs.length), x.byte (off + j) = bs[j] := by
  unfold memRead
  split
  · rename_i hb
    simp only [hb, true_and, Except.ok.injEq]
    constructor
    · rintro rfl; exact ⟨by simp, fun j h => by simp⟩
    · rintro ⟨hl, hj⟩
      exact List.ext_getElem (by simp [hl]) fun j h1 h2 => by simpa using hj j h2
  · simp_all

/-- A read within the buffer does not fault. -/
theorem memRead_ok {x : Session} {off n : Nat} (hb : off + n ≤ x.totalLen.toNat) :
    ∃ bs, memRead x off n = .ok bs ∧ bs.length = n := by
  simp [memRead, hb]

/-- A read of written bytes answers them. -/
theorem memRead_written {x : Session} {off n : Nat} {bs : List Byte} (hb : off + n ≤ x.totalLen.toNat)
    (h : x.buf.bytes off n = some bs) : memRead x off n = .ok bs := by
  obtain ⟨hl, hj⟩ := Memory.bytes_eq_some.mp h
  exact memRead_eq_ok.mpr ⟨hb, hl, fun j h => Session.byte_of_written (hj j h)⟩

/-- A write within the buffer answers the session with the bytes in place; any other write faults. -/
theorem memWrite_eq_ok {x y : Session} {off : Nat} {bs : List Byte} :
    memWrite x off bs = .ok y ↔ off + bs.length ≤ x.totalLen.toNat ∧ y = { x with buf := x.buf.setBytes off bs } := by
  unfold memWrite
  split <;> simp_all [eq_comm]

end Sys2Proof.Machine
end

