-- ==== Sys2Proof/Laws/State.lean ====
section
/-! SUPPORT. One lemma per field of the state and update of it, all by `rfl`, so that no proof unfolds a record update; and the slot each update leaves in place. -/

namespace Sys2Proof.Machine

section Updates
variable (s : State)

@[simp] theorem State.setSlot_cfg (i : Nat) (x : Option Session) : (s.setSlot i x).cfg = s.cfg := rfl
@[simp] theorem State.setSlot_slots (i : Nat) (x : Option Session) : (s.setSlot i x).slots = s.slots.set i x := rfl
@[simp] theorem State.setSlot_dropCount (i : Nat) (x : Option Session) : (s.setSlot i x).dropCount = s.dropCount := rfl
@[simp] theorem State.setSlot_nextMsgId (i : Nat) (x : Option Session) : (s.setSlot i x).nextMsgId = s.nextMsgId := rfl
@[simp] theorem State.setSlot_out (i : Nat) (x : Option Session) : (s.setSlot i x).out = s.out := rfl
@[simp] theorem State.setSlot_inbox (i : Nat) (x : Option Session) : (s.setSlot i x).inbox = s.inbox := rfl
@[simp] theorem State.setSlot_registry (i : Nat) (x : Option Session) : (s.setSlot i x).registry = s.registry := rfl
@[simp] theorem State.setSlot_driverIn (i : Nat) (x : Option Session) : (s.setSlot i x).driverIn = s.driverIn := rfl
@[simp] theorem State.setSlot_draws (i : Nat) (x : Option Session) : (s.setSlot i x).draws = s.draws := rfl
@[simp] theorem State.setSlot_offered (i : Nat) (x : Option Session) : (s.setSlot i x).offered = s.offered := rfl
@[simp] theorem State.setSlot_events (i : Nat) (x : Option Session) : (s.setSlot i x).events = s.events := rfl

@[simp] theorem State.free_cfg (i : Nat) : (s.free i).cfg = s.cfg := rfl
@[simp] theorem State.free_slots (i : Nat) : (s.free i).slots = s.slots.set i none := rfl
@[simp] theorem State.free_dropCount (i : Nat) : (s.free i).dropCount = s.dropCount := rfl
@[simp] theorem State.free_nextMsgId (i : Nat) : (s.free i).nextMsgId = s.nextMsgId := rfl
@[simp] theorem State.free_out (i : Nat) : (s.free i).out = s.out := rfl
@[simp] theorem State.free_inbox (i : Nat) : (s.free i).inbox = s.inbox := rfl
@[simp] theorem State.free_registry (i : Nat) : (s.free i).registry = s.registry := rfl
@[simp] theorem State.free_driverIn (i : Nat) : (s.free i).driverIn = s.driverIn := rfl
@[simp] theorem State.free_draws (i : Nat) : (s.free i).draws = s.draws := rfl
@[simp] theorem State.free_offered (i : Nat) : (s.free i).offered = s.offered := rfl
@[simp] theorem State.free_events (i : Nat) : (s.free i).events = s.events := rfl

@[simp] theorem State.reply_cfg (w : Ports → Ports) : (s.reply w).cfg = s.cfg := rfl
@[simp] theorem State.reply_slots (w : Ports → Ports) : (s.reply w).slots = s.slots := rfl
@[simp] theorem State.reply_dropCount (w : Ports → Ports) : (s.reply w).dropCount = s.dropCount := rfl
@[simp] theorem State.reply_nextMsgId (w : Ports → Ports) : (s.reply w).nextMsgId = s.nextMsgId := rfl
@[simp] theorem State.reply_out (w : Ports → Ports) : (s.reply w).out = w (Ports.unspecified s.draws) := rfl
@[simp] theorem State.reply_inbox (w : Ports → Ports) : (s.reply w).inbox = s.inbox := rfl
@[simp] theorem State.reply_registry (w : Ports → Ports) : (s.reply w).registry = s.registry := rfl
@[simp] theorem State.reply_driverIn (w : Ports → Ports) : (s.reply w).driverIn = s.driverIn := rfl
@[simp] theorem State.reply_draws (w : Ports → Ports) : (s.reply w).draws = s.draws + 1 := rfl
@[simp] theorem State.reply_offered (w : Ports → Ports) : (s.reply w).offered = s.offered := rfl
@[simp] theorem State.reply_events (w : Ports → Ports) : (s.reply w).events = s.events := rfl

@[simp] theorem State.send_cfg (ch : Channel) (id : Word) (d : List Byte) : (s.send ch id d).cfg = s.cfg := rfl
@[simp] theorem State.send_slots (ch : Channel) (id : Word) (d : List Byte) : (s.send ch id d).slots = s.slots := rfl
@[simp] theorem State.send_dropCount (ch : Channel) (id : Word) (d : List Byte) : (s.send ch id d).dropCount = s.dropCount := rfl
@[simp] theorem State.send_nextMsgId (ch : Channel) (id : Word) (d : List Byte) : (s.send ch id d).nextMsgId = s.nextMsgId := rfl
@[simp] theorem State.send_out (ch : Channel) (id : Word) (d : List Byte) : (s.send ch id d).out = s.out := rfl
@[simp] theorem State.send_inbox (ch : Channel) (id : Word) (d : List Byte) : (s.send ch id d).inbox = s.inbox := rfl
@[simp] theorem State.send_registry (ch : Channel) (id : Word) (d : List Byte) : (s.send ch id d).registry = s.registry := rfl
@[simp] theorem State.send_driverIn (ch : Channel) (id : Word) (d : List Byte) : (s.send ch id d).driverIn = s.driverIn.tail := rfl
@[simp] theorem State.send_draws (ch : Channel) (id : Word) (d : List Byte) : (s.send ch id d).draws = s.draws + 1 := rfl
@[simp] theorem State.send_offered (ch : Channel) (id : Word) (d : List Byte) : (s.send ch id d).offered = s.offered ++ [⟨s.emitted ch id d, s.driverAccepts⟩] := rfl
@[simp] theorem State.send_events (ch : Channel) (id : Word) (d : List Byte) : (s.send ch id d).events = s.events := rfl

@[simp] theorem State.emit_cfg (e : Event) : (s.emit e).cfg = s.cfg := rfl
@[simp] theorem State.emit_slots (e : Event) : (s.emit e).slots = s.slots := rfl
@[simp] theorem State.emit_dropCount (e : Event) : (s.emit e).dropCount = s.dropCount := rfl
@[simp] theorem State.emit_nextMsgId (e : Event) : (s.emit e).nextMsgId = s.nextMsgId := rfl
@[simp] theorem State.emit_out (e : Event) : (s.emit e).out = s.out := rfl
@[simp] theorem State.emit_inbox (e : Event) : (s.emit e).inbox = s.inbox := rfl
@[simp] theorem State.emit_registry (e : Event) : (s.emit e).registry = s.registry := rfl
@[simp] theorem State.emit_driverIn (e : Event) : (s.emit e).driverIn = s.driverIn := rfl
@[simp] theorem State.emit_draws (e : Event) : (s.emit e).draws = s.draws := rfl
@[simp] theorem State.emit_offered (e : Event) : (s.emit e).offered = s.offered := rfl
@[simp] theorem State.emit_events (e : Event) : (s.emit e).events = s.events ++ [e] := rfl

@[simp] theorem State.dropFrame_cfg (c : DropCause) : (s.dropFrame c).cfg = s.cfg := rfl
@[simp] theorem State.dropFrame_slots (c : DropCause) : (s.dropFrame c).slots = s.slots := rfl
@[simp] theorem State.dropFrame_dropCount (c : DropCause) : (s.dropFrame c).dropCount = s.dropCount + 1#32 := rfl
@[simp] theorem State.dropFrame_nextMsgId (c : DropCause) : (s.dropFrame c).nextMsgId = s.nextMsgId := rfl
@[simp] theorem State.dropFrame_out (c : DropCause) : (s.dropFrame c).out = s.out := rfl
@[simp] theorem State.dropFrame_inbox (c : DropCause) : (s.dropFrame c).inbox = s.inbox := rfl
@[simp] theorem State.dropFrame_registry (c : DropCause) : (s.dropFrame c).registry = s.registry := rfl
@[simp] theorem State.dropFrame_driverIn (c : DropCause) : (s.dropFrame c).driverIn = s.driverIn := rfl
@[simp] theorem State.dropFrame_draws (c : DropCause) : (s.dropFrame c).draws = s.draws := rfl
@[simp] theorem State.dropFrame_offered (c : DropCause) : (s.dropFrame c).offered = s.offered := rfl
@[simp] theorem State.dropFrame_events (c : DropCause) : (s.dropFrame c).events = s.events := rfl

@[simp] theorem State.resetBlock_cfg : (s.resetBlock).cfg = s.cfg := rfl
@[simp] theorem State.resetBlock_slots : (s.resetBlock).slots = List.replicate s.cfg.maxSessions none := rfl
@[simp] theorem State.resetBlock_dropCount : (s.resetBlock).dropCount = 0 := rfl
@[simp] theorem State.resetBlock_nextMsgId : (s.resetBlock).nextMsgId = 0 := rfl
@[simp] theorem State.resetBlock_out : (s.resetBlock).out = s.out := rfl
@[simp] theorem State.resetBlock_inbox : (s.resetBlock).inbox = s.inbox := rfl
@[simp] theorem State.resetBlock_registry : (s.resetBlock).registry = s.registry := rfl
@[simp] theorem State.resetBlock_driverIn : (s.resetBlock).driverIn = s.driverIn := rfl
@[simp] theorem State.resetBlock_draws : (s.resetBlock).draws = s.draws := rfl
@[simp] theorem State.resetBlock_offered : (s.resetBlock).offered = s.offered := rfl
@[simp] theorem State.resetBlock_events : (s.resetBlock).events = s.events := rfl

@[simp] theorem State.issue_cfg (r : List Byte) : (s.issue r).cfg = s.cfg := rfl
@[simp] theorem State.issue_slots (r : List Byte) : (s.issue r).slots = s.slots := rfl
@[simp] theorem State.issue_dropCount (r : List Byte) : (s.issue r).dropCount = s.dropCount := rfl
@[simp] theorem State.issue_nextMsgId (r : List Byte) : (s.issue r).nextMsgId = s.nextMsgId := rfl
@[simp] theorem State.issue_out (r : List Byte) : (s.issue r).out = s.out := rfl
@[simp] theorem State.issue_inbox (r : List Byte) : (s.issue r).inbox = ⟨r, s.registry⟩ :: s.inbox := rfl
@[simp] theorem State.issue_registry (r : List Byte) : (s.issue r).registry = s.registry := rfl
@[simp] theorem State.issue_driverIn (r : List Byte) : (s.issue r).driverIn = s.driverIn := rfl
@[simp] theorem State.issue_draws (r : List Byte) : (s.issue r).draws = s.draws := rfl
@[simp] theorem State.issue_offered (r : List Byte) : (s.issue r).offered = s.offered := rfl
@[simp] theorem State.issue_events (r : List Byte) : (s.issue r).events = s.events := rfl

@[simp] theorem State.send_slot (ch : Channel) (id : Word) (d : List Byte) (j : Nat) : (s.send ch id d).slot j = s.slot j := rfl
theorem State.send_setSlot_comm (ch : Channel) (id : Word) (d : List Byte) (j : Nat) (y : Option Session) : State.setSlot (s.send ch id d) j y = State.send (s.setSlot j y) ch id d := rfl

@[simp] theorem State.emit_slot (e : Event) (j : Nat) : (s.emit e).slot j = s.slot j := rfl
theorem State.emit_setSlot_comm (e : Event) (j : Nat) (y : Option Session) : State.setSlot (s.emit e) j y = State.emit (s.setSlot j y) e := rfl

@[simp] theorem State.reply_slot (w : Ports → Ports) (j : Nat) : (s.reply w).slot j = s.slot j := rfl
theorem State.reply_setSlot_comm (w : Ports → Ports) (j : Nat) (y : Option Session) : State.setSlot (s.reply w) j y = State.reply (s.setSlot j y) w := rfl

@[simp] theorem State.dropFrame_slot (c : DropCause) (j : Nat) : (s.dropFrame c).slot j = s.slot j := rfl
theorem State.dropFrame_setSlot_comm (c : DropCause) (j : Nat) (y : Option Session) : State.setSlot (s.dropFrame c) j y = State.dropFrame (s.setSlot j y) c := rfl

@[simp] theorem State.issue_slot (r : List Byte) (j : Nat) : (s.issue r).slot j = s.slot j := rfl
theorem State.issue_setSlot_comm (r : List Byte) (j : Nat) (y : Option Session) : State.setSlot (s.issue r) j y = State.issue (s.setSlot j y) r := rfl

@[simp] theorem State.setSlot_emitted (i : Nat) (x : Option Session) (ch : Channel) (id : Word) (d : List Byte) :
    (s.setSlot i x).emitted ch id d = s.emitted ch id d := rfl

@[simp] theorem State.setSlot_driverAccepts (i : Nat) (x : Option Session) : (s.setSlot i x).driverAccepts = s.driverAccepts := rfl

@[simp] theorem State.setSlot_setSlot (i : Nat) (x y : Option Session) : (s.setSlot i x).setSlot i y = s.setSlot i y := by
  simp [State.setSlot]

@[simp] theorem State.setSlot_free (i : Nat) (x : Option Session) : (s.setSlot i x).free i = s.free i := by
  simp [State.free]

/-- Reading a slot just written. -/
theorem State.slot_setSlot_self {i : Nat} (h : i < s.slots.length) (x : Option Session) : (s.setSlot i x).slot i = x := by
  simp [State.slot, State.setSlot, h]

/-- Writing a slot leaves every other one. -/
@[simp] theorem State.slot_setSlot_ne {i j : Nat} (h : i ≠ j) (x : Option Session) : (s.setSlot i x).slot j = s.slot j := by
  simp [State.slot, State.setSlot, List.getElem?_set_ne h]

/-- Freeing a slot leaves every other one. -/
@[simp] theorem State.slot_free_ne {i j : Nat} (h : i ≠ j) : (s.free i).slot j = s.slot j :=
  s.slot_setSlot_ne h none

/-- A slot just freed is free. -/
@[simp] theorem State.slot_free_self (i : Nat) : (s.free i).slot i = none := by
  by_cases h : i < s.slots.length
  · exact s.slot_setSlot_self h none
  · simp [State.slot, State.free, State.setSlot, List.set_eq_of_length_le (Nat.le_of_not_lt h),
      List.getElem?_eq_none (Nat.le_of_not_lt h)]

/-- A slot that holds a session is one of the slot file. -/
theorem State.lt_of_slot {s : State} {i : Nat} {x : Session} (h : s.slot i = some x) : i < s.slots.length := by
  by_contra hn
  simp [State.slot, List.getElem?_eq_none (Nat.le_of_not_lt hn)] at h

/-- What a slot holds is listed in the slot file. -/
theorem State.mem_of_slot {s : State} {i : Nat} {x : Session} (h : s.slot i = some x) : some x ∈ s.slots := by
  have hi := State.lt_of_slot h
  have : s.slots[i] = some x := by simpa [State.slot, hi] using h
  exact this ▸ List.getElem_mem hi

end Updates

/-- Writing into a slot what it holds changes nothing. -/
theorem State.set_slot {s : State} {i : Nat} {x : Session} (h : s.slot i = some x) : s.slots.set i (some x) = s.slots := by
  have hi := State.lt_of_slot h
  apply List.ext_getElem (by simp)
  intro j h1 h2
  rw [List.getElem_set]
  split
  · rename_i hij; subst hij; simpa [State.slot, hi] using h.symm
  · rfl

end Sys2Proof.Machine
end

