-- ==== Sys2Proof/Laws/Slots.lean ====
section
/-! SUPPORT. Searching the slot file: what `findSlot`, `freeSlot` and `bamTxActive` answer, in terms of the slots themselves (10_state.md R23, R29, R30). -/

namespace Sys2Proof.Machine

/-! ### A key names its session -/

/-- A session's key is the key given. -/
theorem Session.hasKey_iff {x : Session} {ch : Channel} {src dst : Addr} {dir : Dir} :
    x.hasKey ch src dst dir = true ↔ x.channel = ch ∧ x.src = src ∧ x.dst = dst ∧ x.dir = dir := by
  simp [Session.hasKey, and_assoc]

/-! ### The first session of a list that meets a test -/

theorem findFrom_eq_some {p : Session → Bool} : ∀ {l : List (Option Session)} {k i : Nat} {x : Session},
    findFrom p k l = some (i, x) →
      k ≤ i ∧ l.getD (i - k) none = some x ∧ p x = true ∧ ∀ j y, k ≤ j → j < i → l.getD (j - k) none = some y → p y = false := by
  intro l
  induction l with
  | nil => intro k i x h; simp [findFrom] at h
  | cons o l ih =>
    intro k i x h
    have later : findFrom p (k + 1) l = some (i, x) → (∀ y, o = some y → p y = false) →
        k ≤ i ∧ (o :: l).getD (i - k) none = some x ∧ p x = true ∧
          ∀ j y, k ≤ j → j < i → (o :: l).getD (j - k) none = some y → p y = false := by
      intro h ho
      obtain ⟨h1, h2, h3, h4⟩ := ih h
      refine ⟨by omega, ?_, h3, fun j y hj hji hy => ?_⟩
      · rwa [show i - k = (i - (k + 1)) + 1 by omega]
      · by_cases hjk : j = k
        · subst hjk; exact ho y (by simpa using hy)
        · rw [show j - k = (j - (k + 1)) + 1 by omega] at hy
          exact h4 j y (by omega) hji hy
    cases o with
    | none => exact later h (by simp)
    | some z =>
      simp only [findFrom] at h
      split at h
      · rename_i hz
        cases h
        exact ⟨le_refl _, by simp, hz, fun j y h1 h2 => by omega⟩
      · rename_i hz
        exact later h (by simpa using hz)

theorem findFrom_eq_none {p : Session → Bool} : ∀ {l : List (Option Session)} {k : Nat},
    findFrom p k l = none ↔ ∀ j y, l.getD j none = some y → p y = false := by
  intro l
  induction l with
  | nil => intro k; simp [findFrom]
  | cons o l ih =>
    intro k
    have split_zero : (∀ j y, (o :: l).getD j none = some y → p y = false) ↔
        (∀ y, o = some y → p y = false) ∧ ∀ j y, l.getD j none = some y → p y = false := by
      constructor
      · exact fun h => ⟨fun y hy => h 0 y (by simpa using hy), fun j y hy => h (j + 1) y (by simpa using hy)⟩
      · rintro ⟨h0, h1⟩ j y hy
        cases j with
        | zero => exact h0 y (by simpa using hy)
        | succ j => exact h1 j y (by simpa using hy)
    rw [split_zero]
    cases o with
    | none => simp [findFrom, ih]
    | some z =>
      simp only [findFrom]
      by_cases hz : p z = true
      · simp [hz]
      · simp [hz, ih]

/-! ### FindSlot -/

/-- What `FindSlot` answers is a valid slot with the key. -/
theorem State.findSlot_eq_some {s : State} {ch : Channel} {src dst : Addr} {dir : Dir} {i : Nat} {x : Session}
    (h : s.findSlot ch src dst dir = some (i, x)) : s.holds i x ch src dst dir := by
  obtain ⟨-, h2, h3, -⟩ := findFrom_eq_some h
  exact ⟨by simpa [State.slot] using h2, h3⟩

/-- `FindSlot` answers none exactly where the key is free. -/
theorem State.findSlot_eq_none {s : State} {ch : Channel} {src dst : Addr} {dir : Dir} :
    s.findSlot ch src dst dir = none ↔ s.keyFree ch src dst dir :=
  findFrom_eq_none

/-- Two slots of a file with unique keys do not clash. -/
theorem State.keysUnique.not_clash {s : State} (hs : s.keysUnique) {i j : Nat} {x y : Session}
    (hi : s.slot i = some x) (hj : s.slot j = some y) (h : i < j) : clash (some x) (some y) = false := by
  have hi' := State.lt_of_slot hi
  have hj' := State.lt_of_slot hj
  have h1 : s.slots[i] = some x := by simpa [State.slot, hi'] using hi
  have h2 : s.slots[j] = some y := by simpa [State.slot, hj'] using hj
  have := List.pairwise_iff_getElem.mp hs i j hi' hj' h
  rwa [h1, h2] at this

/-- Where keys are unique, `FindSlot` answers every slot by its key (10_state.md R30). -/
theorem State.findSlot_of_holds {s : State} (hs : s.keysUnique) {ch : Channel} {src dst : Addr} {dir : Dir} {i : Nat}
    {x : Session} (h : s.holds i x ch src dst dir) : s.findSlot ch src dst dir = some (i, x) := by
  obtain ⟨hx, hk⟩ := h
  cases hf : s.findSlot ch src dst dir with
  | none =>
    have := State.findSlot_eq_none.mp hf i x hx
    simp [hk] at this
  | some r =>
    obtain ⟨j, y⟩ := r
    obtain ⟨hy, hky⟩ := State.findSlot_eq_some hf
    obtain ⟨a1, a2, a3, a4⟩ := Session.hasKey_iff.mp hk
    obtain ⟨b1, b2, b3, b4⟩ := Session.hasKey_iff.mp hky
    rcases Nat.lt_trichotomy i j with h | h | h
    · have := hs.not_clash hx hy h
      simp [clash, Session.hasKey, a1, a2, a3, a4, b1, b2, b3, b4] at this
    · subst h; rw [hx] at hy; cases hy; rfl
    · have := hs.not_clash hy hx h
      simp [clash, Session.hasKey, a1, a2, a3, a4, b1, b2, b3, b4] at this

/-! ### The lowest free slot -/

theorem freeFrom_eq_some : ∀ {l : List (Option Session)} {k i : Nat},
    freeFrom k l = some i ↔ k ≤ i ∧ i - k < l.length ∧ l.getD (i - k) none = none ∧ ∀ j, j < i - k → (l.getD j none).isSome = true := by
  intro l
  induction l with
  | nil => intro k i; simp [freeFrom]
  | cons o l ih =>
    intro k i
    cases o with
    | none =>
      simp only [freeFrom, Option.some.injEq]
      constructor
      · rintro rfl; simp
      · rintro ⟨h1, -, -, h4⟩
        by_contra hne
        have := h4 0 (by omega)
        simp at this
    | some z =>
      simp only [freeFrom, ih]
      constructor
      · rintro ⟨h1, h2, h3, h4⟩
        have e : i - k = (i - (k + 1)) + 1 := by omega
        refine ⟨by omega, by simp; omega, by rw [e]; simpa using h3, fun j hj => ?_⟩
        cases j with
        | zero => simp
        | succ j => simpa using h4 j (by omega)
      · rintro ⟨h1, h2, h3, h4⟩
        have hne : i ≠ k := by rintro rfl; simp at h3
        have e : i - k = (i - (k + 1)) + 1 := by omega
        rw [e] at h3
        refine ⟨by omega, by simp at h2; omega, by simpa using h3, fun j hj => ?_⟩
        simpa using h4 (j + 1) (by omega)

theorem freeFrom_eq_none : ∀ {l : List (Option Session)} {k : Nat},
    freeFrom k l = none ↔ ∀ j, j < l.length → (l.getD j none).isSome = true := by
  intro l
  induction l with
  | nil => intro k; simp [freeFrom]
  | cons o l ih =>
    intro k
    cases o with
    | none => simp only [freeFrom]; constructor
              · intro h; cases h
              · intro h; simpa using h 0 (by simp)
    | some z =>
      simp only [freeFrom, ih]
      constructor
      · intro h j hj
        cases j with
        | zero => simp
        | succ j => simpa using h j (by simpa using hj)
      · intro h j hj
        simpa using h (j + 1) (by simpa using hj)

/-- `freeSlot` answers the free slot of lowest index. -/
theorem State.freeSlot_eq_some {s : State} {i : Nat} : s.freeSlot = some i ↔ s.lowestFree i := by
  simp [State.freeSlot, freeFrom_eq_some, State.lowestFree, State.slot]

/-- `freeSlot` answers none exactly where no slot is free. -/
theorem State.freeSlot_eq_none {s : State} : s.freeSlot = none ↔ s.full := by
  simp [State.freeSlot, freeFrom_eq_none, State.full, State.slot]

/-- `bam_tx_active(ch)` holds exactly where a slot holds a BAM Tx session of the channel (10_state.md R29). -/
theorem State.bamTxActive_iff {s : State} {ch : Channel} :
    s.bamTxActive ch = true ↔ ∃ i x, s.slot i = some x ∧ x.channel = ch ∧ x.mode = .bam ∧ x.dir = .tx := by
  unfold State.bamTxActive
  constructor
  · intro h
    obtain ⟨⟨i, x⟩, hx⟩ := Option.isSome_iff_exists.mp h
    obtain ⟨-, h2, h3, -⟩ := findFrom_eq_some hx
    simp only [Bool.and_eq_true, beq_iff_eq] at h3
    exact ⟨i, x, by simpa [State.slot] using h2, h3.1.1, h3.1.2, h3.2⟩
  · rintro ⟨i, x, hx, h1, h2, h3⟩
    by_contra hn
    have := findFrom_eq_none.mp (Option.not_isSome_iff_eq_none.mp hn) i x hx
    simp [h1, h2, h3] at this

/-! ### The slot file's invariants through an update -/

/-- A session of the slot file is good. -/
theorem State.sessionsWf_iff {s : State} : s.sessionsWf = true ↔ ∀ i x, s.slot i = some x → x.wf s.cfg = true := by
  unfold State.sessionsWf
  rw [List.all_eq_true]
  constructor
  · intro h i x hx; exact h _ (State.mem_of_slot hx)
  · intro h o ho
    obtain ⟨i, hi, rfl⟩ := List.getElem_of_mem ho
    cases hx : s.slots[i] with
    | none => rfl
    | some x => exact h i x (by simp [State.slot, hi, hx])

/-- The keys of a slot file are unique, slot by slot. -/
theorem State.keysUnique_iff {s : State} :
    s.keysUnique ↔ ∀ i j x y, i < j → s.slot i = some x → s.slot j = some y → clash (some x) (some y) = false := by
  constructor
  · intro h i j x y hij hx hy; exact State.keysUnique.not_clash h hx hy hij
  · intro h
    refine List.pairwise_iff_getElem.mpr fun i j hi hj hij => ?_
    cases hx : s.slots[i] with
    | none => rfl
    | some x =>
      cases hy : s.slots[j] with
      | none => rfl
      | some y => exact h i j x y hij (by simp [State.slot, hi, hx]) (by simp [State.slot, hj, hy])

end Sys2Proof.Machine
end

