-- ==== Sys2Proof/Laws/Session.lean ====
section
/-! SUPPORT. What each operation of the session machinery can do, said once: `complete`, `abortSession`, `offer`, the bursts, BAM pacing and the service of a slot touch one slot, keep who its session is, offer frames of eight bytes, and append to the outputs (42_session_engine.md). -/

namespace Sys2Proof.Machine

/-! ### Who a session is -/

/-- Two stages of one session: the same parties, mode, PGN and message, and for a sender the same payload (20_memory.md R64). -/
structure Session.Kin (x y : Session) : Prop where
  channel   : y.channel = x.channel
  mode      : y.mode = x.mode
  dir       : y.dir = x.dir
  src       : y.src = x.src
  dst       : y.dst = x.dst
  pgn       : y.pgn = x.pgn
  totalLen  : y.totalLen = x.totalLen
  totalPkts : y.totalPkts = x.totalPkts
  bufDraw   : y.bufDraw = x.bufDraw
  buf       : x.dir = .tx → y.buf = x.buf

theorem Session.Kin.refl (x : Session) : x.Kin x := ⟨rfl, rfl, rfl, rfl, rfl, rfl, rfl, rfl, rfl, fun _ => rfl⟩

theorem Session.Kin.trans {x y z : Session} (h : x.Kin y) (k : y.Kin z) : x.Kin z :=
  ⟨k.channel.trans h.channel, k.mode.trans h.mode, k.dir.trans h.dir, k.src.trans h.src, k.dst.trans h.dst,
   k.pgn.trans h.pgn, k.totalLen.trans h.totalLen, k.totalPkts.trans h.totalPkts, k.bufDraw.trans h.bufDraw,
   fun hx => (k.buf (h.dir.trans hx)).trans (h.buf hx)⟩

theorem Session.Kin.hasKey {x y : Session} (h : x.Kin y) (ch : Channel) (src dst : Addr) (dir : Dir) :
    y.hasKey ch src dst dir = x.hasKey ch src dst dir := by
  simp [Session.hasKey, h.channel, h.src, h.dst, h.dir]

/-! ### The frames the engine sends -/

/-- A frame of the transport engine: eight data bytes, and the identifier `IDENC(TP_PRIORITY, <PGN>, <da>, <sa>)` of a transport PGN (30_encoding.md R89, R90). -/
def engineFrame (c : Config) (id : Word) (data : List Byte) : Prop :=
  data.length = 8 ∧ ∃ g ∈ [pgnTpCm, pgnTpDt, pgnEtpCm, pgnEtpDt], ∃ da sa, id = idEncode c.tpPriority g da sa

/-- An offer of an engine frame: extended, of length 8 (30_encoding.md R89). -/
structure engineOffer (c : Config) (o : Offer) : Prop where
  frame    : engineFrame c o.frame.identifier o.frame.data
  length   : o.frame.length = 8
  extended : o.frame.extended = true

theorem engineFrame.offer {c : Config} {id : Word} {d : List Byte} (h : engineFrame c id d) (s : State) (ch : Channel) :
    engineOffer c ⟨s.emitted ch id d, s.driverAccepts⟩ :=
  ⟨h, by simp [State.emitted, h.1], rfl⟩

@[simp] theorem leBytes_length {w : Nat} (n : Nat) (v : BitVec w) : (leBytes n v).length = n := by simp [leBytes]

@[simp] theorem pgnBytes_length (g : Pgn) : (pgnBytes g).length = 3 := leBytes_length 3 g

theorem cmPgn_mem (m : Mode) : cmPgn m ∈ [pgnTpCm, pgnTpDt, pgnEtpCm, pgnEtpDt] := by cases m <;> simp [cmPgn]

theorem dtPgn_mem (m : Mode) : dtPgn m ∈ [pgnTpCm, pgnTpDt, pgnEtpCm, pgnEtpDt] := by cases m <;> simp [dtPgn]

/-- Every control frame a session builds is an engine frame. -/
theorem build_engineFrame (c : Config) (x : Session) (k : Control) : engineFrame c (build c x k).1 (build c x k).2 := by
  cases k
  · exact ⟨by cases h : x.mode <;> simp [build, rtsData, h], _, cmPgn_mem x.mode, _, _, rfl⟩
  · exact ⟨by cases h : x.mode <;> simp [build, ctsData, h], _, cmPgn_mem x.mode, _, _, rfl⟩
  · exact ⟨by simp [build, dpoData], pgnEtpCm, by simp, _, _, rfl⟩
  · exact ⟨by cases h : x.mode <;> simp [build, eomaData, h], _, cmPgn_mem x.mode, _, _, rfl⟩
  · exact ⟨by simp [build, announceData], pgnTpCm, by simp, _, _, rfl⟩

/-- A data frame's data, where there is one, has eight bytes. -/
theorem dataFrame_length {x : Session} {k seq : BitVec 32} {d : List Byte} (h : dataFrame x k seq = .ok d) : d.length = 8 := by
  simp only [dataFrame] at h
  split at h
  · rename_i payload hp
    cases h
    have hl := (memRead_eq_ok.mp hp).2.1
    have : payload.length ≤ bytesPerPacket := hl ▸ Nat.min_le_left _ _
    simp only [bytesPerPacket] at this
    simp [dataBytes, bytesPerPacket]; omega
  · cases h

/-! ### What one session's work does to the state -/

/-- The messages delivered among some events. -/
def deliveries (es : List Event) : Nat := es.countP fun | .delivered .. => true | _ => false

/-- From `s` to `t` only slot `i` was worked on: it holds a later stage of its session or is free, every other slot is as it was, and the outputs have grown. -/
structure Serves (i : Nat) (s t : State) : Prop where
  cfg       : t.cfg = s.cfg
  inbox     : t.inbox = s.inbox
  registry  : t.registry = s.registry
  dropCount : t.dropCount = s.dropCount
  length    : t.slots.length = s.slots.length
  others    : ∀ j, j ≠ i → t.slot j = s.slot j
  kin       : ∀ y, t.slot i = some y → ∃ x, s.slot i = some x ∧ x.Kin y
  offered   : ∃ os, t.offered = s.offered ++ os ∧ t.driverIn = s.driverIn.drop os.length ∧
                t.draws = s.draws + os.length ∧ ∀ o ∈ os, engineOffer s.cfg o
  events    : ∃ es, t.events = s.events ++ es ∧ t.nextMsgId = s.nextMsgId + BitVec.ofNat 64 (deliveries es)

namespace Serves

theorem refl (i : Nat) (s : State) : Serves i s s :=
  ⟨rfl, rfl, rfl, rfl, rfl, fun _ _ => rfl, fun y h => ⟨y, h, Session.Kin.refl y⟩,
   ⟨[], by simp, by simp, by simp, by simp⟩, ⟨[], by simp, by simp [deliveries]⟩⟩

theorem trans {i : Nat} {s t u : State} (h : Serves i s t) (k : Serves i t u) : Serves i s u where
  cfg := k.cfg.trans h.cfg
  inbox := k.inbox.trans h.inbox
  registry := k.registry.trans h.registry
  dropCount := k.dropCount.trans h.dropCount
  length := k.length.trans h.length
  others j hj := (k.others j hj).trans (h.others j hj)
  kin z hz := by
    obtain ⟨y, hy, hyz⟩ := k.kin z hz
    obtain ⟨x, hx, hxy⟩ := h.kin y hy
    exact ⟨x, hx, hxy.trans hyz⟩
  offered := by
    obtain ⟨os, h1, h2, h4, h3⟩ := h.offered
    obtain ⟨ps, k1, k2, k4, k3⟩ := k.offered
    refine ⟨os ++ ps, by simp [k1, h1], by simp [k2, h2, List.drop_drop], by simp [k4, h4, Nat.add_assoc], fun o ho => ?_⟩
    rcases List.mem_append.mp ho with ho | ho
    · exact h3 o ho
    · exact h.cfg ▸ k3 o ho
  events := by
    obtain ⟨es, h1, h2⟩ := h.events
    obtain ⟨fs, k1, k2⟩ := k.events
    refine ⟨es ++ fs, by simp [k1, h1], ?_⟩
    rw [k2, h2, deliveries, deliveries, deliveries, List.countP_append, BitVec.add_assoc, BitVec.ofNat_add]

/-- Writing a later stage of the session into its slot. -/
theorem write {i : Nat} {s : State} {x y : Session} (hx : s.slot i = some x) (hk : x.Kin y) :
    Serves i s (s.setSlot i (some y)) where
  cfg := rfl
  inbox := rfl
  registry := rfl
  dropCount := rfl
  length := by simp
  others j hj := s.slot_setSlot_ne (Ne.symm hj) _
  kin z hz := by
    rw [s.slot_setSlot_self (State.lt_of_slot hx)] at hz
    cases hz
    exact ⟨x, hx, hk⟩
  offered := ⟨[], by simp, by simp, by simp, by simp⟩
  events := ⟨[], by simp, by simp [deliveries]⟩

/-- Freeing the slot. -/
theorem free (i : Nat) (s : State) : Serves i s (s.free i) where
  cfg := rfl
  inbox := rfl
  registry := rfl
  dropCount := rfl
  length := by simp
  others j hj := s.slot_free_ne (Ne.symm hj)
  kin z hz := by simp at hz
  offered := ⟨[], by simp, by simp, by simp, by simp⟩
  events := ⟨[], by simp, by simp [deliveries]⟩

/-- Offering an engine frame. -/
theorem send (i : Nat) {s : State} {ch : Channel} {id : Word} {d : List Byte} (h : engineFrame s.cfg id d) :
    Serves i s (s.send ch id d) where
  cfg := rfl
  inbox := rfl
  registry := rfl
  dropCount := rfl
  length := rfl
  others _ _ := rfl
  kin y hy := ⟨y, hy, Session.Kin.refl y⟩
  offered := ⟨[⟨s.emitted ch id d, s.driverAccepts⟩], rfl, by simp, by simp, by simpa using h.offer s ch⟩
  events := ⟨[], by simp, by simp [deliveries]⟩

/-- An event that delivers nothing. -/
theorem emit (i : Nat) {s : State} {e : Event} (h : deliveries [e] = 0) : Serves i s (s.emit e) where
  cfg := rfl
  inbox := rfl
  registry := rfl
  dropCount := rfl
  length := rfl
  others _ _ := rfl
  kin y hy := ⟨y, hy, Session.Kin.refl y⟩
  offered := ⟨[], by simp, by simp, by simp, by simp⟩
  events := ⟨[e], rfl, by simp [h]⟩

end Serves

/-! ### The end of a session (42_session_engine.md R203, R204) -/

/-- An aborted session's slot is free and nothing else of the block has changed. -/
@[simp] theorem abortSession_slots (i : Nat) (x : Session) (r : AbortReason) (n : Bool) (s : State) :
    (abortSession i x r n s).slots = s.slots.set i none := by
  simp only [abortSession]; split <;> simp [sendAbort]

@[simp] theorem abortSession_cfg (i : Nat) (x : Session) (r : AbortReason) (n : Bool) (s : State) :
    (abortSession i x r n s).cfg = s.cfg := by
  simp only [abortSession]; split <;> simp [sendAbort]

@[simp] theorem abortSession_inbox (i : Nat) (x : Session) (r : AbortReason) (n : Bool) (s : State) :
    (abortSession i x r n s).inbox = s.inbox := by
  simp only [abortSession]; split <;> simp [sendAbort]

@[simp] theorem abortSession_registry (i : Nat) (x : Session) (r : AbortReason) (n : Bool) (s : State) :
    (abortSession i x r n s).registry = s.registry := by
  simp only [abortSession]; split <;> simp [sendAbort]

@[simp] theorem abortSession_dropCount (i : Nat) (x : Session) (r : AbortReason) (n : Bool) (s : State) :
    (abortSession i x r n s).dropCount = s.dropCount := by
  simp only [abortSession]; split <;> simp [sendAbort]

@[simp] theorem abortSession_nextMsgId (i : Nat) (x : Session) (r : AbortReason) (n : Bool) (s : State) :
    (abortSession i x r n s).nextMsgId = s.nextMsgId := by
  simp only [abortSession]; split <;> simp [sendAbort]

/-- The one event of an abort, its reason the code of the cause. -/
@[simp] theorem abortSession_events (i : Nat) (x : Session) (r : AbortReason) (n : Bool) (s : State) :
    (abortSession i x r n s).events =
      s.events ++ [.aborted x.channel x.mode x.dir x.pgn x.src x.dst (reasonCode s.cfg r)] := by
  simp only [abortSession]; split <;> simp [sendAbort]

/-- The one frame of an abort that notifies the peer of a TP or ETP session. -/
theorem abortSession_offered_notify {x : Session} (hx : x.mode ≠ .bam) (i : Nat) (r : AbortReason) (s : State) :
    (abortSession i x r true s).offered = s.offered ++
      [⟨s.emitted x.channel (transportId s.cfg (cmPgn x.mode) x.peer x.ours) (abortData (reasonCode s.cfg r) x.pgn), s.driverAccepts⟩] := by
  simp [abortSession, sendAbort, hx, Session.peer, Session.ours]

theorem abortSession_driverIn_notify {x : Session} (hx : x.mode ≠ .bam) (i : Nat) (r : AbortReason) (s : State) :
    (abortSession i x r true s).driverIn = s.driverIn.tail := by
  simp [abortSession, sendAbort, hx]

/-- An abort that does not notify, or of a BAM session, offers no frame. -/
theorem abortSession_offered_quiet {x : Session} {n : Bool} (h : n = false ∨ x.mode = .bam) (i : Nat) (r : AbortReason)
    (s : State) : (abortSession i x r n s).offered = s.offered := by
  rcases h with h | h <;> simp [abortSession, h]

theorem abortSession_driverIn_quiet {x : Session} {n : Bool} (h : n = false ∨ x.mode = .bam) (i : Nat) (r : AbortReason)
    (s : State) : (abortSession i x r n s).driverIn = s.driverIn := by
  rcases h with h | h <;> simp [abortSession, h]

theorem abortData_length (c : Byte) (g : Pgn) : (abortData c g).length = 8 := by simp [abortData]

theorem abortSession_serves (i : Nat) {x : Session} {s : State} (r : AbortReason) (n : Bool) (hx : s.slot i = some x) :
    Serves i s (abortSession i x r n s) := by
  let y := { x with state := .aborted, abortReason := reasonCode s.cfg r }
  have w : Serves i s (s.setSlot i (some y)) :=
    Serves.write hx ⟨rfl, rfl, rfl, rfl, rfl, rfl, rfl, rfl, rfl, fun _ => rfl⟩
  simp only [abortSession]
  split
  · refine w.trans (.trans (.send i ?_) (.trans (.emit i rfl) (.free i _)))
    exact ⟨abortData_length _ _, _, cmPgn_mem _, _, _, rfl⟩
  · exact w.trans (.trans (.emit i rfl) (.free i _))

/-- What `complete` answers: a receiver's message delivered, or a sender's end reported, and the slot free. -/
theorem complete_eq_ok {i : Nat} {x : Session} {s t : State} (h : complete i x s = .ok t) :
    (x.dir = .rx ∧ ∃ payload, memRead x 0 x.totalLen.toNat = .ok payload ∧
      t = State.free { s.emit (.delivered x.channel x.pgn x.src x.dst x.totalLen payload s.nextMsgId) with
        nextMsgId := s.nextMsgId + 1#64 } i) ∨
    (x.dir = .tx ∧ t = (s.emit (.txCompleted x.channel x.mode x.pgn x.src x.dst)).free i) := by
  simp only [complete] at h
  cases hd : x.dir with
  | tx =>
    rw [hd] at h; cases h
    exact .inr ⟨rfl, by simp [State.free, State.setSlot, State.emit]⟩
  | rx =>
    rw [hd] at h
    simp only at h
    split at h
    · cases h
    · rename_i payload hp
      cases h
      exact .inl ⟨rfl, payload, hp, by simp [State.free, State.setSlot, State.emit]⟩

theorem complete_serves {i : Nat} {x : Session} {s t : State} (h : complete i x s = .ok t) : Serves i s t := by
  rcases complete_eq_ok h with ⟨-, p, -, rfl⟩ | ⟨-, rfl⟩
  · refine .trans ?_ (.free i _)
    exact ⟨rfl, rfl, rfl, rfl, rfl, fun _ _ => rfl, fun y hy => ⟨y, hy, Session.Kin.refl y⟩,
      ⟨[], by simp, by simp, by simp, by simp⟩, ⟨[_], rfl, rfl⟩⟩
  · exact .trans (.emit i rfl) (.free i _)

/-- A sender's session always completes. -/
theorem complete_tx {i : Nat} {x : Session} {s : State} (h : x.dir = .tx) :
    complete i x s = .ok ((s.emit (.txCompleted x.channel x.mode x.pgn x.src x.dst)).free i) := by
  simp [complete, h, State.free, State.setSlot, State.emit]

/-- A receiver's session completes where its whole buffer can be read. -/
theorem complete_rx {i : Nat} {x : Session} {s : State} {p : List Byte} (h : x.dir = .rx)
    (hp : memRead x 0 x.totalLen.toNat = .ok p) :
    complete i x s = .ok (State.free { s.emit (.delivered x.channel x.pgn x.src x.dst x.totalLen p s.nextMsgId) with
        nextMsgId := s.nextMsgId + 1#64 } i) := by
  simp [complete, h, hp, State.free, State.setSlot, State.emit]

/-! ### Offering a control frame (42_session_engine.md R206) -/

/-- A refused offer: the frame is on record and stays pending. -/
theorem offer_refused {now : Millis} {i : Nat} {x : Session} {k : Control} {s : State} (h : s.driverAccepts = false) :
    offer now i x k s =
      .ok ((s.send x.channel (build s.cfg x k).1 (build s.cfg x k).2).setSlot i (some { x with pending := some k })) := by
  simp [offer, h]

/-- An accepted offer: the frame is on record, and the transition listed with it follows. -/
theorem offer_accepted {now : Millis} {i : Nat} {x : Session} {k : Control} {s : State} (h : s.driverAccepts = true) :
    offer now i x k s = onSent i { x with pending := none, lastActivity := now } k
      (s.send x.channel (build s.cfg x k).1 (build s.cfg x k).2) := by
  simp [offer, h]

theorem onSent_serves {i : Nat} {x y : Session} {k : Control} {s t : State} (hx : s.slot i = some x) (hk : x.Kin y)
    (h : onSent i y k s = .ok t) : Serves i s t := by
  have kin : ∀ z : Session, y.Kin z → Serves i s (s.setSlot i (some z)) := fun z hz => Serves.write hx (hk.trans hz)
  cases k
  · cases h; exact kin _ ⟨rfl, rfl, rfl, rfl, rfl, rfl, rfl, rfl, rfl, fun _ => rfl⟩
  · cases h; exact kin _ ⟨rfl, rfl, rfl, rfl, rfl, rfl, rfl, rfl, rfl, fun _ => rfl⟩
  · cases h; exact kin _ ⟨rfl, rfl, rfl, rfl, rfl, rfl, rfl, rfl, rfl, fun _ => rfl⟩
  · exact complete_serves h
  · cases h; exact kin _ ⟨rfl, rfl, rfl, rfl, rfl, rfl, rfl, rfl, rfl, fun _ => rfl⟩

/-- An offer works on its slot alone. -/
theorem offer_serves {now : Millis} {i : Nat} {x : Session} {k : Control} {s t : State} (hx : s.slot i = some x)
    (h : offer now i x k s = .ok t) : Serves i s t := by
  have sent := Serves.send i (ch := x.channel) (build_engineFrame s.cfg x k)
  cases ha : s.driverAccepts with
  | false =>
    rw [offer_refused ha] at h; cases h
    exact sent.trans (.write hx ⟨rfl, rfl, rfl, rfl, rfl, rfl, rfl, rfl, rfl, fun _ => rfl⟩)
  | true =>
    rw [offer_accepted ha] at h
    exact sent.trans (onSent_serves (x := x) (y := { x with pending := none, lastActivity := now }) hx
      ⟨rfl, rfl, rfl, rfl, rfl, rfl, rfl, rfl, rfl, fun _ => rfl⟩ h)

/-! ### Bursts and pacing (42_session_engine.md R216, R217, R238) -/

theorem burstDone_serves {i : Nat} {x : Session} {s : State} (hx : s.slot i = some x) : Serves i s (burstDone i x s) := by
  simp only [burstDone]
  split <;> exact Serves.write hx ⟨rfl, rfl, rfl, rfl, rfl, rfl, rfl, rfl, rfl, fun _ => rfl⟩

theorem dataId_engineFrame (c : Config) (x : Session) {d : List Byte} (h : d.length = 8) : engineFrame c (dataId c x) d :=
  ⟨h, _, dtPgn_mem x.mode, _, _, rfl⟩

theorem txBurstLoop_serves {now : Millis} {i : Nat} : ∀ {n : Nat} {x : Session} {s t : State}, s.slot i = some x →
    txBurstLoop now i n x s = .ok t → Serves i s t := by
  intro n
  induction n with
  | zero => intro x s t hx h; cases h; exact burstDone_serves hx
  | succ n ih =>
    intro x s t hx h
    simp only [txBurstLoop] at h
    split at h
    · cases h
    · rename_i d hd
      have sent : Serves i s (s.send x.channel (dataId s.cfg x) d) :=
        .send i (dataId_engineFrame s.cfg x (dataFrame_length hd))
      split at h
      · refine sent.trans (.trans (.write hx ?_) (ih (State.slot_setSlot_self _ (State.lt_of_slot hx) _) h))
        exact ⟨rfl, rfl, rfl, rfl, rfl, rfl, rfl, rfl, rfl, fun _ => rfl⟩
      · cases h; exact sent

theorem bamPace_serves {now : Millis} {i : Nat} {x : Session} {s t : State} (hx : s.slot i = some x)
    (h : bamPace now i x s = .ok t) : Serves i s t := by
  simp only [bamPace] at h
  split at h
  · split at h
    · cases h
    · rename_i d hd
      have sent : Serves i s (s.send x.channel (dataId s.cfg x) d) :=
        .send i (dataId_engineFrame s.cfg x (dataFrame_length hd))
      have write := Serves.write (s := s.send x.channel (dataId s.cfg x) d) (i := i) (x := x)
        (y := { x with lastActivity := now, nextPkt := x.nextPkt + 1#32, state := .sending }) hx
        ⟨rfl, rfl, rfl, rfl, rfl, rfl, rfl, rfl, rfl, fun _ => rfl⟩
      split at h
      · split at h
        · exact sent.trans (write.trans (complete_serves h))
        · cases h; exact sent.trans write
      · cases h; exact sent
  · cases h; exact .refl i s

/-! ### The service of a slot (42_session_engine.md R207) -/

theorem serviceWork_serves {now : Millis} {i : Nat} {x : Session} {s t : State} (hx : s.slot i = some x)
    (h : serviceWork now i x s = .ok t) : Serves i s t := by
  simp only [serviceWork] at h
  split at h
  · have write := Serves.write hx (y := { x with state := .sending }) ⟨rfl, rfl, rfl, rfl, rfl, rfl, rfl, rfl, rfl, fun _ => rfl⟩
    exact write.trans (txBurstLoop_serves (State.slot_setSlot_self _ (State.lt_of_slot hx) _) h)
  · split at h
    · cases h
    · rename_i u hu
      have offered := offer_serves hx hu
      split at h
      · rename_i y hy
        split at h
        · exact offered.trans (txBurstLoop_serves hy h)
        · cases h; exact offered
      · cases h; exact offered
  · exact txBurstLoop_serves hx h
  · exact txBurstLoop_serves hx h
  · exact bamPace_serves hx h
  · exact bamPace_serves hx h
  · cases h; exact .refl i s

/-- What UPDATE does to a slot it does to that slot alone. -/
theorem serviceSlot_serves {now : Millis} {i : Nat} {x : Session} {s t : State} (hx : s.slot i = some x)
    (h : serviceSlot now i x s = .ok t) : Serves i s t := by
  simp only [serviceSlot] at h
  split at h
  · split at h
    · cases h; exact abortSession_serves i _ _ hx
    · exact serviceWork_serves hx h
  · split at h
    · cases h
    · rename_i u hu
      have offered := offer_serves hx hu
      split at h
      · rename_i y hy
        split at h
        · exact offered.trans (serviceWork_serves hy h)
        · cases h; exact offered
      · cases h; exact offered

end Sys2Proof.Machine
end

