-- ==== Sys2Proof/Laws/Arbiter.lean ====
section
/-! SUPPORT. What UPDATE does to a slot does not depend on what the other slots hold (42_session_engine.md R208): the service of a slot commutes with putting any other slots beside it. -/

namespace Sys2Proof.Machine

/-- `s` seen from a block `w`: slot `i`, the answers to come and the message id are those of `s`, the other slots those of `w`, and what `s` has offered and reported stands behind what `w` had. -/
def State.beside (i : Nat) (w s : State) : State :=
  { w with
    cfg       := s.cfg
    slots     := w.slots.set i (s.slot i)
    nextMsgId := s.nextMsgId
    driverIn  := s.driverIn
    draws     := s.draws
    offered   := w.offered ++ s.offered
    events    := w.events ++ s.events }

section Beside
variable {i : Nat} {w s : State}

@[simp] theorem State.beside_cfg : (State.beside i w s).cfg = s.cfg := rfl
@[simp] theorem State.beside_slots : (State.beside i w s).slots = w.slots.set i (s.slot i) := rfl
@[simp] theorem State.beside_dropCount : (State.beside i w s).dropCount = w.dropCount := rfl
@[simp] theorem State.beside_nextMsgId : (State.beside i w s).nextMsgId = s.nextMsgId := rfl
@[simp] theorem State.beside_out : (State.beside i w s).out = w.out := rfl
@[simp] theorem State.beside_inbox : (State.beside i w s).inbox = w.inbox := rfl
@[simp] theorem State.beside_registry : (State.beside i w s).registry = w.registry := rfl
@[simp] theorem State.beside_driverIn : (State.beside i w s).driverIn = s.driverIn := rfl
@[simp] theorem State.beside_draws : (State.beside i w s).draws = s.draws := rfl
@[simp] theorem State.beside_offered : (State.beside i w s).offered = w.offered ++ s.offered := rfl
@[simp] theorem State.beside_events : (State.beside i w s).events = w.events ++ s.events := rfl
@[simp] theorem State.beside_driverAccepts : (State.beside i w s).driverAccepts = s.driverAccepts := rfl

/-- The slot itself is seen as it is. -/
theorem State.beside_slot_self (hw : i < w.slots.length) : (State.beside i w s).slot i = s.slot i := by
  simp [State.slot, hw]

/-- Every other slot is that of `w`. -/
theorem State.beside_slot_ne {j : Nat} (h : j ≠ i) : (State.beside i w s).slot j = w.slot j := by
  simp [State.slot, List.getElem?_set_ne (Ne.symm h)]

theorem State.beside_setSlot (hs : i < s.slots.length) (x : Option Session) :
    State.beside i w (s.setSlot i x) = (State.beside i w s).setSlot i x := by
  have e := s.slot_setSlot_self hs x
  simp only [State.setSlot] at e ⊢
  simp [State.beside, e]

theorem State.beside_free (hs : i < s.slots.length) : State.beside i w (s.free i) = (State.beside i w s).free i :=
  State.beside_setSlot hs none

theorem State.beside_send (ch : Channel) (id : Word) (d : List Byte) :
    State.beside i w (s.send ch id d) = (State.beside i w s).send ch id d := by
  simp [State.beside, State.send, State.emitted, State.driverAccepts, State.slot]

theorem State.beside_emit (e : Event) : State.beside i w (s.emit e) = (State.beside i w s).emit e := by
  simp [State.beside, State.emit, State.slot]

/-- The next message id taken. -/
theorem State.beside_count (n : BitVec 64) :
    State.beside i w { s with nextMsgId := n } = { State.beside i w s with nextMsgId := n } := rfl

end Beside

/-- An answer seen from a block `w`. -/
def besideOf (i : Nat) (w : State) : Except Fault State → Except Fault State
  | .ok s => .ok (State.beside i w s)
  | .error e => .error e

variable {i : Nat} {w s : State} {x : Session} {now : Millis}

theorem complete_beside (hs : i < s.slots.length) : complete i x (State.beside i w s) = besideOf i w (complete i x s) := by
  simp only [complete]
  cases x.dir with
  | tx =>
    simp only [besideOf]
    rw [← State.beside_setSlot hs, ← State.beside_emit, ← State.beside_free (by simpa using hs)]
  | rx =>
    cases memRead x 0 x.totalLen.toNat with
    | error e => rfl
    | ok p =>
      simp only [besideOf]
      rw [← State.beside_setSlot hs, State.beside_nextMsgId, ← State.beside_emit, ← State.beside_count,
        ← State.beside_free (by simpa using hs)]
      rfl

theorem abortSession_beside (hs : i < s.slots.length) (r : AbortReason) (n : Bool) :
    abortSession i x r n (State.beside i w s) = State.beside i w (abortSession i x r n s) := by
  simp only [abortSession, sendAbort, State.beside_cfg, State.setSlot_cfg]
  split
  · rw [State.beside_free (by simpa using hs), State.beside_emit, State.beside_send, State.beside_setSlot hs]
  · rw [State.beside_free (by simpa using hs), State.beside_emit, State.beside_setSlot hs]

theorem onSent_beside (hs : i < s.slots.length) (k : Control) :
    onSent i x k (State.beside i w s) = besideOf i w (onSent i x k s) := by
  cases k <;> first
    | exact complete_beside hs
    | simp only [onSent, besideOf, State.beside_setSlot hs, State.beside_cfg]

theorem offer_beside (hs : i < s.slots.length) (k : Control) :
    offer now i x k (State.beside i w s) = besideOf i w (offer now i x k s) := by
  simp only [offer, State.beside_driverAccepts, State.beside_cfg, ← State.beside_send]
  split
  · exact onSent_beside (by simpa using hs) k
  · simp only [besideOf, State.beside_setSlot (i := i) (s := s.send _ _ _) (by simpa using hs)]

theorem burstDone_beside (hs : i < s.slots.length) : burstDone i x (State.beside i w s) = State.beside i w (burstDone i x s) := by
  simp only [burstDone]; split <;> rw [State.beside_setSlot hs]

theorem txBurstLoop_beside : ∀ {n : Nat} {x : Session} {s : State}, i < s.slots.length →
    txBurstLoop now i n x (State.beside i w s) = besideOf i w (txBurstLoop now i n x s) := by
  intro n
  induction n with
  | zero => intro x s hs; simp only [txBurstLoop, burstDone_beside hs, besideOf]
  | succ n ih =>
    intro x s hs
    simp only [txBurstLoop]
    cases dataFrame x x.nextPkt (x.sequence x.nextPkt) with
    | error e => rfl
    | ok d =>
      simp only [State.beside_driverAccepts, State.beside_cfg, ← State.beside_send]
      split
      · rw [← State.beside_setSlot (by simpa using hs)]
        exact ih (by simpa using hs)
      · rfl

theorem bamPace_beside (hs : i < s.slots.length) : bamPace now i x (State.beside i w s) = besideOf i w (bamPace now i x s) := by
  simp only [bamPace, State.beside_cfg]
  by_cases h : s.cfg.bamInterval.toNat ≤ (x.elapsed now).toNat
  · simp only [h, if_true]
    cases dataFrame x x.nextPkt x.nextPkt with
    | error e => rfl
    | ok d =>
      simp only [State.beside_driverAccepts, ← State.beside_send]
      split
      · rw [← State.beside_setSlot (by simpa using hs)]
        split
        · exact complete_beside (by simpa using hs)
        · rfl
      · rfl
  · simp only [h, if_false, besideOf]

theorem serviceWork_beside (hw : i < w.slots.length) (hx : s.slot i = some x) :
    serviceWork now i x (State.beside i w s) = besideOf i w (serviceWork now i x s) := by
  have hs := State.lt_of_slot hx
  simp only [serviceWork]
  split
  · rw [← State.beside_setSlot hs]
    exact txBurstLoop_beside (by simpa using hs)
  · rw [offer_beside hs]
    cases h : offer now i x .dpo s with
    | error e => rfl
    | ok t =>
      simp only [besideOf, State.beside_slot_self hw]
      cases ht : t.slot i with
      | none => rfl
      | some y =>
        simp only
        split
        · exact txBurstLoop_beside (State.lt_of_slot ht)
        · rfl
  · exact txBurstLoop_beside hs
  · exact txBurstLoop_beside hs
  · exact bamPace_beside hs
  · exact bamPace_beside hs
  · rfl

/-- The service of a slot, seen from any block it stands in. -/
theorem serviceSlot_beside (hw : i < w.slots.length) (hx : s.slot i = some x) :
    serviceSlot now i x (State.beside i w s) = besideOf i w (serviceSlot now i x s) := by
  have hs := State.lt_of_slot hx
  simp only [serviceSlot]
  split
  · by_cases h : x.timedOut s.cfg now = true
    · simp only [State.beside_cfg, h, if_true, besideOf, abortSession_beside hs]
    · simp only [State.beside_cfg, h, Bool.false_eq_true, if_false]
      exact serviceWork_beside hw hx
  · rw [offer_beside hs]
    rename_i k _
    cases h : offer now i x k s with
    | error e => rfl
    | ok t =>
      simp only [besideOf, State.beside_slot_self hw]
      cases ht : t.slot i with
      | none => rfl
      | some y =>
        simp only
        split
        · exact serviceWork_beside hw ht
        · rfl

/-! ### The turn of a slot -/

section Turn
variable {n m : Nat}

@[simp] theorem State.turn_cfg : (s.turn i n m).cfg = s.cfg := rfl
@[simp] theorem State.turn_dropCount : (s.turn i n m).dropCount = s.dropCount := rfl
@[simp] theorem State.turn_nextMsgId : (s.turn i n m).nextMsgId = s.nextMsgId + BitVec.ofNat 64 m := rfl
@[simp] theorem State.turn_out : (s.turn i n m).out = s.out := rfl
@[simp] theorem State.turn_inbox : (s.turn i n m).inbox = s.inbox := rfl
@[simp] theorem State.turn_registry : (s.turn i n m).registry = s.registry := rfl
@[simp] theorem State.turn_driverIn : (s.turn i n m).driverIn = s.driverIn.drop n := rfl
@[simp] theorem State.turn_draws : (s.turn i n m).draws = s.draws + n := rfl
@[simp] theorem State.turn_offered : (s.turn i n m).offered = s.offered := rfl
@[simp] theorem State.turn_events : (s.turn i n m).events = s.events := rfl
@[simp] theorem State.turn_slots_length : (s.turn i n m).slots.length = s.slots.length := by simp [State.turn]

/-- In its turn a slot holds what it held. -/
theorem State.turn_slot_self (h : i < s.slots.length) : (s.turn i n m).slot i = s.slot i := by
  simp [State.turn, State.slot, h]

/-- In the turn of a slot no other slot is valid. -/
theorem State.turn_slot_ne {j : Nat} (h : j ≠ i) : (s.turn i n m).slot j = none := by
  by_cases hj : j < s.slots.length
  · simp [State.turn, State.slot, hj, h]
  · simp [State.turn, State.slot, List.getElem?_eq_none (l := List.range s.slots.length) (i := j) (by simpa using hj)]

/-- In the turn of a slot its session is the only one live. -/
theorem State.turn_only (h : s.slot i = some x) : (s.turn i n m).only i x :=
  ⟨(State.turn_slot_self (State.lt_of_slot h)).trans h, fun _ hj => State.turn_slot_ne hj⟩

end Turn

end Sys2Proof.Machine
end

