-- ==== Sys2Proof/Laws/Decode.lean ====
section
/-! SUPPORT. Each operand read back as it was written: the little-endian words, the narrow operands in their bytes, a list of filters. -/

namespace Sys2Proof

theorem leBytes_four {w : Nat} (v : BitVec w) :
    leBytes 4 v = [v.extractLsb' 0 8, v.extractLsb' 8 8, v.extractLsb' 16 8, v.extractLsb' 24 8] := rfl

theorem leBytes_eight {w : Nat} (v : BitVec w) :
    leBytes 8 v = leBytes 4 v ++
      [v.extractLsb' 32 8, v.extractLsb' 40 8, v.extractLsb' 48 8, v.extractLsb' 56 8] := rfl

/-- A word is put together from its four bytes. -/
theorem word32_extract (v : BitVec 32) :
    word32 (v.extractLsb' 0 8) (v.extractLsb' 8 8) (v.extractLsb' 16 8) (v.extractLsb' 24 8) = v := by
  refine BitVec.eq_of_getLsbD_eq fun i hi => ?_
  simp only [word32, BitVec.getLsbD_append, BitVec.getLsbD_extractLsb']
  rcases (by omega : i < 8 ∨ (8 ≤ i ∧ i < 16) ∨ (16 ≤ i ∧ i < 24) ∨ (24 ≤ i ∧ i < 32)) with h | h | h | h
  · simp [h]
  · simp [show ¬i < 8 by omega, show i - 8 < 8 by omega, show 8 + (i - 8) = i by omega]
  · simp [show ¬i < 8 by omega, show ¬i - 8 < 8 by omega, show i - 8 - 8 < 8 by omega, show 16 + (i - 8 - 8) = i by omega]
  · simp [show ¬i < 8 by omega, show ¬i - 8 < 8 by omega, show ¬i - 8 - 8 < 8 by omega, show i - 8 - 8 - 8 < 8 by omega,
      show 24 + (i - 8 - 8 - 8) = i by omega]

/-- Reading a 32-bit operand as it was written. -/
@[simp] theorem readWord_leBytes (v : Word) (r : List Byte) : readWord (leBytes 4 v ++ r) = some (v, r) := by
  simp [leBytes_four, readWord, word32_extract]

@[simp] theorem readWord_leBytes_end (v : Word) : readWord (leBytes 4 v) = some (v, []) := by
  simpa using readWord_leBytes v []

/-- Reading a 64-bit operand as it was written. -/
@[simp] theorem readName_leBytes (v : NameWord) (r : List Byte) : readName (leBytes 8 v ++ r) = some (v, r) := by
  have hlo : leBytes 4 v = leBytes 4 (v.extractLsb' 0 32) := by
    simp only [leBytes_four]
    congr 1 <;> [skip; congr 1 <;> [skip; congr 1 <;> [skip; congr 1]]] <;>
      (refine BitVec.eq_of_getLsbD_eq fun i hi => ?_; simp [BitVec.getLsbD_extractLsb'])
  have hhi : [v.extractLsb' 32 8, v.extractLsb' 40 8, v.extractLsb' 48 8, v.extractLsb' 56 8] =
      leBytes 4 (v.extractLsb' 32 32) := by
    simp only [leBytes_four]
    congr 1 <;> [skip; congr 1 <;> [skip; congr 1 <;> [skip; congr 1]]] <;>
      (refine BitVec.eq_of_getLsbD_eq fun i hi => ?_
       simp only [BitVec.getLsbD_extractLsb', hi, decide_true, Bool.true_and]
       simp [← Nat.add_assoc]; omega)
  have whole : (v.extractLsb' 32 32 ++ v.extractLsb' 0 32 : BitVec (32 + 32)) = v := by
    refine BitVec.eq_of_getLsbD_eq fun i hi => ?_
    simp only [BitVec.getLsbD_append, BitVec.getLsbD_extractLsb']
    by_cases h : i < 32
    · simp [h]
    · simp [h, show i - 32 < 32 by omega, show 32 + (i - 32) = i by omega]
  rw [leBytes_eight, hlo, hhi]
  simp [readName, whole]

@[simp] theorem readName_leBytes_end (v : NameWord) : readName (leBytes 8 v) = some (v, []) := by
  simpa using readName_leBytes v []

@[simp] theorem bitOf_byteOfBit (b : Bool) : bitOf (byteOfBit b) = b := by cases b <;> rfl

@[simp] theorem idTypeOf_byteOfIdType (t : IdType) : idTypeOf (byteOfIdType t) = t := by cases t <;> rfl

@[simp] theorem dirOf_byteOfDir (d : Dir) : dirOf (byteOfDir d) = d := by cases d <;> rfl

@[simp] theorem prioOf_byteOfPrio (p : Option (BitVec 3)) : prioOf (byteOfPrio p) = p := by
  cases p with
  | none => rfl
  | some p => revert p; decide

@[simp] theorem selector_setWidth (f : BitVec 4) : (f.setWidth 8).extractLsb' 0 4 = f := by revert f; decide

/-- Reading a list of filters as it was written. -/
@[simp] theorem readFilters_filterBytes (fs : List Filter) (r : List Byte) :
    readFilters fs.length (fs.flatMap filterBytes ++ r) = some (fs, r) := by
  induction fs with
  | nil => rfl
  | cons f fs ih =>
    simp [readFilters, filterBytes, readByte, ih]

end Sys2Proof
end

