-- ==== Sys2Proof/Laws/Frames.lean ====
section
/-! SUPPORT. The fields and frames of Machine/Operands.lean in the words of Safety.lean: little-endian numbers, and the frame a session owes (30_encoding.md R92 to R104). -/

namespace Sys2Proof.Machine

/-! ### Little-endian numbers -/

theorem leBytes_eq_littleEndian {w : Nat} (n : Nat) (v : BitVec w) : leBytes n v = littleEndian n v.toNat := by
  simp only [leBytes, littleEndian]
  refine List.map_congr_left fun i _ => ?_
  apply BitVec.eq_of_toNat_eq
  simp [BitVec.extractLsb'_toNat, Nat.shiftRight_eq_div_pow, Nat.pow_mul]

theorem word16_toNat (a b : Byte) : (word16 a b).toNat = leNumber [a, b] := by
  have := a.isLt; have := b.isLt
  simp only [word16, BitVec.toNat_append, leNumber, Nat.shiftLeft_eq, Nat.or_comm]
  rw [Nat.or_comm, Nat.mul_comm, ← Nat.two_pow_add_eq_or_of_lt (by omega)]; omega

theorem word24_toNat (a b c : Byte) : (word24 a b c).toNat = leNumber [a, b, c] := by
  have := a.isLt; have := b.isLt; have := c.isLt
  simp only [word24, BitVec.toNat_append, leNumber, Nat.shiftLeft_eq]
  rw [Nat.mul_comm c.toNat, ← Nat.two_pow_add_eq_or_of_lt (by omega), Nat.mul_comm (2 ^ 8 * c.toNat + b.toNat), ← Nat.two_pow_add_eq_or_of_lt (by omega)]
  omega

theorem word32_toNat (a b c d : Byte) : (word32 a b c d).toNat = leNumber [a, b, c, d] := by
  have := a.isLt; have := b.isLt; have := c.isLt; have := d.isLt
  simp only [word32, BitVec.toNat_append, leNumber, Nat.shiftLeft_eq]
  rw [Nat.mul_comm d.toNat, ← Nat.two_pow_add_eq_or_of_lt (by omega), Nat.mul_comm (2 ^ 8 * d.toNat + c.toNat),
    ← Nat.two_pow_add_eq_or_of_lt (by omega), Nat.mul_comm (2 ^ 8 * (2 ^ 8 * d.toNat + c.toNat) + b.toNat),
    ← Nat.two_pow_add_eq_or_of_lt (by omega)]
  omega

theorem pgnField_toNat (f : Frame) : f.pgnField.toNat = pgnNumber f := by
  simp only [Frame.pgnField, BitVec.toNat_setWidth, word24_toNat, pgnNumber]

/-- A session's PGN is the frame's, as a bit vector or as a number. -/
theorem pgn_eq_pgnField {f : Frame} {g : Pgn} : g = f.pgnField ↔ g.toNat = pgnNumber f := by
  rw [← pgnField_toNat, BitVec.toNat_inj]

theorem pgnField_eq (f : Frame) : f.pgnField = BitVec.ofNat 18 (pgnNumber f) := by
  rw [← pgnField_toNat, BitVec.ofNat_toNat, BitVec.setWidth_eq]

theorem rtsLen_etp (f : Frame) : (f.rtsLen .etp).toNat = leNumber [f.byte 1, f.byte 2, f.byte 3, f.byte 4] := word32_toNat ..

theorem rtsLen_tp (f : Frame) : (f.rtsLen .tp).toNat = leNumber [f.byte 1, f.byte 2] := by
  have := (word16 (f.byte 1) (f.byte 2)).isLt
  simp only [Frame.rtsLen, BitVec.toNat_setWidth, ← word16_toNat]; omega

theorem rtsLen_bam (f : Frame) : (f.rtsLen .bam).toNat = leNumber [f.byte 1, f.byte 2] := rtsLen_tp f

theorem rtsLen_toNat {m : Mode} (hm : m ≠ .bam) (f : Frame) : (f.rtsLen m).toNat =
    if m = .etp then leNumber [f.byte 1, f.byte 2, f.byte 3, f.byte 4] else leNumber [f.byte 1, f.byte 2] := by
  cases m
  · exact rtsLen_tp f
  · exact absurd rfl hm
  · exact rtsLen_etp f

theorem ctsNext_toNat {m : Mode} (hm : m ≠ .bam) (f : Frame) : (f.ctsNext m).toNat =
    if m = .etp then leNumber [f.byte 2, f.byte 3, f.byte 4] else (f.byte 2).toNat := by
  cases m
  · have := (f.byte 2).isLt
    simp [Frame.ctsNext, BitVec.toNat_setWidth]; omega
  · exact absurd rfl hm
  · exact word24_toNat ..

/-! ### The frames offered -/

theorem State.answer_zero (s : State) : s.answer 0 = s.driverAccepts := rfl

/-- The answers to the offers that follow one. -/
theorem State.send_answer (s : State) (ch : Channel) (id : Word) (d : List Byte) (k : Nat) :
    (s.send ch id d).answer k = s.answer (k + 1) := by
  simp [State.answer, Nat.add_comm, Nat.add_left_comm]

/-- The frames that follow one. -/
theorem State.send_frame (s : State) (ch : Channel) (id : Word) (d : List Byte) (k : Nat) (c : Channel) (g : Pgn) (receiver sender : Addr)
    (e : List Byte) : (s.send ch id d).frame k c g receiver sender e = s.frame (k + 1) c g receiver sender e := by
  simp [State.frame, State.send_answer, Nat.add_comm, Nat.add_left_comm]

@[simp] theorem State.setSlot_frame (s : State) (i : Nat) (x : Option Session) (k : Nat) (c : Channel) (g : Pgn) (receiver sender : Addr)
    (e : List Byte) : (s.setSlot i x).frame k c g receiver sender e = s.frame k c g receiver sender e := rfl

@[simp] theorem State.setSlot_answer (s : State) (i : Nat) (x : Option Session) (k : Nat) :
    (s.setSlot i x).answer k = s.answer k := rfl

@[simp] theorem State.setSlot_owed (s : State) (i : Nat) (x : Option Session) (y : Session) (k : Control) :
    (s.setSlot i x).owed y k = s.owed y k := rfl

@[simp] theorem State.setSlot_afterCts (s : State) (i : Nat) (x : Option Session) (y : Session) (now : Millis) :
    (s.setSlot i x).afterCts y now = s.afterCts y now := rfl

@[simp] theorem cmPgn_eq (m : Mode) : cmPgn m = m.cm := by cases m <;> rfl

@[simp] theorem dtPgn_eq (m : Mode) : dtPgn m = m.dt := by cases m <;> rfl

/-- The abort frame of a session's end or an RTS's rejection. -/
theorem sendAbort_offered (ch : Channel) (m : Mode) (receiver sender : Addr) (r : AbortReason) (g : Pgn) (s : State) :
    (sendAbort ch m receiver sender r g s).offered =
      s.offered ++ [s.abortFrame ch m receiver sender (reasonCode s.cfg r) g.toNat] := by
  simp [sendAbort, State.abortFrame, State.frame, State.emitted, transportId, abortData, pgnBytes, leBytes_eq_littleEndian, State.answer_zero]

/-- The grant of a CTS, where the next packet is at most one past the last. -/
theorem ctsCount_eq {c : Config} {x : Session} (h : x.nextPkt.toNat ≤ x.totalPkts.toNat + 1) :
    ctsCount c x = BitVec.ofNat 8 (x.grant c) := by
  have := x.totalPkts.isLt
  have e : (x.totalPkts.setWidth 32 - x.nextPkt + 1#32).toNat = x.totalPkts.toNat + 1 - x.nextPkt.toNat := by bv_omega
  rw [ctsCount, e, Session.grant]

/-- What a session offers is the frame it owes. -/
theorem build_eq_owed {s : State} {x : Session} {k : Control} (hc : k = .cts → x.nextPkt.toNat ≤ x.totalPkts.toNat + 1)
    (hd : k = .dpo → 1 ≤ x.nextPkt.toNat) :
    ⟨s.emitted x.channel (build s.cfg x k).1 (build s.cfg x k).2, s.driverAccepts⟩ = s.owed x k := by
  cases k
  · cases h : x.mode <;>
      simp [build, State.owed, State.frame, State.emitted, transportId, rtsData, h, pgnBytes, leBytes_eq_littleEndian, State.answer_zero]
  · have e := ctsCount_eq (c := s.cfg) (hc rfl)
    cases h : x.mode <;>
      simp [build, State.owed, State.frame, State.emitted, transportId, ctsData, e, h, pgnBytes, leBytes_eq_littleEndian, State.answer_zero]
  · have e : (x.nextPkt - 1#32).toNat = x.nextPkt.toNat - 1 := by have := hd rfl; bv_omega
    simp [build, State.owed, State.frame, State.emitted, transportId, dpoData, pgnBytes, leBytes_eq_littleEndian, State.answer_zero, e, pgnEtpCm]
  · cases h : x.mode <;>
      simp [build, State.owed, State.frame, State.emitted, transportId, eomaData, h, pgnBytes, leBytes_eq_littleEndian, State.answer_zero]
  · simp [build, State.owed, State.frame, State.emitted, transportId, announceData, pgnBytes, leBytes_eq_littleEndian, State.answer_zero,
      pgnTpCm, globalAddr]

end Sys2Proof.Machine
end

