-- ==== Sys2Proof/Laws/Receive.lean ====
section
/-! SUPPORT. Which handler a received frame reaches (42_session_engine.md R211 to R213), and how a command's end becomes the change a statement names. -/

namespace Sys2Proof.Machine

/-! ### The end of a command -/

/-- A command that ends by `finish` after a change of the state completes with that change. -/
theorem completes_of_finish {i : Instr} {s t : State} {c : Change} (h : exec i s = finish (.ok t)) (ht : s.changed t c) :
    completes i s c fun _ => True :=
  ⟨_, h, ⟨ht.cfg, ht.inbox, ht.registry, ht.slots, ht.dropCount, ht.nextMsgId, ht.driverIn, ht.offered, ht.events⟩,
   rfl, trivial⟩

/-- What a drop changes. -/
theorem changed_dropFrame (s : State) (c : DropCause) : s.changed (s.dropFrame c) { slots := s.slots, drops := 1 } :=
  ⟨rfl, rfl, rfl, rfl, rfl, by simp, by simp, by simp, by simp⟩

/-- What writing a slot changes. -/
theorem changed_setSlot (s : State) (i : Nat) (x : Option Session) :
    s.changed (s.setSlot i x) { slots := s.slots.set i x } :=
  ⟨rfl, rfl, rfl, rfl, by simp, by simp, by simp, by simp, by simp⟩

/-- What the end of a session changes: a frame goes out where the peer is notified and the session is no BAM. -/
theorem changed_abortSession (s : State) (i : Nat) (x : Session) (r : AbortReason) (n : Bool) :
    s.changed (abortSession i x r n s) (s.ending i x (reasonCode s.cfg r) (n && x.mode != .bam)) := by
  by_cases hx : x.mode = .bam
  · exact ⟨by simp, by simp, by simp, by simp [State.ending], by simp [State.ending], by simp [State.ending],
      by simp [State.ending, hx, abortSession_driverIn_quiet],
      by simp [State.ending, hx, abortSession_offered_quiet], by simp [State.ending]⟩
  · cases n
    · exact ⟨by simp, by simp, by simp, by simp [State.ending], by simp [State.ending], by simp [State.ending],
        by simp [State.ending, abortSession_driverIn_quiet],
        by simp [State.ending, abortSession_offered_quiet], by simp [State.ending]⟩
    · refine ⟨by simp, by simp, by simp, by simp [State.ending], by simp [State.ending], by simp [State.ending],
        by simp [State.ending, hx, abortSession_driverIn_notify], ?_, by simp [State.ending]⟩
      rw [abortSession_offered_notify hx]
      simp [State.ending, hx, State.abortFrame, State.frame, State.emitted, transportId, abortData, pgnBytes, leBytes_eq_littleEndian,
        State.answer_zero]

/-- What the end of a TP or ETP session changes where the peer is notified. -/
theorem changed_abortSession_notify (s : State) (i : Nat) {x : Session} (hx : x.mode ≠ .bam) (r : AbortReason) :
    s.changed (abortSession i x r true s) (s.ending i x (reasonCode s.cfg r) true) := by
  have h := changed_abortSession s i x r true
  rwa [show (true && x.mode != .bam) = true by simp [hx]] at h

/-- What the end of a session changes where the peer is not notified. -/
theorem changed_abortSession_quiet (s : State) (i : Nat) (x : Session) (r : AbortReason) :
    s.changed (abortSession i x r false s) (s.ending i x (reasonCode s.cfg r) false) := by
  simpa using changed_abortSession s i x r false

/-- What the rejection of an RTS changes: one abort frame is offered. -/
theorem changed_sendAbort (s : State) (ch : Channel) (m : Mode) (receiver sender : Addr) (r : AbortReason) (g : Pgn) :
    s.changed (sendAbort ch m receiver sender r g s)
      { slots := s.slots, offers := [s.abortFrame ch m receiver sender (reasonCode s.cfg r) g.toNat] } :=
  ⟨rfl, rfl, rfl, rfl, by simp [sendAbort], by simp [sendAbort], by simp [sendAbort],
   sendAbort_offered .., by simp [sendAbort]⟩

/-! ### Routing -/

theorem State.isInternal_ne_global {s : State} {ch : Channel} {a : Addr} (h : s.isInternal ch a = true) : a ≠ globalAddr := by
  rintro rfl; simp [State.isInternal] at h

/-- The top bits of a 29-bit identifier are zero. -/
theorem reserved_zero {raw : Word} (h : raw.toNat < 2 ^ 29) : raw.extractLsb' 29 3 = 0#3 := by
  apply BitVec.eq_of_toNat_eq
  simp [BitVec.extractLsb'_toNat, Nat.shiftRight_eq_div_pow]; omega

section Routed
variable {s : State} {f : Frame} {g : Pgn} {da sa : Addr}

/-- A frame of the engine runs `tseRx`. -/
theorem Received.exec (h : Received s f g da sa) (hg : isTransportPgn g = true) :
    exec (.rxFrame f) s = finish (tseRx f s) := by
  have hc : channelIllegal s.cfg f.channel = false := by simp [channelIllegal]; exact h.channel
  have : frameIllegal s.cfg f = false := by simp [frameIllegal, hc, h.length, h.data]
  simp [Machine.exec, execRxFrame, this, routeFrame, h.extended, reserved_zero h.reserved, h.pgn, hg]

/-- Past the length check. -/
theorem Received.tseRx (h : Received s f g da sa) : tseRx f s =
    if da != globalAddr && !s.isInternal f.channel da then .ok s
    else if badDestination f g da then .ok (s.dropFrame .badDestination)
    else if g = pgnTpCm then rxControl f .tp (tpControlKind (f.byte 0)) sa da s
    else if g = pgnEtpCm then rxControl f .etp (etpControlKind (f.byte 0)) sa da s
    else if g = pgnTpDt then
      if da = globalAddr then rxBamData f sa s else rxData f .tp sa da s
    else rxData f .etp sa da s := by
  have : ¬f.length.toNat < 8 := by simp [h.length]
  simp [Machine.tseRx, this, h.pgn, h.da, h.sa]

/-- A control frame of a mode to an internal address reaches the handler of its control byte. -/
theorem Received.control {m : Mode} (hm : m ≠ .bam) (h : Received s f m.cm da sa) (hi : s.isInternal f.channel da = true)
    (hb : m = .tp → f.byte 0 ≠ 0x20) : Machine.exec (.rxFrame f) s =
      finish (rxControl f m (if m = .etp then etpControlKind (f.byte 0) else tpControlKind (f.byte 0)) sa da s) := by
  have hda := State.isInternal_ne_global hi
  rw [h.exec (by cases m <;> decide), h.tseRx]
  cases m
  · have : tpControlKind (f.byte 0) ≠ some .announce := by
      have := hb rfl
      simp only [tpControlKind, this, if_false]; (repeat' split) <;> simp
    simp [hda, hi, badDestination, this, Mode.cm, pgnTpCm]
  · exact absurd rfl hm
  · simp [hda, hi, badDestination, Mode.cm, pgnTpCm, pgnEtpCm]

/-- A data frame of a mode to an internal address. -/
theorem Received.dataFrame {m : Mode} (hm : m ≠ .bam) (h : Received s f m.dt da sa) (hi : s.isInternal f.channel da = true) :
    Machine.exec (.rxFrame f) s = finish (rxData f m sa da s) := by
  have hda := State.isInternal_ne_global hi
  rw [h.exec (by cases m <;> decide), h.tseRx]
  cases m
  · simp [hda, hi, badDestination, Mode.dt, pgnTpCm, pgnEtpCm, pgnTpDt]
  · exact absurd rfl hm
  · simp [hda, hi, badDestination, Mode.dt, pgnTpCm, pgnEtpCm, pgnTpDt]

/-- A BAM announce. -/
theorem Received.announce (h : Received s f 0xEC00 0xFF sa) (hb : f.byte 0 = 0x20) :
    Machine.exec (.rxFrame f) s = finish (.ok (rxAnnounce f sa s)) := by
  rw [h.exec (by decide), h.tseRx]
  simp [globalAddr, badDestination, hb, tpControlKind, pgnTpCm, rxControl]

/-- A broadcast data frame. -/
theorem Received.bamData (h : Received s f 0xEB00 0xFF sa) :
    Machine.exec (.rxFrame f) s = finish (rxBamData f sa s) := by
  rw [h.exec (by decide), h.tseRx]
  simp [globalAddr, badDestination, pgnTpCm, pgnTpDt, pgnEtpCm]

end Routed

/-! ### The session a frame is for -/

/-- A CTS or an EOMA finds its sender. -/
theorem txTarget_ok {s : State} {f : Frame} {m : Mode} {sa da : Addr} {i : Nat} {x : Session} (hs : s.keysUnique)
    (hx : s.holds i x f.channel da sa .tx) (hm : x.mode = m) (hg : x.pgn.toNat = pgnNumber f) :
    txTarget f m sa da s = .ok (i, x) := by
  simp [txTarget, State.findSlot_of_holds hs hx, hm, pgn_eq_pgnField.mpr hg]

/-- A CTS or an EOMA that finds no sender of its mode and PGN is dropped. -/
theorem txTarget_error {s : State} {f : Frame} {m : Mode} {sa da : Addr} (hs : s.keysUnique)
    (h : s.keyFree f.channel da sa .tx ∨
      ∃ i x, s.holds i x f.channel da sa .tx ∧ (x.mode ≠ m ∨ x.pgn.toNat ≠ pgnNumber f)) :
    ∃ cause, txTarget f m sa da s = .error cause := by
  rcases h with h | ⟨i, x, hx, h⟩
  · exact ⟨.noSession, by simp [txTarget, State.findSlot_eq_none.mpr h]⟩
  · rw [txTarget, State.findSlot_of_holds hs hx]
    by_cases hm : x.mode = m
    · have : x.pgn ≠ f.pgnField := by
        rcases h with h | h
        · exact absurd hm h
        · exact fun e => h (pgn_eq_pgnField.mp e)
      exact ⟨.pgnMismatch, by simp [hm, this]⟩
    · exact ⟨.protocolMismatch, by simp [hm]⟩

end Sys2Proof.Machine
end

