-- ==== Sys2Proof/Laws/Good.lean ====
section
/-! SUPPORT. What a good session and a good state say, part by part, and what packets and buffers come to in one (Safety.lean). -/

namespace Sys2Proof.Machine

/-- The parts of `Session.wf`, as propositions. -/
structure Session.Good (c : Config) (x : Session) : Prop where
  channel  : x.channel.toNat < c.numChannels
  global   : x.mode = .bam ↔ x.dst = globalAddr
  state    : x.legalState = true
  pending  : x.legalPending = true
  lenPos   : 1 ≤ x.totalLen.toNat
  lenMax   : x.totalLen.toNat ≤ x.mode.maxLen
  count    : x.totalPkts.toNat = (x.totalLen.toNat + 6) / 7
  nextPos  : 1 ≤ x.nextPkt.toNat
  nextMax  : x.nextPkt.toNat ≤ x.totalPkts.toNat + 1
  bam      : x.mode = .bam → x.nextPkt.toNat ≤ x.totalPkts.toNat
  grant    : x.holdsGrant = true → x.nextPkt.toNat + x.burstLeft.toNat ≤ x.totalPkts.toNat + 1
  offset   : x.mode = .etp → x.dir = .tx → x.state = .sending →
               x.dpoOffset.toNat < x.nextPkt.toNat ∧ x.nextPkt.toNat + x.burstLeft.toNat ≤ x.dpoOffset.toNat + 256
  bufWf    : x.buf.wf = true
  bufBound : ∀ c ∈ x.buf, c.1 < x.totalLen.toNat
  filled   : ∀ j, j < x.filledLen → (x.buf.byte j).isSome = true

theorem packetCount_eq (n : Nat) : packetCount n = (n + 6) / 7 := rfl

theorem Session.allPackets_iff {x : Session} : x.allPackets = true ↔ x.totalPkts.toNat < x.nextPkt.toNat := by
  simp [Session.allPackets]

/-- A good session, part by part. -/
theorem Session.wf_iff {c : Config} {x : Session} : x.wf c = true ↔ x.Good c := by
  constructor
  · intro h
    simp only [Session.wf, Session.packetsInRange, Session.grantInRange, Session.bufferFilled, Bool.and_eq_true,
      decide_eq_true_eq, Bool.or_eq_true, Bool.not_eq_true', beq_iff_eq, bne_iff_ne, ne_eq, List.all_eq_true,
      Memory.bytes_isSome, packetCount_eq] at h
    obtain ⟨⟨⟨⟨⟨⟨h1, h2⟩, h3⟩, h4⟩, ⟨⟨⟨⟨h5, h6⟩, h7⟩, h8⟩, h9⟩, h10⟩, h11, h12⟩, ⟨h13, h14⟩, h15⟩ := h
    refine ⟨h1, by by_cases hm : x.mode = .bam <;> by_cases hd : x.dst = globalAddr <;> simp [hm, hd] at h2 ⊢, h3, h4, h5, h6, of_decide_eq_true h7,
      h8, h9, fun hm => ?_, fun hg => ?_, fun hm hd hs => ?_, h13, h14, fun j hj => by simpa using h15 j hj⟩
    · rcases h10 with h | h
      · exact absurd hm h
      · have := mt (Session.allPackets_iff (x := x)).mpr (by simp [h]); omega
    · rcases h11 with h | h
      · simp [h] at hg
      · exact h
    · rcases h12 with h | h
      · simp [hm, hd, hs] at h
      · exact h
  · intro h
    simp only [Session.wf, Session.packetsInRange, Session.grantInRange, Session.bufferFilled, Bool.and_eq_true,
      decide_eq_true_eq, Bool.or_eq_true, Bool.not_eq_true', beq_iff_eq, bne_iff_ne, ne_eq, List.all_eq_true,
      Memory.bytes_isSome, packetCount_eq]
    have hg := h.global
    refine ⟨⟨⟨⟨⟨⟨h.channel, ?_⟩, h.state⟩, h.pending⟩, ⟨⟨⟨⟨h.lenPos, h.lenMax⟩, decide_eq_true h.count⟩, h.nextPos⟩, h.nextMax⟩, ?_⟩, ?_, ?_⟩,
      ⟨h.bufWf, h.bufBound⟩, fun j hj => by simpa using h.filled j hj⟩
    · by_cases hm : x.mode = .bam <;> by_cases hd : x.dst = globalAddr <;> simp [hm, hd] at hg ⊢
    · by_cases hm : x.mode = .bam
      · have := h.bam hm
        exact .inr (by simpa [Session.allPackets] using this)
      · exact .inl hm
    · cases hh : x.holdsGrant
      · exact .inl rfl
      · exact .inr (h.grant hh)
    · by_cases hh : (x.mode = .etp ∧ x.dir = .tx) ∧ x.state = .sending
      · exact .inr (h.offset hh.1.1 hh.1.2 hh.2)
      · refine .inl ?_
        cases hb : (x.mode == .etp && x.dir == .tx && x.state == .sending)
        · rfl
        · simp at hb; exact absurd hb hh

/-- A slot of a good state holds a good session. -/
theorem State.wf_session {s : State} (h : s.wf) {i : Nat} {x : Session} (hx : s.slot i = some x) : x.Good s.cfg :=
  Session.wf_iff.mp (State.sessionsWf_iff.mp h.2.2.1 i x hx)

theorem State.wf_keys {s : State} (h : s.wf) : s.keysUnique := h.2.2.2

/-- The offset of a packet within the message. -/
theorem Session.offset_toNat {x : Session} {k : BitVec 32} (h1 : 1 ≤ k.toNat) (h2 : k.toNat ≤ x.totalPkts.toNat) :
    (packetOffset k).toNat = 7 * (k.toNat - 1) := by
  have := x.totalPkts.isLt
  simp only [packetOffset, BitVec.toNat_mul]
  have e : (k - 1#32).toNat = k.toNat - 1 := by bv_omega
  rw [e]; simp; omega

namespace Session.Good
variable {c : Config} {x : Session} (h : x.Good c)
include h

/-- How many bytes a packet carries. -/
theorem packetBytes_eq {k : BitVec 32} (h1 : 1 ≤ k.toNat) (h2 : k.toNat ≤ x.totalPkts.toNat) :
    packetBytes x (packetOffset k) = min (7 * k.toNat) x.totalLen.toNat - 7 * (k.toNat - 1) := by
  have hc := h.count
  have ho := Session.offset_toNat h1 h2
  have e : (x.totalLen - packetOffset k).toNat = x.totalLen.toNat - 7 * (k.toNat - 1) := by
    have : (packetOffset k).toNat ≤ x.totalLen.toNat := by omega
    bv_omega
  simp only [packetBytes, bytesPerPacket, e]; omega

/-- A packet carries at least one byte, at most seven, and none past the end. -/
theorem packet_bounds {k : Nat} (h1 : 1 ≤ k) (h2 : k ≤ x.totalPkts.toNat) :
    7 * (k - 1) < x.totalLen.toNat ∧ 7 * (k - 1) < min (7 * k) x.totalLen.toNat := by
  have hc := h.count
  omega

/-- A data frame of the next packet is stored, where it belongs and nowhere else. -/
theorem storePacket_ok {f : Frame} (hf : f.data.length = 8) (hk : x.nextPkt.toNat ≤ x.totalPkts.toNat) :
    ∃ buf, storePacket f x = .ok { x with buf := buf } ∧ x.stores f buf := by
  have h1 := h.nextPos
  have ho := Session.offset_toNat h1 hk
  have hb := h.packetBytes_eq h1 hk
  have hl : ((f.data.drop 1).take (packetBytes x (packetOffset x.nextPkt))).length =
      min (7 * x.nextPkt.toNat) x.totalLen.toNat - 7 * (x.nextPkt.toNat - 1) := by simp [hf, hb]; omega
  refine ⟨x.buf.setBytes (7 * (x.nextPkt.toNat - 1)) ((f.data.drop 1).take (packetBytes x (packetOffset x.nextPkt))),
    memWrite_eq_ok.mpr ⟨by rw [hl, ho]; have := h.packet_bounds h1 hk; omega, by rw [ho]⟩, Memory.setBytes_wf _ h.bufWf _, fun j => ?_⟩
  split
  · rename_i hj
    obtain ⟨i, rfl⟩ := Nat.exists_eq_add_of_le hj.1
    have hi : i < ((f.data.drop 1).take (packetBytes x (packetOffset x.nextPkt))).length := by omega
    rw [Memory.byte_setBytes_of_inside _ _ _ hi]
    have : 1 + i < f.data.length := by rw [hl] at hi; omega
    simp [List.getElem_take, Nat.add_comm i 1, this]
  · rename_i hj
    exact Memory.byte_setBytes_of_outside _ _ _ (by omega)

end Session.Good

/-! ### A whole message -/

/-- A buffer filled to the end reads as a message. -/
theorem message_of_filled {m : Memory} {len : Nat} (h : ∀ j, j < len → (m.byte j).isSome = true) :
    ∃ payload, m.bytes 0 len = some payload ∧ m.message len payload := by
  obtain ⟨p, hp⟩ := Option.isSome_iff_exists.mp ((Memory.bytes_isSome (m := m) (off := 0)).mpr (by simpa using h))
  obtain ⟨hl, hb⟩ := Memory.bytes_eq_some.mp hp
  refine ⟨p, hp, hl, fun j hj => ?_⟩
  have := hb j (by omega)
  simpa [hl, hj] using this

theorem memRead_whole {x : Session} {p : List Byte} (h : x.buf.bytes 0 x.totalLen.toNat = some p) :
    memRead x 0 x.totalLen.toNat = .ok p := memRead_written (by omega) h

/-- After the last packet the buffer holds the whole message. -/
theorem Session.Good.stores_last {c : Config} {x : Session} (h : x.Good c) (hd : x.dir = .rx) {f : Frame} (hf : f.data.length = 8)
    {buf : Memory} (hs : x.stores f buf) (hk : x.nextPkt.toNat = x.totalPkts.toNat) :
    ∀ j, j < x.totalLen.toNat → (buf.byte j).isSome = true := by
  intro j hj
  have hc := h.count
  rw [hs.2 j]
  split
  · rename_i hj'
    have : j - 7 * (x.nextPkt.toNat - 1) + 1 < f.data.length := by omega
    simp [this]
  · exact h.filled j (by simp [Session.filledLen, hd, bytesPerPacket]; omega)

/-! ### Offers -/

/-- Offering a CTS: the frame owed goes out, and the grant stands or the CTS stays owed. -/
theorem offer_cts (now : Millis) (i : Nat) {x : Session} (s : State) (h : x.nextPkt.toNat ≤ x.totalPkts.toNat + 1) :
    ∃ t, offer now i x .cts s = .ok t ∧
      s.changed t { slots := s.slots.set i (some (s.afterCts x now)), offers := [s.owed x .cts] } := by
  have hb := build_eq_owed (s := s) (x := x) (k := .cts) (fun _ => h) (by simp)
  have hc := ctsCount_eq (c := s.cfg) h
  cases ha : s.driverAccepts with
  | false =>
    exact ⟨_, offer_refused ha, rfl, rfl, rfl, by simp [State.afterCts, State.answer_zero, ha], by simp, by simp, by simp,
      by simp [← hb], by simp⟩
  | true =>
    refine ⟨_, (offer_accepted ha).trans rfl, rfl, rfl, rfl, ?_, by simp, by simp, by simp, by simp [← hb], by simp⟩
    have : ctsCount s.cfg { x with pending := none, lastActivity := now } = ctsCount s.cfg x := rfl
    simp [State.afterCts, State.answer_zero, ha, this, hc]

/-- Offering an EOMA that the driver refuses. -/
theorem offer_eoma_refused (now : Millis) (i : Nat) {x : Session} (s : State) (ha : s.answer 0 = false) :
    ∃ t, offer now i x .eoma s = .ok t ∧
      s.changed t { slots := s.slots.set i (some { x with pending := some .eoma }), offers := [s.owed x .eoma] } := by
  have hb := build_eq_owed (s := s) (x := x) (k := .eoma) (by simp) (by simp)
  exact ⟨_, offer_refused ha, rfl, rfl, rfl, by simp, by simp, by simp, by simp, by simp [← hb], by simp⟩

/-- Offering an EOMA that the driver accepts: the message is delivered. -/
theorem offer_eoma_accepted (now : Millis) (i : Nat) {x : Session} (s : State) (ha : s.answer 0 = true) (hd : x.dir = .rx)
    {p : List Byte} (hp : x.buf.bytes 0 x.totalLen.toNat = some p) :
    ∃ t, offer now i x .eoma s = .ok t ∧
      s.changed t { slots := s.slots.set i none, messages := 1, offers := [s.owed x .eoma]
                    events := [.delivered x.channel x.pgn x.src x.dst x.totalLen p s.nextMsgId] } := by
  have hb := build_eq_owed (s := s) (x := x) (k := .eoma) (by simp) (by simp)
  refine ⟨_, (offer_accepted ha).trans (complete_rx (x := { x with pending := none, lastActivity := now }) hd (memRead_whole hp)), rfl, rfl, rfl, by simp, by simp, by simp,
    by simp, by simp [← hb], by simp⟩

/-! ### A received data frame -/

theorem noGrant_iff {x : Session} : noGrant x = false ↔ x.granted := by
  simp [noGrant, Session.granted]
  constructor
  · rintro ⟨⟨⟨h1, h2⟩, h3⟩, h4⟩
    refine ⟨?_, h2, h3, h4⟩
    by_cases h : x.state = .clearToSendSent
    · exact .inl h
    · exact .inr (h1 h)
  · rintro ⟨h1, h2, h3, h4⟩
    exact ⟨⟨⟨fun h => by rcases h1 with h1 | h1 <;> [exact absurd h1 h; exact h1], h2⟩, h3⟩, h4⟩

/-- The sequence number a receiver compares with. -/
theorem sequence_toNat {x : Session} (hm : x.mode ≠ .bam) : (x.sequence x.nextPkt).toNat = x.expected := by
  have := x.dpoOffset.isLt; have := x.nextPkt.isLt
  cases h : x.mode
  · simp [Session.sequence, Session.expected, h]
  · contradiction
  · simp [Session.sequence, Session.expected, h, BitVec.toNat_sub]; omega

/-- A data frame that finds a session of its mode. -/
theorem rxData_of_holds {s : State} {f : Frame} {i : Nat} {x : Session} {da sa : Addr} (hs : s.keysUnique)
    (hx : s.holds i x f.channel sa da .rx) : rxData f x.mode sa da s =
      if noGrant x then .ok (abortSession i x .unexpectedDT true s) else acceptData f i x s := by
  simp [rxData, State.findSlot_of_holds hs hx]

/-- A data frame in order, once its packet is stored. -/
theorem acceptData_of_expected {s : State} {f : Frame} {i : Nat} {x : Session} (hm : x.mode ≠ .bam)
    (hseq : (f.byte 0).toNat = x.expected) {buf : Memory} (hb : storePacket f x = .ok { x with buf := buf }) :
    acceptData f i x s =
      let z := { x with buf := buf, nextPkt := x.nextPkt + 1#32, burstLeft := x.burstLeft - 1#8, state := .receiving,
                        lastActivity := f.timestamp }
      let t := s.setSlot i (some z)
      if z.allPackets then offer f.timestamp i z .eoma t
      else if z.burstLeft = 0 then offer f.timestamp i z .cts t
      else .ok t := by
  have : (f.byte 0).setWidth 32 = x.sequence x.nextPkt := by
    apply BitVec.eq_of_toNat_eq; rw [sequence_toNat hm, ← hseq]; simp; have := (f.byte 0).isLt; omega
  simp [acceptData, this, hb]

end Sys2Proof.Machine
end

