-- ==== Sys2Proof/Laws/Update.lean ====
section
/-! SUPPORT. UPDATE where one session is live, and a sender's burst: what its frames are and where it stops (42_session_engine.md R207, R216, R217, R226). -/

namespace Sys2Proof.Machine

/-! ### The slots UPDATE serves -/

theorem mem_liveSlots {s : State} {i : Nat} : i ∈ liveSlots s ↔ ∃ x, s.slot i = some x := by
  simp only [liveSlots, List.mem_filter, List.mem_range, Option.isSome_iff_exists]
  exact ⟨fun h => h.2, fun ⟨x, hx⟩ => ⟨State.lt_of_slot hx, x, hx⟩⟩

theorem liveSlots_nodup (s : State) : (liveSlots s).Nodup := List.Nodup.filter _ List.nodup_range

/-- With one valid slot, UPDATE serves that slot. -/
theorem liveSlots_only {s : State} {i : Nat} {x : Session} (h : s.only i x) : liveSlots s = [i] := by
  have hi : ∀ j, j ∈ liveSlots s ↔ j = i := by
    intro j
    rw [mem_liveSlots]
    constructor
    · rintro ⟨y, hy⟩
      by_contra hne
      rw [h.2 j hne] at hy; cases hy
    · rintro rfl; exact ⟨x, h.1⟩
  have hn := liveSlots_nodup s
  match hl : liveSlots s with
  | [] => have := (hi i).mpr rfl; rw [hl] at this; cases this
  | [a] => have := (hi a).mp (by rw [hl]; simp); rw [this]
  | a :: b :: r =>
    have ha := (hi a).mp (by rw [hl]; simp)
    have hb := (hi b).mp (by rw [hl]; simp)
    rw [hl, ha, hb] at hn; simp at hn

/-- With no valid slot, UPDATE serves none. -/
theorem liveSlots_none {s : State} (h : ∀ j, s.slot j = none) : liveSlots s = [] := by
  refine List.eq_nil_iff_forall_not_mem.mpr fun j hj => ?_
  obtain ⟨x, hx⟩ := mem_liveSlots.mp hj
  rw [h j] at hx; cases hx

/-- UPDATE with one valid slot is the service of that slot. -/
theorem exec_update_only {s : State} {i : Nat} {x : Session} {now : Millis} (h : s.only i x) :
    exec (.update now) s = finish (serviceSlot now i x s) := by
  simp only [exec, execUpdate, liveSlots_only h, serviceSlots, h.1]
  cases serviceSlot now i x s <;> rfl

/-! ### Limits -/

/-- The limit of a session is the one of the table. -/
theorem limit_iff {c : Config} {x : Session} {l : Millis} :
    x.limit c = some l ↔ x.waits c l := by
  rcases x with ⟨_, mode, dir, _, _, _, _, _, _, _, _, _, _, hold, state, pending, _, _, _⟩
  cases pending <;> cases mode <;> cases dir <;> cases state <;> cases hold <;>
    simp [Session.limit, Session.waits, @eq_comm _ l]

/-! ### Data frames -/

/-- The data of packet `k`, where its bytes are known. -/
theorem dataFrame_eq {x : Session} {k seq : BitVec 32} {bytes : List Byte} (hp : x.packet k.toNat bytes)
    (h1 : 1 ≤ k.toNat) (h2 : k.toNat ≤ x.totalPkts.toNat) (hc : x.totalPkts.toNat = (x.totalLen.toNat + 6) / 7) :
    dataFrame x k seq = .ok (packetData seq.toNat bytes) := by
  have ho := Session.offset_toNat (x := x) h1 h2
  have hb : packetBytes x (packetOffset k) = bytes.length := by
    have : (packetOffset k).toNat ≤ x.totalLen.toNat := by omega
    have e : (x.totalLen - packetOffset k).toNat = x.totalLen.toNat - 7 * (k.toNat - 1) := by bv_omega
    simp only [packetBytes, bytesPerPacket, e, hp.1]; omega
  have hr : memRead x (packetOffset k).toNat (packetBytes x (packetOffset k)) = .ok bytes := by
    rw [hb, ho]
    refine memRead_written (by rw [hp.1]; omega) (Memory.bytes_eq_some.mpr ⟨rfl, fun j hj => ?_⟩)
    rw [hp.2 j hj]; simp [hj]
  simp [dataFrame, hr, dataBytes, packetData, bytesPerPacket]

/-! ### A burst -/

/-- A session whose next `m` packets have gone out at time `now`. -/
def Session.sent (x : Session) (now : Millis) (m : Nat) : Session :=
  { x with nextPkt := BitVec.ofNat 32 (x.nextPkt.toNat + m), burstLeft := BitVec.ofNat 8 (x.burstLeft.toNat - m),
           lastActivity := if m = 0 then x.lastActivity else now }

/-- A session at the end of its burst (42_session_engine.md R217), where the burst is over. -/
def Session.afterBurst (x : Session) (ended : Bool) : Session :=
  if ended then
    if x.totalPkts.toNat < x.nextPkt.toNat then { x with state := .waitingForEndAck }
    else { x with state := .requestedToSend, hold := false }
  else x

/-- The frames of a burst: those the driver accepts, and the one it refuses. -/
def State.burst (s : State) (x : Session) (m : Nat) (packet : Nat → List Byte) : List Offer :=
  (List.range (min (m + 1) x.burstLeft.toNat)).map fun k =>
    s.frame k x.channel x.mode.dt x.dst x.src
      (packetData (x.nextPkt.toNat + k - if x.mode = .etp then x.dpoOffset.toNat else 0) (packet k))

/-- A burst whose first `m` frames the driver accepts, and no more. -/
theorem txBurstLoop_eq {now : Millis} {i : Nat} : ∀ {n m : Nat} {x : Session} {s : State} {packet : Nat → List Byte},
    x.burstLeft.toNat = n → s.slot i = some x → x.mode ≠ .bam → 1 ≤ x.nextPkt.toNat →
    x.nextPkt.toNat + n ≤ x.totalPkts.toNat + 1 → x.totalPkts.toNat = (x.totalLen.toNat + 6) / 7 →
    (x.mode = .etp → x.dpoOffset.toNat < x.nextPkt.toNat) →
    m ≤ n → (∀ k, k < m → s.answer k = true) → (m < n → s.answer m = false) →
    (∀ k, k < n → x.packet (x.nextPkt.toNat + k) (packet k)) →
    ∃ t, txBurstLoop now i n x s = .ok t ∧ s.changed t
      { slots := s.slots.set i (some ((x.sent now m).afterBurst (decide (m = n)))), offers := s.burst x m packet } := by
  intro n
  induction n with
  | zero =>
    intro m x s packet hn hx hm h1 hg hc hd hmn _ _ _
    obtain rfl : m = 0 := by omega
    have e : x.sent now 0 = x := by simp [Session.sent]
    refine ⟨_, rfl, ?_⟩
    rw [e]
    have : burstDone i x s = s.setSlot i (some (x.afterBurst true)) := by
      simp only [burstDone, Session.afterBurst]
      by_cases h : x.totalPkts.toNat < x.nextPkt.toNat
      · simp [Session.allPackets, h]
      · simp [Session.allPackets, h]
    rw [this]
    simpa [State.burst, hn] using changed_setSlot s i (some (x.afterBurst true))
  | succ n ih =>
    intro m x s packet hn hx hm h1 hg hc hd hmn ha hr hp
    have ht := x.totalPkts.isLt
    have hf := dataFrame_eq (seq := x.sequence x.nextPkt) (hp 0 (by omega)) (by simpa using h1) (by omega) hc
    have hseq : (x.sequence x.nextPkt).toNat = x.nextPkt.toNat + 0 - if x.mode = .etp then x.dpoOffset.toNat else 0 := by
      cases h : x.mode
      · simp [Session.sequence, h]
      · contradiction
      · have := hd h; have := x.dpoOffset.isLt
        simp only [Session.sequence, h, if_true]; bv_omega
    have hid : dataId s.cfg x = idEncode s.cfg.tpPriority x.mode.dt x.dst x.src := by simp [dataId, transportId]
    simp only [Nat.add_zero] at hf hseq
    simp only [txBurstLoop, hf]
    have hlen : 1 ≤ x.burstLeft.toNat := by omega
    cases m with
    | zero =>
      have h0 : s.driverAccepts = false := hr (by omega)
      simp only [h0, Bool.false_eq_true, if_false]
      refine ⟨_, rfl, rfl, rfl, rfl, ?_, by simp, by simp, ?_, ?_, by simp⟩
      · have : (x.sent now 0).afterBurst (decide (0 = n + 1)) = x := by simp [Session.sent, Session.afterBurst]
        rw [this]
        simpa using (State.set_slot hx).symm
      · simp [State.burst, hn]
      · simp [State.burst, hn, State.frame, State.emitted, hid, hseq, State.answer_zero]
    | succ m =>
      have h0 : s.driverAccepts = true := ha 0 (by omega)
      simp only [h0, if_true]
      let y := { x with lastActivity := now, nextPkt := x.nextPkt + 1#32, burstLeft := x.burstLeft - 1#8 }
      have hyn : y.nextPkt.toNat = x.nextPkt.toNat + 1 := by simp [y]; omega
      have hyb : y.burstLeft.toNat = n := by simp only [y]; bv_omega
      obtain ⟨t, ht, hch⟩ := ih (m := m) (x := y) (packet := fun k => packet (k + 1))
        (s := (s.send x.channel (dataId s.cfg x) (packetData (x.sequence x.nextPkt).toNat (packet 0))).setSlot i (some y))
        hyb (State.slot_setSlot_self _ (by simpa using State.lt_of_slot hx) _) hm (by omega) (by rw [hyn]; simp only [y]; omega) hc
        (fun h => by have := hd h; simp only [y] at hyn ⊢; omega) (by omega)
        (fun k hk => by simpa [State.send_answer] using ha (k + 1) (by omega))
        (fun hk => by simpa [State.send_answer] using hr (by omega))
        (fun k hk => by
          have := hp (k + 1) (by omega)
          rw [hyn, Nat.add_assoc, Nat.add_comm 1 k]; exact this)
      refine ⟨t, ht, hch.cfg, hch.inbox, hch.registry, ?_, hch.dropCount, hch.nextMsgId, ?_, ?_, hch.events⟩
      · rw [hch.slots]
        have : (y.sent now m).afterBurst (decide (m = n)) = (x.sent now (m + 1)).afterBurst (decide (m + 1 = n + 1)) := by
          have : y.sent now m = x.sent now (m + 1) := by
            have e1 : x.nextPkt.toNat + 1 + m = x.nextPkt.toNat + (m + 1) := by omega
            have e2 : n - m = x.burstLeft.toNat - (m + 1) := by omega
            simp only [Session.sent, hyn, hyb, e1, e2, y]
            simp
          rw [this]; simp
        rw [this]; simp
      · rw [hch.driverIn]; simp [State.burst, hn, hyb, ← List.drop_one, List.drop_drop]; congr 1; omega
      · rw [hch.offered]
        simp only [State.setSlot_offered, State.send_offered, List.append_assoc, List.append_cancel_left_eq, State.burst]
        rw [hn, hyb, show min (m + 1 + 1) (n + 1) = min (m + 1) n + 1 by omega, List.range_succ_eq_map, List.map_cons, List.map_map]
        simp only [List.cons_append, List.nil_append]
        congr 1
        · simp [State.frame, State.emitted, hid, hseq, State.answer_zero]
        · refine List.map_congr_left fun k _ => ?_
          simp only [Function.comp, State.setSlot_frame, State.send_frame, hyn]
          rw [show x.nextPkt.toNat + 1 + k = x.nextPkt.toNat + (k + 1) by omega]

end Sys2Proof.Machine
end

