-- ==== Sys2Proof/Laws/Keeps.lean ====
section
/-! SUPPORT. What each operation does to a good session: it answers, and leaves in its slot a good session or none (10_state.md R22 to R25, 20_memory.md R60 to R63). -/

namespace Sys2Proof.Machine

/-- An operation on slot `i` answers a state, works on that slot alone, and leaves a good session in it or none. -/
def Keeps (i : Nat) (s : State) (r : Except Fault State) : Prop :=
  ∃ t, r = .ok t ∧ Serves i s t ∧ ∀ y, t.slot i = some y → y.Good s.cfg

/-- Two operations one after the other. -/
theorem Keeps.after {i : Nat} {s u : State} {r : Except Fault State} (h : Serves i s u) (k : Keeps i u r) : Keeps i s r := by
  obtain ⟨t, ht, hs, hg⟩ := k
  exact ⟨t, ht, h.trans hs, fun y hy => h.cfg ▸ hg y hy⟩

/-- A good session written to its slot. -/
theorem Keeps.write {i : Nat} {s : State} {x y : Session} (hx : s.slot i = some x) (hk : x.Kin y) (hg : y.Good s.cfg) :
    Keeps i s (.ok (s.setSlot i (some y))) := by
  refine ⟨_, rfl, .write hx hk, fun z hz => ?_⟩
  rw [s.slot_setSlot_self (State.lt_of_slot hx)] at hz
  cases hz; exact hg

/-- The slot left as it was. -/
theorem Keeps.same {i : Nat} {s : State} {x : Session} (hx : s.slot i = some x) (hg : x.Good s.cfg) : Keeps i s (.ok s) :=
  ⟨s, rfl, .refl i s, fun y hy => by rw [hx] at hy; cases hy; exact hg⟩

/-- The slot freed. -/
theorem Keeps.freed {i : Nat} {s t : State} {r : Except Fault State} (hr : r = .ok t) (h : Serves i s t) (hn : t.slot i = none) :
    Keeps i s r := ⟨t, hr, h, fun y hy => by rw [hn] at hy; cases hy⟩

theorem abortSession_slot {i : Nat} {x : Session} {s : State} (r : AbortReason) (n : Bool) :
    (abortSession i x r n s).slot i = none := by
  simp only [abortSession]; split <;> simp

theorem abortSession_keeps {i : Nat} {x : Session} {s : State} (hx : s.slot i = some x) (r : AbortReason) (n : Bool) :
    Keeps i s (.ok (abortSession i x r n s)) :=
  .freed rfl (abortSession_serves i r n hx) (abortSession_slot r n)

/-- A session with every packet completes: a sender always, a receiver because its buffer is full. -/
theorem complete_keeps {i : Nat} {x : Session} {s : State}
    (h : x.dir = .rx → ∀ j, j < x.totalLen.toNat → (x.buf.byte j).isSome = true) : Keeps i s (complete i x s) := by
  cases hd : x.dir with
  | tx => exact .freed (complete_tx hd) (complete_serves (complete_tx hd)) (by simp)
  | rx =>
    obtain ⟨p, hp, -⟩ := message_of_filled (h hd)
    have := complete_rx (i := i) (s := s) hd (memRead_whole hp)
    exact .freed this (complete_serves this) (by simp)

/-- A receiver that has every packet holds its whole message. -/
theorem Session.Good.full {c : Config} {x : Session} (h : x.Good c) (hd : x.dir = .rx) (ha : x.allPackets = true) :
    ∀ j, j < x.totalLen.toNat → (x.buf.byte j).isSome = true := by
  intro j hj
  have hc := h.count
  have := Session.allPackets_iff.mp ha
  exact h.filled j (by simp [Session.filledLen, hd, bytesPerPacket]; omega)

/-- A later stage of a good session, its buffer as it was, is good if the fields that moved are in their ranges. -/
theorem Session.Good.later {c : Config} {x y : Session} (h : x.Good c) (hk : x.Kin y) (hb : y.buf = x.buf)
    (hf : y.dir = .rx → y.nextPkt.toNat ≤ x.nextPkt.toNat) (hs : y.legalState = true) (hp : y.legalPending = true)
    (h1 : 1 ≤ y.nextPkt.toNat) (hn : y.nextPkt.toNat ≤ x.totalPkts.toNat + 1)
    (hm : x.mode = .bam → y.nextPkt.toNat ≤ x.totalPkts.toNat)
    (hg : y.holdsGrant = true → y.nextPkt.toNat + y.burstLeft.toNat ≤ x.totalPkts.toNat + 1)
    (ho : x.mode = .etp → x.dir = .tx → y.state = .sending →
      y.dpoOffset.toNat < y.nextPkt.toNat ∧ y.nextPkt.toNat + y.burstLeft.toNat ≤ y.dpoOffset.toNat + 256) : y.Good c where
  channel := hk.channel ▸ h.channel
  global := by rw [hk.mode, hk.dst]; exact h.global
  state := hs
  pending := hp
  lenPos := hk.totalLen ▸ h.lenPos
  lenMax := by rw [hk.totalLen, hk.mode]; exact h.lenMax
  count := by rw [hk.totalPkts, hk.totalLen]; exact h.count
  nextPos := h1
  nextMax := by rw [hk.totalPkts]; exact hn
  bam := by rw [hk.mode, hk.totalPkts]; exact hm
  grant := by rw [hk.totalPkts]; exact hg
  offset := by rw [hk.mode, hk.dir]; exact ho
  bufWf := hb ▸ h.bufWf
  bufBound := by rw [hb, hk.totalLen]; exact h.bufBound
  filled j hj := by
    rw [hb]
    refine h.filled j (Nat.lt_of_lt_of_le hj ?_)
    simp only [Session.filledLen, hk.dir, hk.totalLen]
    cases hd : x.dir with
    | tx => simp
    | rx => have := hf (hk.dir.trans hd); simp only [bytesPerPacket]; omega

/-! ### Control frames -/

theorem ctsCount_bound (c : Config) (x : Session) (h : x.nextPkt.toNat ≤ x.totalPkts.toNat + 1) :
    x.nextPkt.toNat + (ctsCount c x).toNat ≤ x.totalPkts.toNat + 1 := by
  rw [ctsCount_eq h]
  have := c.ctsMaxPackets.isLt
  simp only [Session.grant, BitVec.toNat_ofNat]; omega

/-- A refused frame is owed; the session as it then stands is good. -/
theorem offer_keeps {now : Millis} {i : Nat} {x : Session} {k : Control} {s : State} (hx : s.slot i = some x)
    (hg : ({ x with pending := some k } : Session).Good s.cfg) : Keeps i s (offer now i x k s) := by
  have sent := Serves.send i (ch := x.channel) (build_engineFrame s.cfg x k)
  cases ha : s.driverAccepts with
  | false =>
    rw [offer_refused ha]
    exact .after sent (.write hx ⟨rfl, rfl, rfl, rfl, rfl, rfl, rfl, rfl, rfl, fun _ => rfl⟩ hg)
  | true =>
    rw [offer_accepted ha]
    refine .after sent ?_
    have hp := hg.pending
    have hs := hg.state
    have hn := hg.nextMax
    have h1 := hg.nextPos
    have hgr := hg.grant
    cases k with
    | rts =>
      refine .write hx ⟨rfl, rfl, rfl, rfl, rfl, rfl, rfl, rfl, rfl, fun _ => rfl⟩
        (hg.later ⟨rfl, rfl, rfl, rfl, rfl, rfl, rfl, rfl, rfl, fun _ => rfl⟩ rfl (fun _ => Nat.le_refl _) ?_ ?_ h1 hn hg.bam ?_ (by simp)) <;>
      rcases hm : x.mode <;> rcases hd : x.dir <;> rcases ht : x.state <;>
        simp_all [Session.legalPending, Session.legalState, Session.holdsGrant]
    | cts =>
      have hc := ctsCount_bound s.cfg x hn
      refine .write hx ⟨rfl, rfl, rfl, rfl, rfl, rfl, rfl, rfl, rfl, fun _ => rfl⟩
        (hg.later ⟨rfl, rfl, rfl, rfl, rfl, rfl, rfl, rfl, rfl, fun _ => rfl⟩ rfl (fun _ => Nat.le_refl _) ?_ ?_ h1 hn hg.bam ?_ (by simp))
      · rcases hm : x.mode <;> rcases hd : x.dir <;> rcases ht : x.state <;> simp_all [Session.legalPending, Session.legalState]
      · rcases hm : x.mode <;> rcases hd : x.dir <;> rcases ht : x.state <;> simp_all [Session.legalPending, Session.legalState, Session.allPackets]
      · intro _; exact hc
    | dpo =>
      have e : (x.nextPkt - 1#32).toNat = x.nextPkt.toNat - 1 := by simp at h1; bv_omega
      have hb := x.burstLeft.isLt
      have ht := x.totalPkts.isLt
      refine .write hx ⟨rfl, rfl, rfl, rfl, rfl, rfl, rfl, rfl, rfl, fun _ => rfl⟩
        (hg.later ⟨rfl, rfl, rfl, rfl, rfl, rfl, rfl, rfl, rfl, fun _ => rfl⟩ rfl (fun _ => Nat.le_refl _) ?_ ?_ h1 hn hg.bam ?_ ?_)
      · rcases hm : x.mode <;> rcases hd : x.dir <;> rcases ht : x.state <;> simp_all [Session.legalPending, Session.legalState]
      · rcases hm : x.mode <;> rcases hd : x.dir <;> rcases ht : x.state <;> simp_all [Session.legalPending, Session.legalState]
      · intro _
        refine hgr ?_
        rcases hm : x.mode <;> rcases hd : x.dir <;> rcases ht : x.state <;> simp_all [Session.legalPending, Session.legalState, Session.holdsGrant]
      · intro _ _ _
        simp only [BitVec.toNat_setWidth, e] at h1 hn ⊢
        omega
    | eoma =>
      have hall : x.dir = .rx ∧ x.allPackets = true := by
        rcases hm : x.mode <;> rcases hd : x.dir <;> rcases ht : x.state <;> simp_all [Session.legalPending, Session.legalState, Session.allPackets]
      exact complete_keeps fun _ => hg.full hall.1 hall.2
    | announce =>
      refine .write hx ⟨rfl, rfl, rfl, rfl, rfl, rfl, rfl, rfl, rfl, fun _ => rfl⟩
        (hg.later ⟨rfl, rfl, rfl, rfl, rfl, rfl, rfl, rfl, rfl, fun _ => rfl⟩ rfl (fun _ => Nat.le_refl _) ?_ ?_ h1 hn hg.bam ?_ (by simp)) <;>
      rcases hm : x.mode <;> rcases hd : x.dir <;> rcases ht : x.state <;>
        simp_all [Session.legalPending, Session.legalState, Session.holdsGrant]

/-! ### Bursts and pacing -/

/-- A sender's next packet can be read. -/
theorem Session.Good.dataFrame_ok {c : Config} {x : Session} (h : x.Good c)
    (hn : x.nextPkt.toNat ≤ x.totalPkts.toNat) (seq : BitVec 32) : ∃ d, dataFrame x x.nextPkt seq = .ok d := by
  have h1 := h.nextPos
  have ho := Session.offset_toNat h1 hn
  have hb := h.packetBytes_eq h1 hn
  have hl := h.packet_bounds h1 hn
  obtain ⟨bs, hr, -⟩ := memRead_ok (x := x) (off := (packetOffset x.nextPkt).toNat) (n := packetBytes x (packetOffset x.nextPkt))
    (by omega)
  exact ⟨dataBytes seq bs, by simp only [dataFrame, hr]⟩

theorem Session.Good.sending_pending {c : Config} {x : Session} (h : x.Good c) (hs : x.state = .sending) : x.pending = none := by
  have hp := h.pending
  rcases hk : x.pending with _ | k
  · rfl
  · rcases hd : x.dir <;> rcases k <;> simp [Session.legalPending, hs, hk, hd] at hp

theorem burstDone_keeps {i : Nat} {x : Session} {s : State} (hx : s.slot i = some x) (hg : x.Good s.cfg) (hm : x.mode ≠ .bam)
    (hd : x.dir = .tx) (hs : x.state = .sending) : Keeps i s (.ok (burstDone i x s)) := by
  have hp := hg.sending_pending hs
  simp only [burstDone]
  split <;>
  · refine .write hx ⟨rfl, rfl, rfl, rfl, rfl, rfl, rfl, rfl, rfl, fun _ => rfl⟩
      (hg.later ⟨rfl, rfl, rfl, rfl, rfl, rfl, rfl, rfl, rfl, fun _ => rfl⟩ rfl (fun _ => Nat.le_refl _) ?_ ?_ hg.nextPos hg.nextMax hg.bam ?_ (by simp)) <;>
    rcases hm' : x.mode <;> simp_all [Session.legalPending, Session.legalState, Session.holdsGrant]

theorem txBurstLoop_keeps {now : Millis} {i : Nat} : ∀ {n : Nat} {x : Session} {s : State}, x.burstLeft.toNat = n → s.slot i = some x →
    x.Good s.cfg → x.mode ≠ .bam → x.dir = .tx → x.state = .sending → Keeps i s (txBurstLoop now i n x s) := by
  intro n
  induction n with
  | zero => intro x s _ hx hg hm hd hs; exact burstDone_keeps hx hg hm hd hs
  | succ n ih =>
    intro x s hn hx hg hm hd hs
    have hp := hg.sending_pending hs
    have hgr := hg.grant (by simp [Session.holdsGrant, hm, hs])
    have ht := x.totalPkts.isLt
    have h1 := hg.nextPos
    obtain ⟨d, hdf⟩ := hg.dataFrame_ok (by omega) (x.sequence x.nextPkt)
    have sent : Serves i s (s.send x.channel (dataId s.cfg x) d) :=
      .send i (dataId_engineFrame s.cfg x (dataFrame_length hdf))
    simp only [txBurstLoop, hdf]
    split
    · let y := { x with lastActivity := now, nextPkt := x.nextPkt + 1#32, burstLeft := x.burstLeft - 1#8 }
      have hyn : y.nextPkt.toNat = x.nextPkt.toNat + 1 := by simp only [y]; bv_omega
      have hyb : y.burstLeft.toNat = n := by simp only [y]; bv_omega
      have hy : y.Good s.cfg := hg.later ⟨rfl, rfl, rfl, rfl, rfl, rfl, rfl, rfl, rfl, fun _ => rfl⟩ rfl (fun h => by simp [y, hd] at h)
        hg.state (by simp [Session.legalPending, y, hd, hs, hp]) (by omega) (by omega) (fun h => absurd h hm)
        (fun _ => by omega) (fun he _ _ => by have := hg.offset he hd hs; simp only [y] at hyn hyb ⊢; omega)
      refine .after sent (.after (.write (y := y) hx ⟨rfl, rfl, rfl, rfl, rfl, rfl, rfl, rfl, rfl, fun _ => rfl⟩) ?_)
      exact ih hyb (State.slot_setSlot_self _ (State.lt_of_slot hx) _) hy hm hd hs
    · exact .after sent (.same hx hg)

theorem bamPace_keeps {now : Millis} {i : Nat} {x : Session} {s : State} (hx : s.slot i = some x) (hg : x.Good s.cfg)
    (hm : x.mode = .bam) (hd : x.dir = .tx) (hp : x.pending = none) : Keeps i s (bamPace now i x s) := by
  have hn := hg.bam hm
  have ht := x.totalPkts.isLt
  have h1 := hg.nextPos
  obtain ⟨d, hdf⟩ := hg.dataFrame_ok hn x.nextPkt
  have sent : Serves i s (s.send x.channel (dataId s.cfg x) d) :=
    .send i (dataId_engineFrame s.cfg x (dataFrame_length hdf))
  simp only [bamPace, hdf]
  split
  · let y := { x with lastActivity := now, nextPkt := x.nextPkt + 1#32, state := .sending }
    have hyn : y.nextPkt.toNat = x.nextPkt.toNat + 1 := by simp only [y]; bv_omega
    have write : Serves i (s.send x.channel (dataId s.cfg x) d) ((s.send x.channel (dataId s.cfg x) d).setSlot i (some y)) :=
      .write (x := x) hx ⟨rfl, rfl, rfl, rfl, rfl, rfl, rfl, rfl, rfl, fun _ => rfl⟩
    split
    · split
      · exact .after (sent.trans write) (complete_keeps fun h => by simp [hd] at h)
      · rename_i ha
        have ha' : ¬ y.totalPkts.toNat < y.nextPkt.toNat := fun h => ha (Session.allPackets_iff.mpr h)
        refine .after sent (.write (y := y) hx ⟨rfl, rfl, rfl, rfl, rfl, rfl, rfl, rfl, rfl, fun _ => rfl⟩ ?_)
        exact hg.later ⟨rfl, rfl, rfl, rfl, rfl, rfl, rfl, rfl, rfl, fun _ => rfl⟩ rfl (fun h => by simp [y, hd] at h)
          (by simp [Session.legalState, y, hm, hd]) (by simp [Session.legalPending, y, hd, hp]) (by omega) (by omega)
          (fun _ => by simp only [y] at ha' ⊢; omega) (by simp [Session.holdsGrant, y, hm]) (by simp [hm])
    · exact .after sent (.same hx hg)
  · exact .same hx hg

/-! ### The service of a slot -/

theorem txBurst_keeps {now : Millis} {i : Nat} {x : Session} {s : State} (hx : s.slot i = some x)
    (hg : x.Good s.cfg) (hm : x.mode ≠ .bam) (hd : x.dir = .tx) (hs : x.state = .sending) : Keeps i s (txBurst now i x s) :=
  txBurstLoop_keeps rfl hx hg hm hd hs

theorem serviceWork_keeps {now : Millis} {i : Nat} {x : Session} {s : State} (hx : s.slot i = some x) (hg : x.Good s.cfg)
    (hp : x.pending = none) : Keeps i s (serviceWork now i x s) := by
  simp only [serviceWork]
  split
  · rename_i hm hd hs
    have write := Serves.write hx (y := { x with state := .sending }) ⟨rfl, rfl, rfl, rfl, rfl, rfl, rfl, rfl, rfl, fun _ => rfl⟩
    refine .after write (txBurst_keeps (State.slot_setSlot_self _ (State.lt_of_slot hx) _) ?_ (by simp [hm]) hd rfl)
    exact hg.later ⟨rfl, rfl, rfl, rfl, rfl, rfl, rfl, rfl, rfl, fun _ => rfl⟩ rfl (fun _ => Nat.le_refl _)
      (by simp [Session.legalState, hm, hd]) (by simp [Session.legalPending, hd, hp]) hg.nextPos hg.nextMax hg.bam
      (fun _ => hg.grant (by simp [Session.holdsGrant, hm, hs])) (by simp [hm])
  · rename_i hm hd hs
    have hq : ({ x with pending := some .dpo } : Session).Good s.cfg :=
      hg.later ⟨rfl, rfl, rfl, rfl, rfl, rfl, rfl, rfl, rfl, fun _ => rfl⟩ rfl (fun _ => Nat.le_refl _) hg.state
        (by simp [Session.legalPending, hm, hd, hs]) hg.nextPos hg.nextMax hg.bam
        (fun _ => hg.grant (by simp [Session.holdsGrant, hm, hs])) hg.offset
    obtain ⟨t, ht, hst, hgt⟩ := offer_keeps (now := now) hx hq
    simp only [ht]
    split
    · rename_i y hy
      obtain ⟨z, hz, hk⟩ := hst.kin y hy
      rw [hx] at hz; cases hz
      split
      · rename_i hys
        exact .after hst (txBurst_keeps hy (hst.cfg ▸ hgt y hy) (by rw [hk.mode, hm]; simp) (hk.dir.trans hd) hys)
      · exact ⟨t, rfl, hst, hgt⟩
    · exact ⟨t, rfl, hst, hgt⟩
  · rename_i hm hd hs; exact txBurst_keeps hx hg (by simp [hm]) hd hs
  · rename_i hm hd hs; exact txBurst_keeps hx hg (by simp [hm]) hd hs
  · rename_i hm hd hs; exact bamPace_keeps hx hg hm hd hp
  · rename_i hm hd hs; exact bamPace_keeps hx hg hm hd hp
  · exact .same hx hg

/-- What UPDATE does to a slot leaves a good session in it or none. -/
theorem serviceSlot_keeps {now : Millis} {i : Nat} {x : Session} {s : State} (hx : s.slot i = some x) (hg : x.Good s.cfg) :
    Keeps i s (serviceSlot now i x s) := by
  simp only [serviceSlot]
  split
  · rename_i hp
    split
    · exact abortSession_keeps hx _ _
    · exact serviceWork_keeps hx hg hp
  · rename_i k hp
    have hq : ({ x with pending := some k } : Session).Good s.cfg := by rw [← hp]; exact hg
    obtain ⟨t, ht, hst, hgt⟩ := offer_keeps (now := now) hx hq
    simp only [ht]
    split
    · rename_i y hy
      split
      · rename_i hyp
        exact .after hst (serviceWork_keeps hy (hst.cfg ▸ hgt y hy) hyp)
      · exact ⟨t, rfl, hst, hgt⟩
    · exact ⟨t, rfl, hst, hgt⟩

/-! ### From one slot to the state -/

/-- A good state depends on the configuration and the slot file alone. -/
theorem State.wf_congr {s t : State} (h : s.wf) (hc : t.cfg = s.cfg) (hs : t.slots = s.slots) : t.wf := by
  obtain ⟨h1, h2, h3, h4⟩ := h
  exact ⟨hc ▸ h1, by rw [hs, hc]; exact h2, by unfold State.sessionsWf; rw [hs, hc]; exact h3, by unfold State.keysUnique; rw [hs]; exact h4⟩

/-- Two sessions clash where earlier stages of them do. -/
theorem clash_of_kin {x y x' y' : Session} (hx : x.Kin x') (hy : y.Kin y') : clash (some x') (some y') = clash (some x) (some y) := by
  simp [clash, hx.hasKey, hy.channel, hy.src, hy.dst, hy.dir, hx.channel, hx.mode, hy.mode, hx.dir]

/-- Work on one slot keeps the keys unique. -/
theorem Serves.keysUnique {i : Nat} {s t : State} (h : Serves i s t) (hs : s.keysUnique) : t.keysUnique := by
  have back : ∀ j y, t.slot j = some y → ∃ x, s.slot j = some x ∧ x.Kin y := by
    intro j y hy
    by_cases hj : j = i
    · subst hj; exact h.kin y hy
    · exact ⟨y, by rw [← h.others j hj]; exact hy, .refl y⟩
  refine State.keysUnique_iff.mpr fun a b x y hab hx hy => ?_
  obtain ⟨x', hx', hkx⟩ := back a x hx
  obtain ⟨y', hy', hky⟩ := back b y hy
  rw [clash_of_kin hkx hky]
  exact hs.not_clash hx' hy' hab

/-- Work on one slot that leaves a good session in it or none leaves the state good. -/
theorem Serves.wf {i : Nat} {s t : State} (h : Serves i s t) (hs : s.wf) (hg : ∀ y, t.slot i = some y → y.Good s.cfg) : t.wf := by
  refine ⟨h.cfg ▸ hs.1, by rw [h.length, h.cfg]; exact hs.2.1, ?_, h.keysUnique hs.2.2.2⟩
  refine State.sessionsWf_iff.mpr fun j y hy => ?_
  rw [h.cfg]
  by_cases hj : j = i
  · subst hj; exact Session.wf_iff.mpr (hg y hy)
  · exact Session.wf_iff.mpr (State.wf_session hs (by rw [← h.others j hj]; exact hy))

theorem Keeps.wf {i : Nat} {s : State} {r : Except Fault State} (h : Keeps i s r) (hs : s.wf) : ∃ t, r = .ok t ∧ t.wf := by
  obtain ⟨t, ht, hst, hg⟩ := h
  exact ⟨t, ht, hst.wf hs hg⟩

/-- A session that clashes with no other can be put into a free slot. -/
theorem State.keysUnique_open {s : State} {i : Nat} {x : Session} (hs : s.keysUnique) (hi : s.lowestFree i)
    (hx : ∀ j y, s.slot j = some y → clash (some x) (some y) = false ∧ clash (some y) (some x) = false) :
    (s.setSlot i (some x)).keysUnique := by
  refine State.keysUnique_iff.mpr fun a b y z hab hy hz => ?_
  by_cases ha : i = a
  · subst ha
    rw [State.slot_setSlot_self _ hi.1] at hy; cases hy
    rw [State.slot_setSlot_ne _ (by omega)] at hz
    exact (hx b z hz).1
  · rw [State.slot_setSlot_ne _ ha] at hy
    by_cases hb : i = b
    · subst hb
      rw [State.slot_setSlot_self _ hi.1] at hz; cases hz
      exact (hx a y hy).2
    · rw [State.slot_setSlot_ne _ hb] at hz
      exact hs.not_clash hy hz hab

/-- A key that is free and, for a BAM sender, a channel without one. -/
theorem no_clash {s : State} {x : Session} (hk : s.keyFree x.channel x.src x.dst x.dir)
    (hb : x.mode = .bam → x.dir = .tx → s.bamTxActive x.channel = false) (j : Nat) (y : Session) (hy : s.slot j = some y) :
    clash (some x) (some y) = false ∧ clash (some y) (some x) = false := by
  have h1 := hk j y hy
  have h1' : x.hasKey y.channel y.src y.dst y.dir = false := by
    refine Bool.eq_false_iff.mpr fun h => ?_
    obtain ⟨e1, e2, e3, e4⟩ := Session.hasKey_iff.mp h
    rw [Session.hasKey_iff.mpr ⟨e1.symm, e2.symm, e3.symm, e4.symm⟩] at h1; cases h1
  have h2 : ¬(x.channel = y.channel ∧ x.mode = .bam ∧ y.mode = .bam ∧ x.dir = .tx ∧ y.dir = .tx) := by
    rintro ⟨c, m, m', d, d'⟩
    have := State.bamTxActive_iff.mpr ⟨j, y, hy, c.symm, m', d'⟩
    rw [hb m d] at this; cases this
  constructor
  · refine Bool.eq_false_iff.mpr fun h => ?_
    simp only [clash, h1', Bool.false_or, Bool.and_eq_true, beq_iff_eq] at h
    exact h2 ⟨h.1.1.1.1, h.1.1.1.2, h.1.1.2, h.1.2, h.2⟩
  · refine Bool.eq_false_iff.mpr fun h => ?_
    simp only [clash, h1, Bool.false_or, Bool.and_eq_true, beq_iff_eq] at h
    exact h2 ⟨h.1.1.1.1.symm, h.1.1.2, h.1.1.1.2, h.2, h.1.2⟩

end Sys2Proof.Machine
end

