-- ==== Sys2Proof/Laws/Handlers.lean ====
section
/-! SUPPORT. Each handler of a received frame, the opening of a sender and the service of the slots answer, and leave a good state good (42_session_engine.md). -/

namespace Sys2Proof.Machine

/-- An operation answers a good state. -/
def AnswersGood (r : Except Fault State) : Prop := ∃ t, r = .ok t ∧ t.wf

/-- A frame dropped. -/
theorem dropFrame_answersGood {s : State} (h : s.wf) (c : DropCause) : AnswersGood (.ok (s.dropFrame c)) := ⟨_, rfl, State.wf_congr h rfl rfl⟩

/-- The packet count of a message fits its field. -/
theorem totalPkts_toNat (len : Nat) (h : len ≤ etpMaxLen) : (BitVec.ofNat 24 (packetCount len)).toNat = (len + 6) / 7 := by
  simp only [packetCount_eq, BitVec.toNat_ofNat, etpMaxLen] at *; omega

/-- A session as its command opens it, its first frame owed or, for a BAM receiver, none (42_session_engine.md R215, R229, R237, R239). -/
theorem opened_good {c : Config} {ch : Channel} {mode : Mode} {dir : Dir} {src dst : Addr} {pgn : Pgn} {len : BitVec 32} {most : Byte}
    {st : SessionState} {now : Millis} {draw : Nat} {k : Option Control} {buf : Memory} (hc : ch.toNat < c.numChannels) (hg : mode = .bam ↔ dst = globalAddr)
    (h1 : 1 ≤ len.toNat) (h2 : len.toNat ≤ mode.maxLen)
    (hst : (dir = .rx ∧ mode ≠ .bam ∧ st = .requestReceived ∧ k = some .cts) ∨ (dir = .rx ∧ mode = .bam ∧ st = .receiving ∧ k = none) ∨
      (dir = .tx ∧ mode ≠ .bam ∧ st = .idle ∧ k = some .rts) ∨ (dir = .tx ∧ mode = .bam ∧ st = .idle ∧ k = some .announce))
    (hb : buf.wf = true) (hbb : ∀ c ∈ buf, c.1 < len.toNat) (hf : dir = .tx → ∀ j, j < len.toNat → (buf.byte j).isSome = true) :
    ({ Session.opened ch mode dir src dst pgn len most st now draw with pending := k, buf := buf } : Session).Good c := by
  have hl : len.toNat ≤ etpMaxLen := by cases mode <;> simp [Mode.maxLen, tpMaxLen, etpMaxLen] at * <;> omega
  have hp := totalPkts_toNat _ hl
  have hp1 : 1 ≤ (len.toNat + 6) / 7 := by omega
  have ha : ¬ (BitVec.ofNat 24 (packetCount len.toNat)).toNat < (1#32).toNat := by rw [hp]; simp; omega
  refine ⟨hc, hg, ?_, ?_, h1, h2, hp, by simp [Session.opened], by simp only [Session.opened, hp]; simp, ?_, ?_, ?_, hb, hbb, ?_⟩
  · rcases hst with ⟨a, b, d, e⟩ | ⟨a, b, d, e⟩ | ⟨a, b, d, e⟩ | ⟨a, b, d, e⟩ <;> subst a <;> subst d <;> subst e <;> cases mode <;>
      simp_all [Session.legalState, Session.opened]
  · rcases hst with ⟨a, b, d, e⟩ | ⟨a, b, d, e⟩ | ⟨a, b, d, e⟩ | ⟨a, b, d, e⟩ <;> subst a <;> subst d <;> subst e <;> cases mode <;>
      simp_all [Session.legalPending, Session.opened, Session.allPackets]
  · intro _; simp only [Session.opened, hp]; simpa using hp1
  · intro _; simp only [Session.opened, hp]; simp
  · intro a b d; simp only [Session.opened] at a b d
    rcases hst with ⟨a', b', d', e⟩ | ⟨a', b', d', e⟩ | ⟨a', b', d', e⟩ | ⟨a', b', d', e⟩ <;> simp_all
  · intro j hj
    cases dir with
    | tx => exact hf rfl j (by simpa [Session.filledLen, Session.opened] using hj)
    | rx => simp [Session.filledLen, Session.opened] at hj

/-- A session opened in the lowest free slot, its first frame offered. -/
theorem open_offer_answersGood {s : State} {i : Nat} {x : Session} {k : Control} {now : Millis} (hs : s.wf) (hi : s.lowestFree i)
    (hk : s.keyFree x.channel x.src x.dst x.dir) (hb : x.mode = .bam → x.dir = .tx → s.bamTxActive x.channel = false)
    (hg : ({ x with pending := some k } : Session).Good s.cfg) : AnswersGood (offer now i x k (s.setSlot i (some x))) := by
  have hkeys : (s.setSlot i (some x)).keysUnique := State.keysUnique_open hs.2.2.2 hi (no_clash hk hb)
  have hx : (s.setSlot i (some x)).slot i = some x := State.slot_setSlot_self _ hi.1 _
  obtain ⟨t, ht, hst, hgt⟩ := offer_keeps (now := now) hx hg
  refine ⟨t, ht, by rw [hst.cfg]; exact hs.1, by rw [hst.length, hst.cfg]; simpa using hs.2.1, ?_, hst.keysUnique hkeys⟩
  refine State.sessionsWf_iff.mpr fun j y hy => ?_
  rw [hst.cfg]
  by_cases hj : j = i
  · subst hj; exact Session.wf_iff.mpr (hgt y hy)
  · rw [hst.others j hj, State.slot_setSlot_ne _ (Ne.symm hj)] at hy
    exact Session.wf_iff.mpr (State.wf_session hs hy)

/-- A session opened in the lowest free slot. -/
theorem open_wf {s : State} {i : Nat} {x : Session} (hs : s.wf) (hi : s.lowestFree i)
    (hk : s.keyFree x.channel x.src x.dst x.dir) (hb : x.mode = .bam → x.dir = .tx → s.bamTxActive x.channel = false)
    (hg : x.Good s.cfg) : (s.setSlot i (some x)).wf := by
  have hkeys : (s.setSlot i (some x)).keysUnique := State.keysUnique_open hs.2.2.2 hi (no_clash hk hb)
  refine ⟨hs.1, by simpa using hs.2.1, ?_, hkeys⟩
  refine State.sessionsWf_iff.mpr fun j y hy => ?_
  by_cases hj : j = i
  · subst hj; rw [State.slot_setSlot_self _ hi.1] at hy; cases hy; exact Session.wf_iff.mpr hg
  · rw [State.slot_setSlot_ne _ (Ne.symm hj)] at hy
    exact Session.wf_iff.mpr (State.wf_session hs hy)

/-- A candidate of a received abort ended. -/
theorem endCandidate_wf {f : Frame} {s : State} {i : Nat} {x : Session} (hs : s.wf) (hx : s.slot i = some x) :
    (endCandidate f (some (i, x)) s).wf := by
  obtain ⟨t, ht, hw⟩ := (abortSession_keeps hx (.received (f.byte 1)) false).wf hs
  cases ht; exact hw

/-- A candidate of a received abort is the session of its key. -/
theorem abortCandidate_holds {f : Frame} {m : Mode} {src dst : Addr} {dir : Dir} {s : State} {i : Nat} {x : Session}
    (h : abortCandidate f m src dst dir s = some (i, x)) : s.holds i x f.channel src dst dir := by
  simp only [abortCandidate] at h
  split at h
  · rename_i j y hf
    split at h
    · cases h; exact State.findSlot_eq_some hf
    · cases h
  · cases h

/-- A received Connection Abort. -/
theorem rxAbort_wf {f : Frame} {m : Mode} {sa da : Addr} {s : State} (hs : s.wf) : (rxAbort f m sa da s).wf := by
  simp only [rxAbort]
  split
  · exact State.wf_congr hs rfl rfl
  · rename_i tx rx hne
    rcases h1 : abortCandidate f m da sa .tx s with _ | ⟨i, x⟩ <;> rcases h2 : abortCandidate f m sa da .rx s with _ | ⟨j, y⟩
    · exact hs
    · exact endCandidate_wf hs (abortCandidate_holds h2).1
    · exact endCandidate_wf hs (abortCandidate_holds h1).1
    · have a := abortCandidate_holds h1
      have b := abortCandidate_holds h2
      have hij : i ≠ j := by
        rintro rfl
        have := a.1.symm.trans b.1; cases this
        have := (Session.hasKey_iff.mp a.2).2.2.2; have := (Session.hasKey_iff.mp b.2).2.2.2; simp_all
      refine endCandidate_wf (endCandidate_wf hs a.1) ?_
      have := (abortSession_serves i (.received (f.byte 1)) false a.1).others j (Ne.symm hij)
      exact this.trans b.1

/-- The target of a CTS or an EOMA is the sender of its key and mode. -/
theorem txTarget_holds {f : Frame} {m : Mode} {sa da : Addr} {s : State} {i : Nat} {x : Session} (h : txTarget f m sa da s = .ok (i, x)) :
    s.holds i x f.channel da sa .tx ∧ x.mode = m := by
  simp only [txTarget] at h
  split at h
  · cases h
  · rename_i j y hf
    split at h
    · cases h
    · split at h
      · cases h
      · rename_i hm _; cases h; exact ⟨State.findSlot_eq_some hf, by simpa using hm⟩

/-- A CTS that a sender waits for. -/
theorem grantCts_keeps {f : Frame} {i : Nat} {x : Session} {s : State} (hx : s.slot i = some x) (hg : x.Good s.cfg) (hm : x.mode ≠ .bam)
    (hd : x.dir = .tx) (hst : x.state = .requestedToSend ∨ x.state = .clearToSendReceived ∨ x.state = .waitingForEndAck) :
    Keeps i s (.ok (grantCts f i x s)) := by
  have hp := hg.pending
  have hgr := hg.grant
  have ht := x.totalPkts.isLt
  simp only [grantCts]
  split
  · refine .write hx ⟨rfl, rfl, rfl, rfl, rfl, rfl, rfl, rfl, rfl, fun _ => rfl⟩
      (hg.later ⟨rfl, rfl, rfl, rfl, rfl, rfl, rfl, rfl, rfl, fun _ => rfl⟩ rfl (fun _ => Nat.le_refl _) ?_ ?_ hg.nextPos hg.nextMax hg.bam ?_ (by simp))
    · rcases hm' : x.mode <;> simp_all [Session.legalState]
    · rcases hst with h | h | h <;> rcases hk : x.pending with _ | k <;> (try rcases k) <;> simp_all [Session.legalPending]
    · intro h; refine hgr ?_
      simp [Session.holdsGrant, hd] at h ⊢; exact ⟨h.1, .inr h.2⟩
  · split
    · exact abortSession_keeps hx _ _
    · rename_i hn hnx
      have hnx' : 1 ≤ (f.ctsNext x.mode).toNat ∧ (f.ctsNext x.mode).toNat ≤ x.totalPkts.toNat := by
        have : (f.ctsNext x.mode) ≠ 0 := fun h => hnx (.inl h)
        have h2 : (f.ctsNext x.mode).toNat ≠ 0 := fun h => this (BitVec.eq_of_toNat_eq (by simpa using h))
        omega
      have e : ((f.ctsNext x.mode).setWidth 32).toNat = (f.ctsNext x.mode).toNat := by
        simp; omega
      have hb : (f.byte 1).toNat < 256 := (f.byte 1).isLt
      refine .write hx ⟨rfl, rfl, rfl, rfl, rfl, rfl, rfl, rfl, rfl, fun _ => rfl⟩
        (hg.later ⟨rfl, rfl, rfl, rfl, rfl, rfl, rfl, rfl, rfl, fun _ => rfl⟩ rfl (fun h => by simp [hd] at h) ?_ ?_ ?_ ?_ (fun h => absurd h hm) ?_ (by simp))
      · rcases hm' : x.mode <;> simp_all [Session.legalState]
      · rcases hst with h | h | h <;> rcases hk : x.pending with _ | k <;> (try rcases k) <;> simp_all [Session.legalPending]
      · simp only [e]; omega
      · simp only [e]; omega
      · intro _; simp only [e, BitVec.toNat_ofNat]; omega

/-- A received CTS. -/
theorem rxCts_wf {f : Frame} {m : Mode} {sa da : Addr} {s : State} (hs : s.wf) (hm : m ≠ .bam) : (rxCts f m sa da s).wf := by
  simp only [rxCts]
  split
  · exact State.wf_congr hs rfl rfl
  · rename_i i x h
    obtain ⟨hh, hxm⟩ := txTarget_holds h
    have hg := State.wf_session hs hh.1
    have hd := (Session.hasKey_iff.mp hh.2).2.2.2
    have fin : ∀ {u : State}, Keeps i s (.ok u) → u.wf := fun k => by obtain ⟨t, ht, hw⟩ := k.wf hs; cases ht; exact hw
    split
    · exact fin (grantCts_keeps hh.1 hg (hxm ▸ hm) hd (by simp_all))
    · exact fin (grantCts_keeps hh.1 hg (hxm ▸ hm) hd (by simp_all))
    · exact fin (grantCts_keeps hh.1 hg (hxm ▸ hm) hd (by simp_all))
    · exact fin (abortSession_keeps hh.1 _ _)
    · exact State.wf_congr hs rfl rfl

/-- A received EOMA. -/
theorem rxEoma_answersGood {f : Frame} {m : Mode} {sa da : Addr} {s : State} (hs : s.wf) : AnswersGood (rxEoma f m sa da s) := by
  simp only [rxEoma]
  split
  · exact dropFrame_answersGood hs _
  · rename_i i x h
    obtain ⟨hh, -⟩ := txTarget_holds h
    have hd := (Session.hasKey_iff.mp hh.2).2.2.2
    split
    · exact (complete_keeps fun h => by simp [hd] at h).wf hs
    · exact dropFrame_answersGood hs _

/-- A received RTS. -/
theorem rxRts_answersGood {f : Frame} {m : Mode} {sa da : Addr} {s : State} (hs : s.wf) (hm : m ≠ .bam) (hc : f.channel.toNat < s.cfg.numChannels)
    (hda : da ≠ globalAddr) : AnswersGood (rxRts f m sa da s) := by
  simp only [rxRts]
  split
  · exact ⟨_, rfl, State.wf_congr hs rfl rfl⟩
  · rename_i hkf
    split
    · exact ⟨_, rfl, State.wf_congr hs rfl rfl⟩
    · rename_i he
      split
      · exact ⟨_, rfl, State.wf_congr hs rfl rfl⟩
      · rename_i i hi
        split
        · have hk : s.keyFree f.channel sa da .rx := State.findSlot_eq_none.mp (Option.not_isSome_iff_eq_none.mp (by simpa using hkf))
          have hi' := State.freeSlot_eq_some.mp hi
          have hl : 1 ≤ (f.rtsLen m).toNat ∧ (f.rtsLen m).toNat ≤ m.maxLen := by
            simp only [rtsFrameError] at he
            split at he
            · cases he
            · cases m <;> simp only [Mode.maxLen] at he ⊢
              · split at he
                · cases he
                · omega
              · exact absurd rfl hm
              · split at he
                · cases he
                · omega
          have hg := opened_good (draw := s.draws) (c := s.cfg) (ch := f.channel) (mode := m) (dir := .rx) (src := sa) (dst := da) (pgn := f.pgnField)
            (len := f.rtsLen m) (most := if m = .tp && f.byte 4 != 0 then f.byte 4 else 0xFF) (st := .requestReceived) (now := f.timestamp)
            (k := some .cts) (buf := []) hc (by constructor <;> intro h <;> contradiction) hl.1 hl.2 (.inl ⟨rfl, hm, rfl, rfl⟩) rfl (by simp) (by simp)
          exact open_offer_answersGood (s := s) hs hi' hk (fun h => absurd h hm) hg
        · exact ⟨_, rfl, State.wf_congr hs rfl rfl⟩

/-- A receiver after its next packet was stored. -/
theorem Session.Good.stored {c : Config} {x : Session} (hg : x.Good c) {f : Frame} (hf : f.data.length = 8) (hk : x.nextPkt.toNat ≤ x.totalPkts.toNat)
    (hd : x.dir = .rx) {buf : Memory} (hb : storePacket f x = .ok { x with buf := buf }) (hs : x.stores f buf) {y : Session}
    (hy : x.Kin y) (hyb : y.buf = buf) (hyn : y.nextPkt.toNat = x.nextPkt.toNat + 1) (h1 : y.legalState = true) (h2 : y.legalPending = true)
    (h3 : x.mode = .bam → y.nextPkt.toNat ≤ x.totalPkts.toNat)
    (h4 : x.mode ≠ .bam → y.nextPkt.toNat + y.burstLeft.toNat ≤ x.totalPkts.toNat + 1) : y.Good c where
  channel := hy.channel ▸ hg.channel
  global := by rw [hy.mode, hy.dst]; exact hg.global
  state := h1
  pending := h2
  lenPos := hy.totalLen ▸ hg.lenPos
  lenMax := by rw [hy.totalLen, hy.mode]; exact hg.lenMax
  count := by rw [hy.totalPkts, hy.totalLen]; exact hg.count
  nextPos := by omega
  nextMax := by rw [hy.totalPkts]; omega
  bam := by rw [hy.mode, hy.totalPkts]; exact h3
  grant h := by rw [hy.totalPkts]; refine h4 fun hm => ?_; simp [Session.holdsGrant, hy.mode, hm] at h
  offset := by rw [hy.dir]; intro _ h; rw [hd] at h; cases h
  bufWf := hyb ▸ hs.1
  bufBound := by
    rw [hyb, hy.totalLen]
    obtain ⟨a, b⟩ := memWrite_eq_ok.mp hb
    have : buf = x.buf.setBytes (packetOffset x.nextPkt).toNat ((f.data.drop 1).take (packetBytes x (packetOffset x.nextPkt))) := by
      have := congrArg Session.buf b; exact this
    rw [this]
    exact Memory.all_setBytes _ hg.bufBound a
  filled j hj := by
    rw [hyb, hs.2 j]
    have hp := hg.nextPos
    simp only [Session.filledLen, hy.dir, hd, hy.totalLen, hyn, bytesPerPacket] at hj
    split
    · rename_i hj'
      have : j - 7 * (x.nextPkt.toNat - 1) + 1 < f.data.length := by omega
      simp [this]
    · exact hg.filled j (by simp [Session.filledLen, hd, bytesPerPacket]; omega)

/-- A data frame with a grant outstanding. -/
theorem acceptData_answersGood {f : Frame} {i : Nat} {x : Session} {s : State} (hs : s.wf) (hx : s.slot i = some x) (hf : f.data.length = 8)
    (hm : x.mode ≠ .bam) (hd : x.dir = .rx) (hgr : x.granted) : AnswersGood (acceptData f i x s) := by
  have hg := State.wf_session hs hx
  simp only [acceptData]
  split
  · rename_i hseq
    have ht := x.totalPkts.isLt
    have hpn : x.pending = none := hgr.2.2.1
    have hb1 : 1 ≤ x.burstLeft.toNat := by
      have := hgr.2.1
      have : x.burstLeft.toNat ≠ 0 := fun h => this (BitVec.eq_of_toNat_eq (by simpa using h))
      omega
    have hgrant := hg.grant (by simp [Session.holdsGrant, hm, hd])
    obtain ⟨buf, hb, hst⟩ := hg.storePacket_ok hf (by omega)
    rw [hb]
    simp only
    let z := { x with buf := buf, nextPkt := x.nextPkt + 1#32, burstLeft := x.burstLeft - 1#8, state := .receiving, lastActivity := f.timestamp }
    have hzn : z.nextPkt.toNat = x.nextPkt.toNat + 1 := by simp only [z]; bv_omega
    have hzb : z.burstLeft.toNat = x.burstLeft.toNat - 1 := by simp only [z]; bv_omega
    have hkin : x.Kin z := ⟨rfl, rfl, rfl, rfl, rfl, rfl, rfl, rfl, rfl, fun h => by rw [hd] at h; cases h⟩
    have hw : Serves i s (s.setSlot i (some z)) := .write hx hkin
    have hz' : (s.setSlot i (some z)).slot i = some z := State.slot_setSlot_self _ (State.lt_of_slot hx) _
    have good : ∀ k, (k = none → z.allPackets = false) → (k = some .eoma → z.allPackets = true) → (k = some .cts → z.allPackets = false) →
        (k = none ∨ k = some .eoma ∨ k = some .cts) → ({ z with pending := k } : Session).Good s.cfg := by
      intro k k1 k2 k3 k4
      refine Session.Good.stored hg hf (by omega) hd hb hst (y := { z with pending := k }) ⟨rfl, rfl, rfl, rfl, rfl, rfl, rfl, rfl, rfl, fun h => by rw [hd] at h; cases h⟩ rfl hzn ?_ ?_ (fun h => absurd h hm) (fun _ => ?_)
      · rcases hm' : x.mode <;> simp_all [Session.legalState, z]
      · have e : ({ z with pending := k } : Session).allPackets = z.allPackets := rfl
        rcases k4 with rfl | rfl | rfl
        · have := k1 rfl; simp only [Session.legalPending, e, this]; simp [z, hd]
        · have := k2 rfl; simp only [Session.legalPending, e, this]; simp [z, hd, hm]
        · have := k3 rfl; simp only [Session.legalPending, e, this]; simp [z, hd, hm]
      · show z.nextPkt.toNat + z.burstLeft.toNat ≤ _
        omega
    by_cases ha : z.allPackets = true
    · rw [if_pos ha]
      exact (Keeps.after hw (offer_keeps hz' (good _ (by simp) (fun _ => ha) (by simp) (by simp)))).wf hs
    · rw [if_neg ha]
      split
      · exact (Keeps.after hw (offer_keeps hz' (good _ (by simp) (by simp) (fun _ => by simpa using ha) (by simp)))).wf hs
      · exact (Keeps.write hx hkin (by have := good none (fun _ => by simpa using ha) (by simp) (by simp) (by simp); rw [← hpn] at this; exact this)).wf hs
  · exact (abortSession_keeps hx _ _).wf hs

/-- A received data frame. -/
theorem rxData_answersGood {f : Frame} {m : Mode} {sa da : Addr} {s : State} (hs : s.wf) (hm : m ≠ .bam) (hf : f.data.length = 8) :
    AnswersGood (rxData f m sa da s) := by
  simp only [rxData]
  split
  · exact dropFrame_answersGood hs _
  · rename_i i x h
    have hh := State.findSlot_eq_some h
    split
    · exact dropFrame_answersGood hs _
    · rename_i hxm
      split
      · exact (abortSession_keeps hh.1 _ _).wf hs
      · rename_i hng
        have hxm : x.mode = m := by simpa using hxm
        exact acceptData_answersGood hs hh.1 hf (hxm ▸ hm) (Session.hasKey_iff.mp hh.2).2.2.2 (noGrant_iff.mp (by simpa using hng))

/-- A received DPO. -/
theorem rxDpo_wf {f : Frame} {sa da : Addr} {s : State} (hs : s.wf) : (rxDpo f sa da s).wf := by
  simp only [rxDpo]
  have fin : ∀ {i : Nat} {u : State}, Keeps i s (.ok u) → u.wf := fun k => by obtain ⟨t, ht, hw⟩ := k.wf hs; cases ht; exact hw
  split
  · exact State.wf_congr hs rfl rfl
  · rename_i i x h
    have hh := State.findSlot_eq_some h
    have hg := State.wf_session hs hh.1
    have hd := (Session.hasKey_iff.mp hh.2).2.2.2
    split
    · exact State.wf_congr hs rfl rfl
    · split
      · exact State.wf_congr hs rfl rfl
      · split
        · exact fin (abortSession_keeps hh.1 _ _)
        · rename_i hnot
          split
          · exact fin (abortSession_keeps hh.1 _ _)
          · split
            · exact fin (abortSession_keeps hh.1 _ _)
            · rename_i hm _ _ hdn _
              have hgr := hg.grant (by simp_all [Session.holdsGrant])
              refine fin (.write hh.1 ⟨rfl, rfl, rfl, rfl, rfl, rfl, rfl, rfl, rfl, fun _ => rfl⟩
                (hg.later ⟨rfl, rfl, rfl, rfl, rfl, rfl, rfl, rfl, rfl, fun _ => rfl⟩ rfl (fun _ => Nat.le_refl _) hg.state hg.pending hg.nextPos hg.nextMax hg.bam (fun _ => ?_)
                (fun _ h => by simp [hd] at h)))
              show x.nextPkt.toNat + (f.byte 1).toNat ≤ _
              omega

/-- The old session of a peer that announces anew is gone and its key free. -/
theorem endOldReceiver_wf {f : Frame} {sa : Addr} {s : State} (hs : s.wf) : (endOldReceiver f sa s).wf ∧ (endOldReceiver f sa s).keyFree f.channel sa globalAddr .rx ∧
    (endOldReceiver f sa s).cfg = s.cfg := by
  simp only [endOldReceiver]
  split
  · rename_i o x h
    have hh := State.findSlot_eq_some h
    obtain ⟨t, ht, hw⟩ := (abortSession_keeps hh.1 .anyOther false).wf hs
    cases ht
    refine ⟨hw, fun j y hy => ?_, by simp⟩
    by_cases hj : j = o
    · subst hj; rw [abortSession_slot] at hy; cases hy
    · rw [(abortSession_serves o .anyOther false hh.1).others j hj] at hy
      refine Bool.eq_false_iff.mpr fun hk => ?_
      have := State.findSlot_of_holds hs.2.2.2 ⟨hy, hk⟩
      rw [h] at this; cases this; exact hj rfl
  · rename_i h
    exact ⟨hs, State.findSlot_eq_none.mp h, rfl⟩

/-- A received BAM announce. -/
theorem rxAnnounce_wf {f : Frame} {sa : Addr} {s : State} (hs : s.wf) (hc : f.channel.toNat < s.cfg.numChannels) : (rxAnnounce f sa s).wf := by
  simp only [rxAnnounce]
  split
  · exact State.wf_congr hs rfl rfl
  · rename_i hl
    obtain ⟨h1, h2, h3⟩ := endOldReceiver_wf (f := f) (sa := sa) hs
    split
    · exact State.wf_congr h1 rfl rfl
    · rename_i i hi
      split
      · have hlen : 1 ≤ (f.rtsLen .bam).toNat := by
          have : f.rtsLen .bam ≠ 0 := fun h => hl (.inl h)
          have : (f.rtsLen .bam).toNat ≠ 0 := fun h => this (BitVec.eq_of_toNat_eq (by simpa using h))
          omega
        refine open_wf (s := endOldReceiver f sa s) h1 (State.freeSlot_eq_some.mp hi) h2 (fun _ h => by cases h) ?_
        exact opened_good (k := none) (buf := []) (by simpa [h3] using hc) (by simp [globalAddr]) hlen (Nat.le_of_not_lt fun h => hl (.inr (.inl h))) (.inr (.inl ⟨rfl, rfl, rfl, rfl⟩)) rfl (by simp) (by simp)
      · exact State.wf_congr h1 rfl rfl

/-- A received broadcast data frame. -/
theorem rxBamData_answersGood {f : Frame} {sa : Addr} {s : State} (hs : s.wf) (hf : f.data.length = 8) : AnswersGood (rxBamData f sa s) := by
  simp only [rxBamData]
  split
  · exact dropFrame_answersGood hs _
  · rename_i i x h
    have hh := State.findSlot_eq_some h
    have hg := State.wf_session hs hh.1
    obtain ⟨-, -, hdst, hd⟩ := Session.hasKey_iff.mp hh.2
    have hm : x.mode = .bam := hg.global.mpr hdst
    have hst : x.state = .receiving := by have := hg.state; rcases hx : x.state <;> simp_all [Session.legalState]
    have hpn : x.pending = none := by have := hg.pending; rcases hk : x.pending with _ | k <;> (try rcases k) <;> simp_all [Session.legalPending]
    split
    · have hn := hg.bam hm
      have ht := x.totalPkts.isLt
      obtain ⟨buf, hb, hsto⟩ := hg.storePacket_ok hf hn
      rw [hb]
      simp only
      let z := { x with buf := buf, nextPkt := x.nextPkt + 1#32, lastActivity := f.timestamp }
      have hzn : z.nextPkt.toNat = x.nextPkt.toNat + 1 := by simp only [z]; bv_omega
      have hkin : x.Kin z := ⟨rfl, rfl, rfl, rfl, rfl, rfl, rfl, rfl, rfl, fun h => by rw [hd] at h; cases h⟩
      by_cases ha : z.allPackets = true
      · rw [if_pos ha]
        refine (Keeps.after (Serves.write hh.1 hkin) (complete_keeps fun _ => ?_)).wf hs
        exact hg.stores_last hd hf hsto (by have := Session.allPackets_iff.mp ha; simp only [z] at this hzn; omega)
      · rw [if_neg ha]
        have ha' : ¬ z.totalPkts.toNat < z.nextPkt.toNat := fun h => ha (Session.allPackets_iff.mpr h)
        refine (Keeps.write hh.1 hkin ?_).wf hs
        refine Session.Good.stored hg hf hn hd hb hsto hkin rfl hzn (by simp [Session.legalState, z, hm, hd, hst]) ?_ (fun _ => by simp only [z] at ha' ⊢; omega) (fun h => absurd hm h)
        have : z.allPackets = false := by simpa using ha
        simp only [Session.legalPending, this]; simp [z, hd, hst, hpn]
    · exact (abortSession_keeps hh.1 _ _).wf hs

/-- The service of some slots. -/
theorem serviceSlots_answersGood {now : Millis} : ∀ {l : List Nat} {s : State}, s.wf → AnswersGood (serviceSlots now l s) := by
  intro l
  induction l with
  | nil => intro s hs; exact ⟨s, rfl, hs⟩
  | cons i l ih =>
    intro s hs
    simp only [serviceSlots]
    split
    · exact ih hs
    · rename_i x hx
      obtain ⟨t, ht, hw⟩ := (serviceSlot_keeps (now := now) hx (State.wf_session hs hx)).wf hs
      rw [ht]; exact ih hw

/-- A sender opened where a slot and a buffer can be had. -/
theorem openTx_answersGood {q : SendRequest} {m : Mode} {dst : Addr} {k : Control} {s : State} (hs : s.wf) (hc : q.channel.toNat < s.cfg.numChannels)
    (hp : q.payload.length = q.len.toNat) (hg : m = .bam ↔ dst = globalAddr) (h1 : 1 ≤ q.len.toNat) (h2 : q.len.toNat ≤ m.maxLen)
    (hk : (m ≠ .bam ∧ k = .rts) ∨ (m = .bam ∧ k = .announce)) (hf : s.keyFree q.channel q.src dst .tx) (hb : m = .bam → s.bamTxActive q.channel = false) :
    ∃ b t, openTx q m dst k s = .ok (b, t) ∧ t.wf := by
  simp only [openTx]
  split
  · exact ⟨_, _, rfl, hs⟩
  · rename_i i hi
    split
    · have hw : memWrite (Session.opened q.channel m .tx q.src dst (q.pgn.setWidth 18) q.len 0xFF .idle q.now s.draws) 0 q.payload =
          .ok { Session.opened q.channel m .tx q.src dst (q.pgn.setWidth 18) q.len 0xFF .idle q.now s.draws with buf := Memory.setBytes [] 0 q.payload } :=
        memWrite_eq_ok.mpr ⟨by simp [Session.opened, hp], rfl⟩
      have hgood := opened_good (draw := s.draws) (c := s.cfg) (ch := q.channel) (mode := m) (dir := .tx) (src := q.src) (dst := dst) (pgn := q.pgn.setWidth 18) (len := q.len)
        (most := 0xFF) (st := .idle) (now := q.now) (k := some k) (buf := Memory.setBytes [] 0 q.payload) hc hg h1 h2
        (by rcases hk with ⟨a, rfl⟩ | ⟨a, rfl⟩ <;> simp [a]) (Memory.setBytes_wf _ rfl _)
        (Memory.all_setBytes _ (by simp) (by omega)) (fun _ j hj => by
          have := Memory.byte_setBytes_of_inside q.payload [] 0 (j := j) (by omega)
          simp at this; simp [this])
      simp only [openSession, hw]
      obtain ⟨t, ht, hwf⟩ := open_offer_answersGood (s := s) (k := k) (now := q.now) hs (State.freeSlot_eq_some.mp hi)
        (x := { Session.opened q.channel m .tx q.src dst (q.pgn.setWidth 18) q.len 0xFF .idle q.now s.draws with buf := Memory.setBytes [] 0 q.payload })
        hf (fun h _ => hb h) hgood
      rw [ht]; exact ⟨_, _, rfl, hwf⟩
    · exact ⟨_, _, rfl, State.wf_congr hs rfl rfl⟩

end Sys2Proof.Machine
end

