-- ==== Sys2Proof/Tests/Slice0.lean ====
section
/-! SUPPORT. The model's own tests. Expected values are the spec's: records written out from 30_encoding.md R80 and R81 in the byte layout of log 2, results from 95_test_vectors.md (the vector is named). The witnesses show that the hypotheses of a statement can be met together. -/

namespace Sys2Proof.Tests
open Sys2Proof.Machine

/-! ### A small block -/

/-- A block with these slots, answers of the driver and allocator; on channel 0 it owns 0x80 and 0x1C, and can reach both (95_test_vectors.md, setting). -/
def blk (slots : List (Option Session)) (driver : List Bool := []) (alloc : Allocator := .free) : State :=
  { State.resetWith { Config.default with maxSessions := slots.length, allocator := alloc } with
    slots := slots, driverIn := driver
    registry := ⟨[(0, 0x80), (0, 0x1C)], [(0, 0x80), (0, 0x1C)]⟩ }

/-- `can_allocate` always true: no message is longer (95_test_vectors.md, setting). -/
def allocates : Allocator := .upTo 117440505

/-- What a command leaves, read through `f`. -/
def after {α : Type} (i : Instr) (s : State) (f : State → α) : Option α :=
  match exec i s with
  | .next t => some (f t)
  | .fault _ => none
  | .refused _ => none

/-- An extended frame of eight bytes on channel 0. -/
def frame (id : Word) (data : List Byte) (now : Millis := 0) : Frame := ⟨0, id, data, 8, true, now⟩

/-- What a transport command shows: the slots, the frames offered (identifier, data), the events. -/
structure Shown where
  slots  : List (Option Session)
  sent   : List (Word × List Byte)
  events : List Event
deriving DecidableEq

/-- What a state shows. -/
def shown (s : State) : Shown := ⟨s.slots, s.offered.map fun o => (o.frame.identifier, o.frame.data), s.events⟩

/-- N0 of 95_test_vectors.md. -/
def n0 : NameWord := 0xA332811108A12345

/-- N0 as eight bytes. -/
def n0Bytes : List Byte := [0x45, 0x23, 0xA1, 0x08, 0x11, 0x81, 0x32, 0xA3]

/-! ### Decoding: every constructor by a record written out -/

theorem test_decode_idEncode : decode [0x01, 1, 6, 0, 0, 0, 0x00, 0xEF, 0, 0, 0x80, 0x1C] =
    .ok (.idEncode .extended 6 0xEF00 0x80 0x1C) := by decide

theorem test_decode_idDecode : decode [0x02, 0, 0x1C, 0x80, 0xEF, 0x18] = .ok (.idDecode .standard 0x18EF801C) := by decide

theorem test_decode_nameEncode : decode [0x10, 1, 0, 0, 0, 2, 0, 0, 0, 3, 0, 0, 0, 4, 0, 0, 0, 5, 0, 0, 0, 6, 0, 0, 0,
      7, 0, 0, 0, 8, 0, 0, 0, 9, 0, 0, 0, 1] =
    .ok (.nameEncode ⟨1, 2, 3, 4, 5, 6, 7, 8, 9, true⟩) := by decide

theorem test_decode_nameDecode : decode (0x11 :: n0Bytes) = .ok (.nameDecode n0) := by decide

theorem test_decode_nameCmp : decode (0x12 :: n0Bytes ++ [1, 0, 0, 0, 0, 0, 0, 0x80]) =
    .ok (.nameCmp n0 0x8000000000000001) := by decide

theorem test_decode_nameMatch : decode (0x13 :: n0Bytes ++ [2, 4, 0x81, 0, 0, 0, 1, 0x45, 0, 0, 0]) =
    .ok (.nameMatch n0 2 [⟨4, 0x81⟩, ⟨1, 0x45⟩]) := by decide

theorem test_decode_getters :
    decode (0x20 :: n0Bytes) = .ok (.nameGetIdentity n0) ∧ decode (0x21 :: n0Bytes) = .ok (.nameGetManufacturer n0) ∧
    decode (0x22 :: n0Bytes) = .ok (.nameGetEcuInstance n0) ∧ decode (0x23 :: n0Bytes) = .ok (.nameGetFunctionInstance n0) ∧
    decode (0x24 :: n0Bytes) = .ok (.nameGetFunction n0) ∧ decode (0x25 :: n0Bytes) = .ok (.nameGetDeviceClass n0) ∧
    decode (0x26 :: n0Bytes) = .ok (.nameGetDeviceClassInstance n0) ∧
    decode (0x27 :: n0Bytes) = .ok (.nameGetIndustryGroup n0) ∧ decode (0x28 :: n0Bytes) = .ok (.nameGetAac n0) := by decide

theorem test_decode_setters :
    decode (0x30 :: n0Bytes ++ [1, 2, 3, 4]) = .ok (.nameSetIdentity n0 0x04030201) ∧
    decode (0x31 :: n0Bytes ++ [1, 2, 3, 4]) = .ok (.nameSetManufacturer n0 0x04030201) ∧
    decode (0x32 :: n0Bytes ++ [1, 2, 3, 4]) = .ok (.nameSetEcuInstance n0 0x04030201) ∧
    decode (0x33 :: n0Bytes ++ [1, 2, 3, 4]) = .ok (.nameSetFunctionInstance n0 0x04030201) ∧
    decode (0x34 :: n0Bytes ++ [1, 2, 3, 4]) = .ok (.nameSetFunction n0 0x04030201) ∧
    decode (0x35 :: n0Bytes ++ [1, 2, 3, 4]) = .ok (.nameSetDeviceClass n0 0x04030201) ∧
    decode (0x36 :: n0Bytes ++ [1, 2, 3, 4]) = .ok (.nameSetDeviceClassInstance n0 0x04030201) ∧
    decode (0x37 :: n0Bytes ++ [1, 2, 3, 4]) = .ok (.nameSetIndustryGroup n0 0x04030201) ∧
    decode (0x38 :: n0Bytes ++ [1, 2, 3, 4]) = .ok (.nameSetAac n0 0x04030201) := by decide

theorem test_decode_txSend : decode [0x40, 7, 0, 0, 0, 1, 0, 0, 0, 0xF1, 0xFE, 0, 0, 0x0B, 0x1C, 0xFF, 2, 0, 0, 0, 0xAA, 0xBB] =
    .ok (.txSend ⟨7, 1, 0xFEF1, some 3, 0x1C, 0xFF, 2, [0xAA, 0xBB]⟩) := by decide

theorem test_decode_txSend_without_priority : decode [0x40, 7, 0, 0, 0, 1, 0, 0, 0, 0xF1, 0xFE, 0, 0, 0, 0x1C, 0xFF, 0, 0, 0, 0] =
    .ok (.txSend ⟨7, 1, 0xFEF1, none, 0x1C, 0xFF, 0, []⟩) := by decide

theorem test_decode_rxFrame : decode [0x41, 0, 0, 0, 0, 0x1C, 0x80, 0xEC, 0x1C, 3, 1, 0x10, 0, 0, 0, 0x20, 0x21, 0x22] =
    .ok (.rxFrame ⟨0, 0x1CEC801C, [0x20, 0x21, 0x22], 3, true, 16⟩) := by decide

theorem test_decode_system :
    decode [0x42, 0xE3, 0x04, 0, 0] = .ok (.update 1251) ∧
    decode [0x43, 3, 0, 0, 0, 1, 0, 0, 0, 0x1C, 0x80, 1] = .ok (.sessionAbort 3 1 0x1C 0x80 .rx) ∧
    decode [0x44] = .ok .status ∧ decode [0x7F] = .ok .reset := by decide

/-- Reserved opcodes (O1; 30_encoding.md R84) and records that are none (R106). -/
theorem test_decode_refuses :
    decode [0x00] = .error (.reservedOpcode 0x00) ∧ decode [0x03, 1] = .error (.reservedOpcode 0x03) ∧
    decode [0x29] = .error (.reservedOpcode 0x29) ∧ decode [0x3F] = .error (.reservedOpcode 0x3F) ∧
    decode [0x7E] = .error (.reservedOpcode 0x7E) ∧ decode [] = .error .emptyRecord ∧
    decode [0x44, 0] = .error (.badRecord 0x44) ∧ decode [0x42, 1, 2, 3] = .error (.badRecord 0x42) ∧
    decode (0x13 :: n0Bytes ++ [2, 4, 0x81, 0, 0, 0]) = .error (.badRecord 0x13) := by decide

/-- Every opcode of the table, its operands zero, runs as the first command after reset. -/
theorem test_table_words_run :
    ([0x01, 0x02, 0x10, 0x11, 0x12, 0x13, 0x20, 0x21, 0x22, 0x23, 0x24, 0x25, 0x26, 0x27, 0x28, 0x30, 0x31, 0x32, 0x33, 0x34,
      0x35, 0x36, 0x37, 0x38, 0x40, 0x41, 0x42, 0x43, 0x44, 0x7F].all fun w =>
        (decodeTableWord 8 w).isSome && match step (State.reset.withFetchWord 8 w) with | .next _ => true | _ => false) = true := by
  decide

/-! ### WellFormed: an ill-formed term for each check -/

theorem test_wf_nameMatch_count : (Instr.nameMatch n0 2 [⟨4, 0x81⟩]).wf = false ∧ (Instr.nameMatch n0 1 [⟨4, 0x81⟩]).wf = true := by
  decide

theorem test_wf_txSend_length :
    (Instr.txSend ⟨0, 0, 0, none, 0x1C, 0x80, 3, [1, 2]⟩).wf = false ∧
    (Instr.txSend ⟨0, 0, 0, none, 0x1C, 0x80, 2, [1, 2]⟩).wf = true := by decide

/-! ### The codecs -/

/-- I1, I2 and I10. -/
theorem test_idEncode :
    after (.idEncode .extended 6 0xEF00 0x80 0x1C) State.reset (·.out.raw) = some 0x18EF801C ∧
    after (.idEncode .extended 3 0xFEF1 0x00 0x00) State.reset (·.out.raw) = some 0x0CFEF100 ∧
    after (.idEncode .extended 6 0x7FEF00 0x80 0x1C) State.reset (·.out.raw) = some 0x1BEF801C := by decide

theorem test_idEncode_standard : after (.idEncode .standard 6 0xEF00 0x80 0x1C) State.reset (·.out.status) = some .unsupported := by
  decide

/-- The result ports of ID_DECODE. -/
def decoded (s : State) : IdFields × Bool := (⟨s.out.prio, s.out.pgn, s.out.da, s.out.sa⟩, s.out.valid)

/-- D1, D2 and D5. -/
theorem test_idDecode :
    after (.idDecode .extended 0x18EF801C) State.reset decoded = some (⟨6, 0xEF00, 0x80, 0x1C⟩, true) ∧
    after (.idDecode .extended 0x0CFEF100) State.reset decoded = some (⟨3, 0xFEF1, 0xFF, 0x00⟩, true) ∧
    after (.idDecode .extended 0xFFFFFFFF) State.reset decoded = some (⟨7, 0x3FFFF, 0xFF, 0xFF⟩, false) := by decide

theorem test_idDecode_standard :
    after (.idDecode .standard 0x7FF) State.reset (·.out.valid) = some true ∧
    after (.idDecode .standard 0x800) State.reset (·.out.valid) = some false := by decide

/-- N0's row, and operands truncated to their fields. -/
theorem test_nameEncode :
    after (.nameEncode ⟨0x12345, 0x45, 1, 2, 0x81, 0x19, 3, 2, 1, false⟩) State.reset (·.out.name) = some n0 ∧
    after (.nameEncode ⟨0xFFFFFFFF, 0xFFFFFFFF, 0xFFFFFFFF, 0xFFFFFFFF, 0xFFFFFFFF, 0xFFFFFFFF, 0xFFFFFFFF, 0xFFFFFFFF,
      0xFFFFFFFF, false⟩) State.reset (·.out.name) = some 0xFFFEFFFFFFFFFFFF := by decide

/-- The third row of the NAME_DECODE table. -/
theorem test_nameDecode : after (.nameDecode 0x0123456789ABCDEF) State.reset (·.out.fields) =
    some ⟨0xBCDEF, 0x44D, 7, 0xC, 0x45, 0x11, 1, 0, 0, true⟩ := by decide

theorem test_nameCmp :
    after (.nameCmp n0 0xA332FF1108A12345) State.reset (·.out.order) = some 0 ∧
    after (.nameCmp n0 n0) State.reset (·.out.order) = some 1 ∧
    after (.nameCmp 0x8000000000000000 0x7FFFFFFFFFFFFFFF) State.reset (·.out.order) = some 2 := by decide

theorem test_nameMatch :
    after (.nameMatch n0 0 []) State.reset (·.out.matched) = some true ∧
    after (.nameMatch n0 2 [⟨4, 0x81⟩, ⟨1, 0x45⟩]) State.reset (·.out.matched) = some true ∧
    after (.nameMatch n0 1 [⟨4, 0x181⟩]) State.reset (·.out.matched) = some false := by decide

theorem test_nameMatch_reserved : after (.nameMatch n0 1 [⟨9, 0⟩]) State.reset (·.out.status) = some .illegal := by decide

theorem test_getters :
    after (.nameGetIdentity n0) State.reset (·.out.value) = some 0x12345 ∧
    after (.nameGetManufacturer n0) State.reset (·.out.value) = some 0x45 ∧
    after (.nameGetEcuInstance n0) State.reset (·.out.value) = some 1 ∧
    after (.nameGetFunctionInstance n0) State.reset (·.out.value) = some 2 ∧
    after (.nameGetFunction n0) State.reset (·.out.value) = some 0x81 ∧
    after (.nameGetDeviceClass n0) State.reset (·.out.value) = some 0x19 ∧
    after (.nameGetDeviceClassInstance n0) State.reset (·.out.value) = some 3 ∧
    after (.nameGetIndustryGroup n0) State.reset (·.out.value) = some 2 ∧
    after (.nameGetAac n0) State.reset (·.out.value) = some 1 := by decide

/-- S1, S5, S8, S11, S2, S6, S10, S9 and S4. -/
theorem test_setters :
    after (.nameSetIdentity n0 0x3FFFFF) State.reset (·.out.name) = some 0xA332811108BFFFFF ∧
    after (.nameSetManufacturer n0 0x800) State.reset (·.out.name) = some 0xA332811100012345 ∧
    after (.nameSetEcuInstance n0 7) State.reset (·.out.name) = some 0xA332811708A12345 ∧
    after (.nameSetFunctionInstance n0 0x1F) State.reset (·.out.name) = some 0xA33281F908A12345 ∧
    after (.nameSetFunction n0 0xFF) State.reset (·.out.name) = some 0xA332FF1108A12345 ∧
    after (.nameSetDeviceClass 0x0001000000000000 0x7F) State.reset (·.out.name) = some 0x00FF000000000000 ∧
    after (.nameSetDeviceClassInstance n0 0xF) State.reset (·.out.name) = some 0xAF32811108A12345 ∧
    after (.nameSetIndustryGroup n0 0) State.reset (·.out.name) = some 0x8332811108A12345 ∧
    after (.nameSetAac n0 2) State.reset (·.out.name) = some 0x2332811108A12345 := by decide

/-! ### Sessions to test on -/

/-- A buffer of these bytes. -/
def bufOf (bytes : List Byte) : Memory := Memory.setBytes [] 0 bytes

/-- A sender of 01..09 from 0x1C to 0x80, PGN 0xEF00, in two packets, after its RTS. -/
def sender (mode : Mode) (state : SessionState) : Session :=
  { channel := 0, mode := mode, dir := .tx, src := 0x1C, dst := 0x80, pgn := 0xEF00, totalLen := 9, totalPkts := 2, nextPkt := 1,
    burstLeft := 0, rtsMax := 0xFF, dpoOffset := 0, dpoSeen := false, hold := false, state := state, pending := none,
    lastActivity := 0, abortReason := 0, buf := bufOf [1, 2, 3, 4, 5, 6, 7, 8, 9], bufDraw := 0 }

/-- A receiver of nine bytes from 0x1C at 0x80, PGN 0xEF00, in two packets, after its CTS for both. -/
def receiver (mode : Mode) : Session :=
  { sender mode .clearToSendSent with dir := .rx, burstLeft := 2, dpoSeen := mode == .etp, buf := [] }

/-- A broadcast sender of ten bytes from 0x1C, PGN 0xFECA. -/
def bamSender (state : SessionState) : Session :=
  { sender .bam state with dst := 0xFF, pgn := 0xFECA, totalLen := 10
                           buf := bufOf [0xA0, 0xA1, 0xA2, 0xA3, 0xA4, 0xA5, 0xA6, 0xA7, 0xA8, 0xA9] }

/-- A broadcast receiver of ten bytes from 0x1C, PGN 0xFECA. -/
def bamReceiver : Session := { bamSender .receiving with dir := .rx, buf := [] }

/-! ### The transport engine -/

/-- P4, line 1: the RTS goes out, the session waits for a CTS. -/
theorem test_txSend : after (.txSend ⟨0, 0, 0xEF00, none, 0x1C, 0x80, 9, [1, 2, 3, 4, 5, 6, 7, 8, 9]⟩) (blk [none] [true] allocates)
      (fun t => (t.out.accepted, shown t)) =
    some (true, ⟨[some (sender .tp .requestedToSend)], [(0x1CEC801C, [0x10, 9, 0, 2, 0xFF, 0, 0xEF, 0])], []⟩) := by decide

/-- M1: a single frame. -/
theorem test_txSend_single : after (.txSend ⟨0, 0, 0xFEF1, some 3, 0x1C, 0xFF, 3, [1, 2, 3]⟩) (blk [none] [true]) shown =
    some ⟨[none], [(0x0CFEF11C, [1, 2, 3])], []⟩ := by decide

/-- A buffer just taken holds any byte (U3); an access outside it is a fault (U2). -/
theorem test_unwritten : memRead (receiver .tp) 8 1 = .ok [Config.freeByte 0 8] ∧ memRead (receiver .tp) 9 1 = .error .bufferBounds := by
  exact ⟨rfl, rfl⟩

/-- The separate vector of `can_allocate`, at a limit of 8 bytes: nothing is sent. -/
theorem test_txSend_no_buffer : after (.txSend ⟨0, 0, 0xEF00, none, 0x1C, 0x80, 9, [1, 2, 3, 4, 5, 6, 7, 8, 9]⟩) (blk [none] [true] (.upTo 8))
      (fun t => (t.out.accepted, shown t)) = some (false, ⟨[none], [], []⟩) := by decide

/-- P3, line 3: the last packet is acknowledged and the message delivered. -/
theorem test_rxFrame :
    after (.rxFrame (frame 0x1CEB801C [2, 0x88, 0x99, 0xFF, 0xFF, 0xFF, 0xFF, 0xFF] 20))
      (blk [some { receiver .tp with nextPkt := 2, burstLeft := 1, state := .receiving,
                                     buf := bufOf [0x11, 0x22, 0x33, 0x44, 0x55, 0x66, 0x77] }] [true]) shown =
    some ⟨[none], [(0x1CEC1C80, [0x13, 9, 0, 2, 0xFF, 0, 0xEF, 0])],
      [.delivered 0 0xEF00 0x1C 0x80 9 [0x11, 0x22, 0x33, 0x44, 0x55, 0x66, 0x77, 0x88, 0x99] 0]⟩ := by decide

/-- T1: an RTS for 1786 bytes is rejected as too big. -/
theorem test_rxFrame_tooBig : after (.rxFrame (frame 0x1CEC801C [0x10, 0xFA, 6, 0xFF, 0xFF, 0, 0xEF, 0])) (blk [none] [true]) shown =
    some ⟨[none], [(0x1CEC1C80, [0xFF, 9, 0xFF, 0xFF, 0xFF, 0, 0xEF, 0])], []⟩ := by decide

/-- P4, line 3: both packets of the grant go out. -/
theorem test_update :
    after (.update 10) (blk [some { sender .tp .clearToSendReceived with burstLeft := 2 }] [true, true]) shown =
    some ⟨[some { sender .tp .waitingForEndAck with nextPkt := 3, lastActivity := 10 }],
      [(0x1CEB801C, [1, 1, 2, 3, 4, 5, 6, 7]), (0x1CEB801C, [2, 8, 9, 0xFF, 0xFF, 0xFF, 0xFF, 0xFF])], []⟩ := by decide

/-- The arbiter (42_session_engine.md R208): slots in ascending order, a refused one keeping none from its turn. -/
theorem test_update_arbiter :
    after (.update 10) (blk [some { sender .tp .sending with burstLeft := 2 }, some { sender .tp .sending with src := 0x21, burstLeft := 1 }]
      [false, true]) (fun t => t.offered.map fun o => (o.frame.identifier, o.accepted)) =
    some [(0x1CEB801C, false), (0x1CEB8021, true)] := by decide

/-- A frame of the engine (30_encoding.md R89): extended, of length 8; a single frame: extended, as long as its data. -/
theorem test_emitted :
    after (.update 1251) (blk [some (receiver .tp)] [true]) (fun t => t.offered.map fun o => (o.frame.channel, o.frame.length, o.frame.extended)) =
      some [(0, 8, true)] ∧
    after (.txSend ⟨0, 0, 0xFEF1, some 3, 0x1C, 0xFF, 3, [1, 2, 3]⟩) (blk [none] [true])
      (fun t => t.offered.map fun o => (o.frame.channel, o.frame.length, o.frame.extended)) = some [(0, 3, true)] := by decide

/-- P6, lines 2 and 3: no timeout at 1250 ms, one at 1251. -/
theorem test_update_timeout :
    after (.update 1250) (blk [some (receiver .tp)] [true]) shown = some ⟨[some (receiver .tp)], [], []⟩ ∧
    after (.update 1251) (blk [some (receiver .tp)] [true]) shown =
      some ⟨[none], [(0x1CEC1C80, [0xFF, 3, 0xFF, 0xFF, 0xFF, 0, 0xEF, 0])], [.aborted 0 .tp .rx 0xEF00 0x1C 0x80 3]⟩ := by decide

/-- X8. -/
theorem test_sessionAbort :
    after (.sessionAbort 3 0 0x1C 0x80 .tx) (blk [some (sender .tp .requestedToSend)] [true]) (fun t => (t.out.found, shown t)) =
    some (true, ⟨[none], [(0x1CEC801C, [0xFF, 0xFA, 0xFF, 0xFF, 0xFF, 0, 0xEF, 0])], [.aborted 0 .tp .tx 0xEF00 0x1C 0x80 250]⟩) := by
  decide

/-- P7, line 3. -/
theorem test_status : after .status (blk [some (bamSender .announced), none])
    (fun t => (t.out.dropCount, t.out.nextMsgId, t.out.active)) = some (0, 0, 1) := by decide

/-- O8. -/
theorem test_reset : after .reset { blk [some (sender .tp .sending), none] with dropCount := 5, nextMsgId := 6 }
    (fun t => (shown t, t.dropCount, t.nextMsgId)) = some (⟨[none, none], [], []⟩, 0, 0) := by decide

/-! ### Witnesses: for each statement with hypotheses, states and operands that meet all of them together -/

/-- A frame to `da` from `sa` of PGN `g`. -/
def frameOf (g : Pgn) (da sa : Addr) (data : List Byte) (now : Millis := 0) : Frame :=
  frame (BitVec.ofNat 32 (0x1C000000 + g.toNat * 256 + da.toNat * 256 + sa.toNat)) data now

/-- The transport PGNs. -/
def transportPgns : List Pgn := [0xEC00, 0xEB00, 0xC800, 0xC700]

/-- Destinations and sources: to a sender, to a receiver, to all, to another node. -/
def parties : List (Addr × Addr) := [(0x1C, 0x80), (0x80, 0x1C), (0xFF, 0x1C), (0x20, 0x1C)]

theorem frameOf_identifier : (transportPgns.all fun g => parties.all fun a =>
    let id := (frameOf g a.1 a.2 []).identifier
    decide (id.toNat < 2 ^ 29) && idDecode id == ⟨7, g, a.1, a.2⟩) = true := by rfl

theorem received {slots : List (Option Session)} {driver : List Bool} {alloc : Allocator} {g : Pgn} {da sa : Addr} {data : List Byte} {now : Millis}
    (hg : g ∈ transportPgns) (ha : (da, sa) ∈ parties) (hd : data.length = 8) :
    Received (blk slots driver alloc) (frameOf g da sa data now) g da sa := by
  have key := List.all_eq_true.1 (List.all_eq_true.1 frameOf_identifier g hg) (da, sa) ha
  simp only [Bool.and_eq_true, decide_eq_true_eq, beq_iff_eq] at key
  have hi : (frameOf g da sa data now).identifier = (frameOf g da sa []).identifier := rfl
  have hc : (0 : Channel).toNat < 1 := by decide
  exact ⟨hc, rfl, rfl, hd, hi ▸ key.1, by rw [hi, key.2], by rw [hi, key.2], by rw [hi, key.2]⟩

theorem canAllocate {slots : List (Option Session)} {driver : List Bool} {len : Nat} (h : len ≤ 117440505) :
    (blk slots driver allocates).canAllocate len = true := decide_eq_true h

theorem keyFree {s : State} {ch : Channel} {src dst : Addr} {dir : Dir} (h : s.findSlot ch src dst dir = none) :
    s.keyFree ch src dst dir := State.findSlot_eq_none.1 h

theorem lowestFree {s : State} {i : Nat} (h : s.freeSlot = some i) : s.lowestFree i := State.freeSlot_eq_some.1 h

theorem full {s : State} (h : s.freeSlot = none) : s.full := State.freeSlot_eq_none.1 h

theorem only {slots : List (Option Session)} {driver : List Bool} {alloc : Allocator} {x : Session} (h : slots = [some x]) :
    (blk slots driver alloc).only 0 x := by
  subst h; refine ⟨rfl, fun j hj => ?_⟩
  obtain ⟨k, rfl⟩ := Nat.exists_eq_succ_of_ne_zero hj
  rfl

/-- The records of test_decode_nameMatch and of an empty TX_SEND. -/
theorem witness_DecodingARecordGivesItsCommand :
    (Instr.nameMatch n0 2 [⟨4, 0x81⟩, ⟨1, 0x45⟩]).wf = true ∧ (Instr.txSend ⟨0, 0, 0, none, 0, 0, 0, []⟩).wf = true := by decide

theorem witness_ARecordsLengthFollowsFromItsOpcode : ∃ record i, decode record = .ok i := ⟨[0x44], .status, by decide⟩

theorem witness_AStepRunsTheDecodedCommand : ∃ (s : State) (record : List Byte) (reg : Registry) (rest : List Command) (i : Instr),
    s.inbox = ⟨record, reg⟩ :: rest ∧ decode record = .ok i :=
  ⟨State.reset.issue [0x44], [0x44], ⟨[], []⟩, [], .status, by decide⟩

/-- An idle block, an empty record, and one that is cut short. -/
theorem witness_AStepWithoutACommandChangesNothing :
    State.reset.inbox = [] ∧ ((State.reset.issue []).inbox = [⟨[], ⟨[], []⟩⟩] ∧ decode [] = .error .emptyRecord) ∧
    (State.reset.issue [0x42, 0]).inbox = [⟨[0x42, 0], ⟨[], []⟩⟩] ∧ decode [0x42, 0] = .error (.badRecord 0x42) := by decide

/-- The reserved opcodes next to a command's, 17 filters, selectors 9 and 15, channel 1 of one, lengths 9 and 1. -/
theorem witness_ReservedEncodingsAreIllegalWithoutEffect :
    (∀ op ∈ ([0x00, 0x03, 0x0F, 0x14, 0x1F, 0x29, 0x2F, 0x39, 0x3F, 0x45, 0x7E, 0x80, 0xFF] : List Byte), op.toNat ∉
      [0x01, 0x02, 0x10, 0x11, 0x12, 0x13, 0x20, 0x21, 0x22, 0x23, 0x24, 0x25, 0x26, 0x27, 0x28,
        0x30, 0x31, 0x32, 0x33, 0x34, 0x35, 0x36, 0x37, 0x38, 0x40, 0x41, 0x42, 0x43, 0x44, 0x7F]) ∧
    (State.reset.issue [0x45]).inbox = [⟨[0x45], ⟨[], []⟩⟩] ∧
    State.reset.cfg.maxFilters < (17 : Byte).toNat ∧ (∃ f ∈ [(⟨9, 0⟩ : Filter)], 9 ≤ f.field.toNat) ∧
    (∃ f ∈ [(⟨15, 0⟩ : Filter)], 9 ≤ f.field.toNat) ∧ State.reset.cfg.numChannels ≤ (1 : Channel).toNat ∧
    8 < (9 : BitVec 4).toNat ∧ (1 : BitVec 4).toNat ≠ ([] : List Byte).length := by decide

/-- The four shapes of identifier: PDU2 and PDU1 to encode, and to decode, at both sides of 0xF0. -/
theorem witness_IdDecodeUnpacksTheFields :
    0xF0 ≤ bitField (0x18F00001 : Word).toNat 16 8 ∧ bitField (0x18EFFF01 : Word).toNat 16 8 < 0xF0 := by decide

/-- D1, D4 and the largest 29-bit value; the largest PDU1 PGN and the first PDU2 one. -/
theorem witness_IdentifiersRoundTrip :
    (∃ prio pgn da, (prio : Word).toNat ≤ 7 ∧ (pgn : Word).toNat ≤ 0x3FFFF ∧ bitField pgn.toNat 8 8 < 0xF0 ∧ pgn.toNat % 2 ^ 8 = 0 ∧
      (da : Addr) ≠ 0xFF) ∧
    (∃ prio pgn da, (prio : Word).toNat ≤ 7 ∧ (pgn : Word).toNat ≤ 0x3FFFF ∧ 0xF0 ≤ bitField pgn.toNat 8 8 ∧ (da : Addr) = 0xFF) ∧
    State.reset.cfg.idvRejectGlobalSa = false ∧ (0x1FFFFFFF : Word).toNat < 2 ^ 29 :=
  ⟨⟨7, 0x3EF00, 0xFE, by decide⟩, ⟨0, 0xF000, 0xFF, by decide⟩, rfl, by decide⟩

/-- 16 filters of the selectors 0 and 8, none at all, and the two reserved forms. -/
theorem witness_NameMatchTestsEveryFilter :
    ([⟨0, 1⟩, ⟨8, 1⟩] : List Filter).length = (2 : Byte).toNat ∧ (∀ f ∈ ([⟨0, 1⟩, ⟨8, 1⟩] : List Filter), f.field.toNat ≤ 8) ∧
    ([] : List Filter).length = (0 : Byte).toNat ∧
    (List.replicate 16 (⟨8, 1⟩ : Filter)).length = (16 : Byte).toNat ∧ (16 : Byte).toNat ≤ State.reset.cfg.maxFilters ∧
    (List.replicate 17 (⟨8, 1⟩ : Filter)).length = (17 : Byte).toNat ∧ State.reset.cfg.maxFilters < (17 : Byte).toNat ∧
    ([⟨9, 0⟩] : List Filter).length = (1 : Byte).toNat ∧ ∃ f ∈ ([⟨9, 0⟩] : List Filter), 9 ≤ f.field.toNat :=
  ⟨rfl, by decide, rfl, rfl, by decide, rfl, by decide, rfl, by decide⟩

theorem witness_NameSettersLeaveOtherFields : nameLayout[0]? = some (0, 21) ∧ nameLayout[8]? = some (63, 1) := by decide

theorem witness_CodecCommandsChangeNoState : isCodec (.nameMatch n0 17 []) = true ∧ State.reset.cfg = (blk [none, none, none, none]).cfg ∧
    State.reset.draws = (blk [none, none, none, none]).draws := by decide

/-- A request of `len` bytes from 0x1C. -/
def request (len : Nat) (dst : Addr) : SendRequest := ⟨0, 0, 0xEF00, none, 0x1C, dst, BitVec.ofNat 32 len, List.replicate len 0⟩

theorem request_length {len : Nat} {dst : Addr} (h : len < 2 ^ 32) :
    (request len dst).payload.length = (request len dst).len.toNat ∧ (request len dst).len.toNat = len := by
  have hl : (request len dst).len.toNat = len := by
    show (BitVec.ofNat 32 len).toNat = len
    rw [BitVec.toNat_ofNat, Nat.mod_eq_of_lt h]
  exact ⟨(List.length_replicate ..).trans hl.symm, hl⟩

/-- No byte and eight bytes, to a peer and to no destination. -/
theorem witness_ShortMessagesAreOneFrame : ∀ len ∈ [0, 8], ∀ dst ∈ ([0x80, 0xFF] : List Addr), ∃ (s : State) (q : SendRequest),
    q.payload.length = q.len.toNat ∧ q.channel.toNat < s.cfg.numChannels ∧ s.isInternal q.channel q.src = true ∧
    (q.dst = 0xFF ∨ s.reachable q.channel q.dst = true) ∧ q.len.toNat ≤ 8 ∧ q.len.toNat = len ∧ q.dst = dst := by
  intro len hl dst hd
  refine ⟨blk [none], request len dst, ?_⟩
  revert dst hd; revert len hl; decide

/-- The smallest and largest TP messages and the smallest and largest ETP ones. -/
theorem witness_LongMessagesOpenAPeerSession : ∀ len ∈ [9, 1785, 1786, 117440505], ∃ (s : State) (q : SendRequest) (i : Nat),
    q.payload.length = q.len.toNat ∧ q.channel.toNat < s.cfg.numChannels ∧ s.isInternal q.channel q.src = true ∧ q.dst ≠ 0xFF ∧
    s.reachable q.channel q.dst = true ∧ q.len.toNat = len ∧ s.keyFree q.channel q.src q.dst .tx ∧ s.lowestFree i ∧
    s.canAllocate q.len.toNat = true := by
  intro len hl
  have ha : len ≤ 117440505 := (by decide : ∀ len ∈ [9, 1785, 1786, 117440505], len ≤ 117440505) len hl
  have hl : len < 2 ^ 32 := by omega
  exact ⟨blk [some (receiver .tp), none] [] allocates, request len 0x80, 1, (request_length hl).1, Nat.one_pos, rfl,
    show (0x80 : Addr) ≠ 0xFF by decide, rfl, (request_length hl).2, keyFree rfl, lowestFree rfl,
    canAllocate ((request_length hl).2.symm ▸ ha)⟩

theorem witness_BroadcastsOpenABamSession : ∀ len ∈ [9, 1785], ∃ (s : State) (q : SendRequest) (i : Nat),
    q.payload.length = q.len.toNat ∧ q.channel.toNat < s.cfg.numChannels ∧ s.isInternal q.channel q.src = true ∧ q.dst = 0xFF ∧
    q.len.toNat = len ∧ (∀ j x, s.slot j = some x → x.channel = q.channel → x.mode = .bam → x.dir = .tx → False) ∧
    s.lowestFree i ∧ s.canAllocate q.len.toNat = true := by
  intro len hl
  have ha : len ≤ 117440505 := (by decide : ∀ len ∈ [9, 1785], len ≤ 117440505) len hl
  have hl : len < 2 ^ 32 := by omega
  refine ⟨blk [none] [] allocates, request len 0xFF, 0, (request_length hl).1, Nat.one_pos, rfl, rfl, (request_length hl).2, ?_,
    lowestFree rfl, canAllocate ((request_length hl).2.symm ▸ ha)⟩
  intro j x hx
  match j, hx with
  | 0, hx => exact absurd hx (by simp [State.slot, blk])
  | j + 1, hx => exact absurd hx (by simp [State.slot, blk])

/-- Each cause of a rejection, alone. -/
theorem witness_SendsAreRejectedForSixCauses :
    (∀ len ∈ [8, 9, 1785, 1786, 117440505, 117440506], ∀ dst, (request len dst).payload.length = (request len dst).len.toNat) ∧
    (0 : Channel).toNat < (blk [none]).cfg.numChannels ∧
    ((blk [none]).isInternal 0 0x26 = false ∧ (0x26 : Addr) ≠ 0xFF ∧ (blk [none]).reachable 0 0x26 = false) ∧
    (117440505 < (117440506 : Word).toNat ∧ 1785 < (1786 : Word).toNat) ∧
    ((blk [some (sender .tp .sending), none]).findSlot 0 0x1C 0x80 .tx).isSome = true ∧
    (blk [some (receiver .tp)]).freeSlot = none ∧ (blk [some (bamSender .announced), none]).bamTxActive 0 = true ∧
    (blk [none] [] (.upTo 0)).canAllocate 9 = false ∧ (blk [none] [false]).driverAccepts = false := by
  refine ⟨fun len hl dst => ?_, by decide, by decide, by decide, by decide, by decide, by decide, rfl, rfl⟩
  have : ∀ len ∈ [8, 9, 1785, 1786, 117440505, 117440506], len < 2 ^ 32 := by decide
  exact (request_length (this len hl)).1

/-- A send rejected for each cause but a refused single frame, the driver ready to accept. -/
theorem witness_SendsAreRejectedForSixCauses_quiet :
    ∀ s ∈ [{ blk [none] [true] allocates with registry := ⟨[], []⟩ }, blk [none] [true] (.upTo 8), blk [some (receiver .tp)] [true] allocates,
      blk [some (sender .tp .sending), none] [true] allocates],
    (request 9 0x80).payload.length = (request 9 0x80).len.toNat ∧ (0 : Channel).toNat < s.cfg.numChannels ∧
    ¬(request 9 0x80).len.toNat ≤ 8 ∧ s.driverIn = [true] ∧
    after (.txSend (request 9 0x80)) s (fun t => (t.out.accepted, t.driverIn, t.offered)) = some (false, [true], []) := by decide

/-- A Standard frame with no byte; bit 29 alone; the address-claim PGN. -/
theorem witness_OtherFramesPassThrough :
    (0 : BitVec 4).toNat ≤ 8 ∧ (0 : BitVec 4).toNat = ([] : List Byte).length ∧ 2 ^ 29 ≤ (0x20000000 : Word).toNat ∧
    (0x18EEFF1C : Word).toNat < 2 ^ 29 ∧ (idDecode 0x18EEFF1C).pgn ∉ ([0xEC00, 0xEB00, 0xC800, 0xC700] : List Pgn) := by decide

/-- T14, T15, T16 and T28. -/
theorem witness_TransportFramesAreFiltered :
    ((7 : BitVec 4).toNat < 8 ∧ (7 : BitVec 4).toNat = (List.replicate 7 (0 : Byte)).length ∧ (0x1CEC801C : Word).toNat < 2 ^ 29 ∧
      (idDecode 0x1CEC801C).pgn ∈ ([0xEC00, 0xEB00, 0xC800, 0xC700] : List Pgn)) ∧
    (∀ g ∈ ([0xEC00, 0xEB00, 0xC800, 0xC700] : List Pgn), ∃ s f, Received s f g 0x20 0x1C ∧ s.isInternal f.channel 0x20 = false) ∧
    (∀ g ∈ ([0xEC00, 0xC800, 0xC700] : List Pgn), ∃ s f, Received s f g 0xFF 0x1C ∧ ¬(g = 0xEC00 ∧ f.byte 0 = 0x20) ∧ g ≠ 0xEB00) ∧
    ∃ s f, Received s f 0xEC00 0x80 0x1C ∧ s.isInternal f.channel 0x80 = true ∧ f.byte 0 = 0x20 := by
  refine ⟨by decide, fun g hg => ⟨blk [], frameOf g 0x20 0x1C [0x10, 9, 0, 2, 0xFF, 0, 0xEF, 0], received hg (by decide) rfl, rfl⟩,
    fun g hg => ⟨blk [], frameOf g 0xFF 0x1C [0x10, 9, 0, 2, 0xFF, 0, 0xEF, 0], ?_⟩,
    blk [], frameOf 0xEC00 0x80 0x1C [0x20, 10, 0, 2, 0xFF, 0xCA, 0xFE, 0], received (by decide) (by decide) rfl, rfl, rfl⟩
  have hm : ∀ g ∈ ([0xEC00, 0xC800, 0xC700] : List Pgn), g ∈ transportPgns ∧ g ≠ 0xEB00 := by
    simp [transportPgns]
  exact ⟨received (hm g hg).1 (by decide) rfl, fun h => by simp [frameOf, frame, Frame.byte] at h, (hm g hg).2⟩

/-- T17, and the control bytes next to a known one. -/
theorem witness_UnknownControlBytesAreDropped :
    (∀ b ∈ ([0x12, 0x14, 0x00] : List Byte), ∃ s f, s.isInternal f.channel 0x80 = true ∧ Received s f 0xEC00 0x80 0x1C ∧
      f.byte 0 = b ∧ f.byte 0 ∉ ([0x10, 0x11, 0x13, 0x20, 0xFF] : List Byte)) ∧
    ∀ b ∈ ([0x13, 0x18, 0x20] : List Byte), ∃ s f, s.isInternal f.channel 0x80 = true ∧ Received s f 0xC800 0x80 0x1C ∧
      f.byte 0 = b ∧ f.byte 0 ∉ ([0x14, 0x15, 0x16, 0x17, 0xFF] : List Byte) := by
  constructor
  · intro b hb
    refine ⟨blk [], frameOf 0xEC00 0x80 0x1C [b, 0, 0, 0, 0, 0, 0xEF, 0], rfl, received (by decide) (by decide) rfl, rfl, ?_⟩
    show b ∉ _; revert b hb; decide
  · intro b hb
    refine ⟨blk [], frameOf 0xC800 0x80 0x1C [b, 0, 0, 0, 0, 0, 0xEF, 0], rfl, received (by decide) (by decide) rfl, rfl, ?_⟩
    show b ∉ _; revert b hb; decide

/-- The frame to a sender at 0x1C from its peer 0x80. -/
def toSender (m : Mode) (b0 b1 b2 : Byte) : Frame := frameOf m.cm 0x1C 0x80 [b0, b1, b2, 0, 0, 0, 0xEF, 0]

theorem cm_mem (m : Mode) : m.cm ∈ transportPgns := by cases m <;> decide

theorem dt_mem (m : Mode) : m.dt ∈ transportPgns := by cases m <;> decide

/-- Every count `n` and every packet number `nx` of one byte, of a message of two packets: so each clause, at both its boundaries. -/
theorem witness_AnExpectedCtsGrantsOrHolds : ∀ m ∈ [Mode.tp, .etp],
    ∀ st ∈ [SessionState.requestedToSend, .clearToSendReceived, .waitingForEndAck], ∀ n nx : Byte,
    ∃ (s : State) (f : Frame) (i : Nat) (x : Session) (da sa : Addr), s.keysUnique ∧ x.mode ≠ .bam ∧ Received s f x.mode.cm da sa ∧
      s.isInternal f.channel da = true ∧ s.holds i x f.channel da sa .tx ∧ x.pgn.toNat = pgnNumber f ∧
      f.byte 0 = (if x.mode = .etp then 0x15 else 0x11) ∧ x.state ∈ [.requestedToSend, .clearToSendReceived, .waitingForEndAck] ∧
      f.byte 1 = n ∧ (if x.mode = .etp then leNumber [f.byte 2, f.byte 3, f.byte 4] else (f.byte 2).toNat) = nx.toNat ∧
      x.totalPkts = 2 := by
  intro m hm st hst n nx
  refine ⟨blk [some (sender m st)], toSender m (if m = .etp then 0x15 else 0x11) n nx, 0, sender m st, 0x1C, 0x80, ?_, ?_,
    received (cm_mem m) (by decide) rfl, rfl, ⟨rfl, rfl⟩, rfl, rfl, hst, rfl, ?_, rfl⟩
  · exact List.pairwise_singleton ..
  · show m ≠ .bam; revert m hm; decide
  · show (if m = .etp then leNumber [nx, 0, 0] else nx.toNat) = _
    split <;> simp [leNumber]

theorem witness_AnUnexpectedCtsIsDroppedOrEndsTheSession : ∀ m ∈ [Mode.tp, .etp],
    (∀ st ∈ [SessionState.sending, .idle],
      ∃ (s : State) (f : Frame) (i : Nat) (x : Session) (da sa : Addr), s.keysUnique ∧ x.mode ≠ .bam ∧ Received s f x.mode.cm da sa ∧
        s.isInternal f.channel da = true ∧ s.holds i x f.channel da sa .tx ∧ x.pgn.toNat = pgnNumber f ∧
        f.byte 0 = (if x.mode = .etp then 0x15 else 0x11) ∧ x.state = st) ∧
    ∀ b ∈ (if m = .etp then [0x15, 0x17] else [0x11, 0x13] : List Byte),
      (∃ (s : State) (f : Frame) (da sa : Addr), s.keysUnique ∧ m ≠ .bam ∧ Received s f m.cm da sa ∧ s.isInternal f.channel da = true ∧
        f.byte 0 = b ∧ s.keyFree f.channel da sa .tx) ∧
      (∃ (s : State) (f : Frame) (da sa : Addr) (i : Nat) (x : Session), s.keysUnique ∧ m ≠ .bam ∧ Received s f m.cm da sa ∧
        s.isInternal f.channel da = true ∧ f.byte 0 = b ∧ s.holds i x f.channel da sa .tx ∧ x.mode ≠ m) ∧
      ∃ (s : State) (f : Frame) (da sa : Addr) (i : Nat) (x : Session), s.keysUnique ∧ m ≠ .bam ∧ Received s f m.cm da sa ∧
        s.isInternal f.channel da = true ∧ f.byte 0 = b ∧ s.holds i x f.channel da sa .tx ∧ x.mode = m ∧ x.pgn.toNat ≠ pgnNumber f := by
  intro m hm
  have hb : m ≠ .bam := by revert m hm; decide
  refine ⟨fun st _ => ⟨blk [some (sender m st)], toSender m (if m = .etp then 0x15 else 0x11) 1 1, 0, sender m st, 0x1C, 0x80,
    List.pairwise_singleton .., hb, received (cm_mem m) (by decide) rfl, rfl, ⟨rfl, rfl⟩, rfl, rfl, rfl⟩, fun b _ =>
    ⟨⟨blk [some (receiver m)], toSender m b 1 1, 0x1C, 0x80, List.pairwise_singleton .., hb, received (cm_mem m) (by decide) rfl, rfl,
      rfl, keyFree rfl⟩,
    ⟨blk [some (sender (if m = .etp then .tp else .etp) .requestedToSend)], toSender m b 1 1, 0x1C, 0x80, 0, _,
      List.pairwise_singleton .., hb, received (cm_mem m) (by decide) rfl, rfl, rfl, ⟨rfl, rfl⟩, ?_⟩,
    ⟨blk [some { sender m .requestedToSend with pgn := 0xEA00 }], toSender m b 1 1, 0x1C, 0x80, 0, _,
      List.pairwise_singleton .., hb, received (cm_mem m) (by decide) rfl, rfl, rfl, ⟨rfl, rfl⟩, rfl, ?_⟩⟩⟩
  · show (if m = .etp then Mode.tp else .etp) ≠ m
    cases m <;> decide
  · show (0xEA00 : Pgn).toNat ≠ leNumber [0, 0xEF, 0] % 2 ^ 18
    decide

theorem witness_AnEomaCompletesTheSender : ∀ m ∈ [Mode.tp, .etp], ∀ st ∈ [SessionState.waitingForEndAck, .requestedToSend],
    ∃ (s : State) (f : Frame) (i : Nat) (x : Session) (da sa : Addr), s.keysUnique ∧ x.mode ≠ .bam ∧ Received s f x.mode.cm da sa ∧
      s.isInternal f.channel da = true ∧ s.holds i x f.channel da sa .tx ∧ x.pgn.toNat = pgnNumber f ∧
      f.byte 0 = (if x.mode = .etp then 0x17 else 0x13) ∧ x.state = st := by
  intro m hm st _
  have hb : m ≠ .bam := by revert m hm; decide
  exact ⟨blk [some (sender m st)], toSender m (if m = .etp then 0x17 else 0x13) 9 0, 0, sender m st, 0x1C, 0x80,
    List.pairwise_singleton .., hb, received (cm_mem m) (by decide) rfl, rfl, ⟨rfl, rfl⟩, rfl, rfl, rfl⟩

/-- A frame to a receiver at 0x80 from its peer 0x1C. -/
def toReceiver (g : Pgn) (data : List Byte) : Frame := frameOf g 0x80 0x1C data

/-- An RTS for a receiver at 0x80, its bytes 1 to 4 given. -/
def rtsOf (m : Mode) (b1 b2 b3 b4 : Byte) : Frame :=
  toReceiver m.cm [if m = .etp then 0x14 else 0x10, b1, b2, b3, b4, 0, 0xEF, 0]

/-- The length it announces. -/
def rtsLength (m : Mode) (b1 b2 b3 b4 : Byte) : Nat := if m = .etp then leNumber [b1, b2, b3, b4] else leNumber [b1, b2]

/-- An RTS of any length meets the common hypotheses; then length 0, one byte too many, one packet too many, and each lack of room. -/
theorem witness_AnRtsIsRejectedByItsFirstFailedCheck : ∀ m ∈ [Mode.tp, .etp],
    (∀ b1 b2 b3 b4 : Byte, ∀ slots driver alloc, ∃ (s : State) (f : Frame) (da sa : Addr), s = blk slots driver alloc ∧
      f = rtsOf m b1 b2 b3 b4 ∧ (da, sa) = (0x80, 0x1C) ∧ m ≠ .bam ∧ Received s f m.cm da sa ∧
      s.isInternal f.channel da = true ∧ f.byte 0 = (if m = .etp then 0x14 else 0x10) ∧
      [f.byte 1, f.byte 2, f.byte 3, f.byte 4] = [b1, b2, b3, b4]) ∧
    ¬(blk [some (receiver m)]).keyFree 0 0x1C 0x80 .rx ∧ (blk [none]).keyFree 0 0x1C 0x80 .rx ∧ rtsLength m 0 0 0 0 = 0 ∧
    rtsLength .tp 0xFA 6 0xFF 0xFF = 1786 ∧ rtsLength .etp 0xFA 0xFF 0xFF 6 = 117440506 ∧
    (rtsLength .tp 9 0 3 0xFF = 9 ∧ (3 : Byte).toNat ≠ (9 + 6) / 7) ∧ (rtsLength .tp 9 0 2 0xFF = 9 ∧ (2 : Byte).toNat = (9 + 6) / 7) ∧
    rtsLength .etp 9 0 0 0 = 9 ∧
    ((blk [some (sender m .sending)]).keyFree 0 0x1C 0x80 .rx ∧ (blk [some (sender m .sending)]).full) ∧
    (blk [none] [] (.upTo 0)).lowestFree 0 ∧ (blk [none] [] (.upTo 0)).canAllocate 9 = false := by
  intro m hm
  have hb : m ≠ .bam := by revert m hm; decide
  refine ⟨fun b1 b2 b3 b4 slots driver alloc => ⟨_, _, _, _, rfl, rfl, rfl, hb, received (cm_mem m) (by decide) rfl, rfl, rfl, rfl⟩,
    fun h => ?_, keyFree rfl, ?_, by decide, by decide, by decide, by decide, by decide, ⟨keyFree rfl, full rfl⟩, lowestFree rfl, rfl⟩
  · exact absurd (h 0 (receiver m) rfl) (by show ¬(true = false); decide)
  · unfold rtsLength; split <;> rfl

/-- The shortest and the longest message of each mode. -/
theorem witness_AnAcceptedRtsOpensAReceiver :
    ∀ q ∈ [(Mode.tp, ((1, 0, 1, 0) : Byte × Byte × Byte × Byte), 1), (.tp, (0xF9, 6, 0xFF, 1), 1785), (.etp, (1, 0, 0, 0), 1),
        (.etp, (0xF9, 0xFF, 0xFF, 6), 117440505)],
    ∃ (s : State) (f : Frame) (m : Mode) (da sa : Addr) (i : Nat), m = q.1 ∧ m ≠ .bam ∧ Received s f m.cm da sa ∧
      s.isInternal f.channel da = true ∧ f.byte 0 = (if m = .etp then 0x14 else 0x10) ∧ s.keyFree f.channel sa da .rx ∧
      (if m = .etp then leNumber [f.byte 1, f.byte 2, f.byte 3, f.byte 4] else leNumber [f.byte 1, f.byte 2]) = q.2.2 ∧
      (m = .tp → (f.byte 3).toNat = (q.2.2 + 6) / 7) ∧ s.lowestFree i ∧ s.canAllocate q.2.2 = true := by
  intro q hq
  refine ⟨blk [none] [] allocates, rtsOf q.1 q.2.1.1 q.2.1.2.1 q.2.1.2.2.1 q.2.1.2.2.2, q.1, 0x80, 0x1C, 0, rfl, ?_,
    received (cm_mem q.1) (by decide) rfl, rfl, rfl, keyFree rfl, ?_, ?_, lowestFree rfl, canAllocate ?_⟩
  · revert q hq; decide
  · show (if q.1 = .etp then leNumber [q.2.1.1, q.2.1.2.1, q.2.1.2.2.1, q.2.1.2.2.2] else leNumber [q.2.1.1, q.2.1.2.1]) = q.2.2
    revert q hq; decide
  · show q.1 = .tp → q.2.1.2.2.1.toNat = (q.2.2 + 6) / 7
    revert q hq; decide
  · revert q hq; decide

/-- A data frame for a receiver at 0x80. -/
def dataOf (m : Mode) (seq : Byte) : Frame := toReceiver m.dt [seq, 0x88, 0x99, 1, 2, 3, 4, 5]

/-- No session; one of the other mode; each condition of R233 alone. -/
theorem witness_DataNeedsASessionAndAGrant : ∀ m ∈ [Mode.tp, .etp],
    (∀ slots : List (Option Session), ∀ seq, m ≠ .bam ∧ Received (blk slots) (dataOf m seq) m.dt 0x80 0x1C ∧
      (blk slots).isInternal (dataOf m seq).channel 0x80 = true) ∧
    ((blk [some (sender m .sending)]).keysUnique ∧ (blk [some (sender m .sending)]).keyFree 0 0x1C 0x80 .rx) ∧
    (∃ x, (blk [some x]).holds 0 x 0 0x1C 0x80 .rx ∧ x.mode ≠ m) ∧
    ∀ x ∈ [{ receiver m with state := .requestReceived, pending := some .cts }, { receiver m with burstLeft := 0 },
        { receiver m with state := .receiving, pending := some .cts }],
      (blk [some x]).holds 0 x 0 0x1C 0x80 .rx ∧ x.mode = m ∧ ¬x.granted := by
  intro m hm
  have hb : m ≠ .bam := by revert m hm; decide
  refine ⟨fun slots seq => ⟨hb, received (dt_mem m) (by decide) rfl, rfl⟩, ⟨List.pairwise_singleton .., keyFree rfl⟩,
    ⟨receiver (if m = .etp then .tp else .etp), ⟨rfl, rfl⟩, ?_⟩, fun x hx => ?_⟩
  · show (if m = .etp then Mode.tp else .etp) ≠ m
    cases m <;> decide
  · have hx : x.hasKey 0 0x1C 0x80 .rx = true ∧ x.mode = m ∧ (x.pending ≠ none ∨ x.burstLeft = 0) := by
      simp only [List.mem_cons, List.not_mem_nil, or_false] at hx
      rcases hx with rfl | rfl | rfl
      · exact ⟨rfl, rfl, .inl (Option.some_ne_none _)⟩
      · exact ⟨rfl, rfl, .inr rfl⟩
      · exact ⟨rfl, rfl, .inl (Option.some_ne_none _)⟩
    exact ⟨⟨rfl, hx.1⟩, hx.2.1, fun hg => hx.2.2.elim (fun h => h hg.2.2.1) (fun h => hg.2.1 h)⟩

/-- An ETP receiver that no DPO has reached is not granted. -/
theorem witness_DataNeedsADpo : ¬({ receiver .etp with dpoSeen := false }).granted := by
  rw [← noGrant_iff]; decide

/-- Every sequence number, where packet 2 is expected: so both sides of each clause. -/
theorem witness_DataOutOfOrderEndsTheSession : ∀ m ∈ [Mode.tp, .etp], ∀ seq : Byte,
    ∃ (s : State) (f : Frame) (i : Nat) (x : Session) (da sa : Addr), s.keysUnique ∧ x.mode ≠ .bam ∧ Received s f x.mode.dt da sa ∧
      s.isInternal f.channel da = true ∧ s.holds i x f.channel sa da .rx ∧ x.granted ∧ f.byte 0 = seq ∧ x.expected = 2 := by
  intro m hm seq
  have hb : m ≠ .bam := by revert m hm; decide
  refine ⟨blk [some { receiver m with nextPkt := 2 }], dataOf m seq, 0, { receiver m with nextPkt := 2 }, 0x80, 0x1C,
    List.pairwise_singleton .., hb, received (dt_mem m) (by decide) rfl, rfl, ⟨rfl, rfl⟩, noGrant_iff.1 ?_, rfl, ?_⟩
  · revert m hm; decide
  · revert m hm; decide

/-- A receiver of three packets that has the first two. -/
def midway (m : Mode) (burst : Byte) : Session :=
  { receiver m with totalLen := 15, totalPkts := 3, nextPkt := 2, burstLeft := burst, state := .receiving
                    buf := bufOf [0x11, 0x22, 0x33, 0x44, 0x55, 0x66, 0x77] }

/-- A first packet of two with a grant of 2 and of 1, and a middle one with a grant of 1. -/
theorem witness_DataInOrderIsStored : ∀ m ∈ [Mode.tp, .etp], ∀ q ∈ [(receiver m, 2), ({ receiver m with burstLeft := 1 }, 1), (midway m 1, 1)],
    ∃ (s : State) (f : Frame) (i : Nat) (x : Session) (da sa : Addr), s.wf ∧ x.mode ≠ .bam ∧ Received s f x.mode.dt da sa ∧
      s.isInternal f.channel da = true ∧ s.holds i x f.channel sa da .rx ∧ x.granted ∧ (f.byte 0).toNat = x.expected ∧
      x.nextPkt.toNat < x.totalPkts.toNat ∧ x.burstLeft.toNat = q.2 := by
  intro m hm q hq
  have key : ∀ m ∈ [Mode.tp, .etp], ∀ q ∈ [(receiver m, 2), ({ receiver m with burstLeft := 1 }, 1), (midway m 1, 1)],
      (blk [some q.1]).wf ∧ q.1.mode ≠ .bam ∧ q.1.mode = m ∧ q.1.hasKey 0 0x1C 0x80 .rx = true ∧ noGrant q.1 = false ∧
      (BitVec.ofNat 8 q.1.expected).toNat = q.1.expected ∧ q.1.nextPkt.toNat < q.1.totalPkts.toNat ∧ q.1.burstLeft.toNat = q.2 := by
    decide
  obtain ⟨h1, h2, h3, h4, h5, h6, h7, h8⟩ := key m hm q hq
  exact ⟨blk [some q.1], dataOf q.1.mode (BitVec.ofNat 8 q.1.expected), 0, q.1, 0x80, 0x1C, h1, h2,
    received (dt_mem _) (by decide) rfl, rfl, ⟨rfl, h4⟩, noGrant_iff.1 h5, h6, h7, h8⟩

/-- A receiver that lacks only the last packet. -/
def lastPacket (m : Mode) : Session :=
  { receiver m with nextPkt := 2, burstLeft := 1, state := .receiving, buf := bufOf [0x11, 0x22, 0x33, 0x44, 0x55, 0x66, 0x77] }

/-- The second packet of two, and a message of one packet; the driver accepts and refuses. -/
theorem witness_TheLastPacketIsAcknowledged : ∀ m ∈ [Mode.tp, .etp], ∀ ok : Bool,
    ∀ x ∈ [lastPacket m, { receiver m with totalLen := 1, totalPkts := 1, burstLeft := 1 }],
    ∃ (s : State) (f : Frame) (i : Nat) (da sa : Addr), s.wf ∧ x.mode ≠ .bam ∧ Received s f x.mode.dt da sa ∧
      s.isInternal f.channel da = true ∧ s.holds i x f.channel sa da .rx ∧ x.granted ∧ (f.byte 0).toNat = x.expected ∧
      x.nextPkt.toNat = x.totalPkts.toNat ∧ s.answer 0 = ok := by
  intro m hm ok x hx
  have key : ∀ m ∈ [Mode.tp, .etp], ∀ x ∈ [lastPacket m, { receiver m with totalLen := 1, totalPkts := 1, burstLeft := 1 }],
      (blk [some x]).wf ∧ x.mode ≠ .bam ∧ x.hasKey 0 0x1C 0x80 .rx = true ∧ noGrant x = false ∧
      (BitVec.ofNat 8 x.expected).toNat = x.expected ∧ x.nextPkt.toNat = x.totalPkts.toNat := by
    decide
  obtain ⟨h1, h2, h3, h4, h5, h6⟩ := key m hm x hx
  exact ⟨blk [some x] [ok], dataOf x.mode (BitVec.ofNat 8 x.expected), 0, 0x80, 0x1C, h1, h2,
    received (dt_mem _) (by decide) rfl, rfl, ⟨rfl, h3⟩, noGrant_iff.1 h4, h5, h6, rfl⟩

theorem pgn_ef00 : leNumber [0, 0xEF, 0] % 2 ^ 18 = 0xEF00 := by decide

theorem leNumber_low (b : Byte) : leNumber [b, 0, 0] = b.toNat := by simp [leNumber]

/-- Slots for a DPO to meet: none, another mode, another PGN, a state other than CTS sent, a DPO seen, a CTS owed, and one that waits for it. -/
def dpoSlots : List (Option Session) :=
  [none, some (receiver .tp), some { receiver .etp with pgn := 0xEA00 }, some { receiver .etp with state := .receiving },
   some (receiver .etp), some { receiver .etp with dpoSeen := false, pending := some .cts }, some { receiver .etp with dpoSeen := false }]

/-- Every count and every low offset byte, before sessions that drop it, that it ends, and that it opens a burst of (2 granted, offset 0). -/
theorem witness_ADpoOpensTheBurstItAnnounces :
    (∀ (dn off : Byte), ∀ o ∈ dpoSlots,
      ∃ (s : State) (f : Frame) (da sa : Addr), s = blk [o] ∧ s.keysUnique ∧ Received s f 0xC800 da sa ∧
        s.isInternal f.channel da = true ∧ f.byte 0 = 0x16 ∧ f.byte 1 = dn ∧ leNumber [f.byte 2, f.byte 3, f.byte 4] = off.toNat ∧
        pgnNumber f = 0xEF00 ∧ (o = none → s.keyFree f.channel sa da .rx) ∧ ∀ x, o = some x → s.holds 0 x f.channel sa da .rx) ∧
    ({ receiver .etp with dpoSeen := false }).burstLeft.toNat = 2 ∧
    BitVec.ofNat 32 0 = ({ receiver .etp with dpoSeen := false }).nextPkt - 1 ∧
    BitVec.ofNat 32 1 ≠ ({ receiver .etp with dpoSeen := false }).nextPkt - 1 := by
  refine ⟨fun dn off o ho => ⟨blk [o], toReceiver 0xC800 [0x16, dn, off, 0, 0, 0, 0xEF, 0], 0x80, 0x1C, rfl, List.pairwise_singleton ..,
    received (by decide) (by decide) rfl, rfl, rfl, rfl, leNumber_low off, pgn_ef00, ?_, ?_⟩,
    by decide, by decide, by decide⟩
  · rintro rfl; exact keyFree rfl
  · rintro x rfl
    have key : ∀ o ∈ dpoSlots, o.all (fun x => x.hasKey 0 0x1C 0x80 .rx) = true := by decide
    exact ⟨rfl, key _ ho⟩

/-- No session, the receiver, the sender, and both. -/
theorem witness_AReceivedAbortEndsItsSessions : ∀ m ∈ [Mode.tp, .etp], ∀ slots,
    (∃ (s : State) (f : Frame) (da sa : Addr), s = blk slots ∧ m ≠ .bam ∧ Received s f m.cm da sa ∧ s.isInternal f.channel da = true ∧
      f.byte 0 = 0xFF ∧ (da, sa) = (0x80, 0x1C) ∧ f.channel = 0 ∧ pgnNumber f = 0xEF00) ∧
    (let tx := { sender m .sending with src := 0x80, dst := 0x1C }
     let rx := receiver m
     (blk [some tx, some rx]).keysUnique ∧ (blk [none]).keysUnique ∧
     ((blk [some tx, some rx]).holds 0 tx 0 0x80 0x1C .tx ∧ tx.mode = m ∧ tx.pgn.toNat = 0xEF00) ∧
     ((blk [some tx, some rx]).holds 1 rx 0 0x1C 0x80 .rx ∧ rx.mode = m ∧ rx.pgn.toNat = 0xEF00) ∧
     (blk [some tx]).keyFree 0 0x1C 0x80 .rx ∧ (blk [some rx]).keyFree 0 0x80 0x1C .tx ∧
     (blk [none]).keyFree 0 0x1C 0x80 .rx ∧ (blk [none]).keyFree 0 0x80 0x1C .tx) := by
  intro m hm slots
  have hb : m ≠ .bam := by revert m hm; decide
  exact ⟨⟨blk slots, toReceiver m.cm [0xFF, 3, 0xFF, 0xFF, 0xFF, 0, 0xEF, 0], 0x80, 0x1C, rfl, hb, received (cm_mem m) (by decide) rfl,
    rfl, rfl, rfl, rfl, pgn_ef00⟩, List.pairwise_pair.2 (by cases m <;> rfl), List.pairwise_singleton .., ⟨⟨rfl, rfl⟩, rfl, rfl⟩, ⟨⟨rfl, rfl⟩, rfl, rfl⟩,
    keyFree rfl, keyFree rfl, keyFree rfl, keyFree rfl⟩

/-- Any announce from 0x1C: length 0, 1786 and a wrong count; 1 and 1785 bytes; a new peer and an old session; no slot, no buffer, room. -/
theorem witness_ABamAnnounceOpensAReceiver :
    (∀ (b1 b2 b3 : Byte), ∀ o ∈ [none, some bamReceiver, some (sender .tp .sending)], ∀ alloc, ∃ (s : State) (f : Frame) (sa : Addr),
      s = blk [o] [] alloc ∧ s.keysUnique ∧ Received s f 0xEC00 0xFF sa ∧ f.byte 0 = 0x20 ∧ [f.byte 1, f.byte 2, f.byte 3] = [b1, b2, b3] ∧
      sa = 0x1C ∧ f.channel = 0) ∧
    (leNumber [0, 0] = 0 ∧ leNumber [0xFA, 6] = 1786 ∧ (3 : Byte).toNat ≠ (leNumber [10, 0] + 6) / 7) ∧
    (leNumber [1, 0] = 1 ∧ (1 : Byte).toNat = (1 + 6) / 7 ∧ leNumber [0xF9, 6] = 1785 ∧ (0xFF : Byte).toNat = (1785 + 6) / 7) ∧
    (blk [none]).keyFree 0 0x1C 0xFF .rx ∧ (blk [some bamReceiver]).holds 0 bamReceiver 0 0x1C 0xFF .rx ∧
    (blk [some (sender .tp .sending)]).keyFree 0 0x1C 0xFF .rx ∧ (blk [some (sender .tp .sending)]).full ∧
    (blk [none]).lowestFree 0 ∧ ({ blk [some bamReceiver] with slots := [none] } : State).lowestFree 0 ∧
    (blk [none] [] (.upTo 0)).canAllocate 10 = false ∧ (blk [none] [] allocates).canAllocate 10 = true :=
  ⟨fun b1 b2 b3 o _ alloc => ⟨blk [o] [] alloc, frameOf 0xEC00 0xFF 0x1C [0x20, b1, b2, b3, 0xFF, 0xCA, 0xFE, 0], 0x1C, rfl,
    List.pairwise_singleton .., received (by decide) (by decide) rfl, rfl, rfl, rfl, rfl⟩, by decide, by decide, keyFree rfl, ⟨rfl, rfl⟩,
    keyFree rfl, full rfl, lowestFree rfl, lowestFree rfl, rfl, canAllocate (by decide)⟩

/-- The broadcast receiver once it has the first packet. -/
def bamLast : Session := { bamReceiver with nextPkt := 2, buf := bufOf [0xA0, 0xA1, 0xA2, 0xA3, 0xA4, 0xA5, 0xA6] }

/-- Every sequence number, where packet 1 of 2 and where packet 2 of 2 is expected; and no session. -/
theorem witness_BamDataIsStoredInOrder : ∀ seq : Byte, ∀ q ∈ [(bamReceiver, 1), (bamLast, 2)],
    (∃ (s : State) (f : Frame) (sa : Addr) (i : Nat) (x : Session), s.wf ∧ Received s f 0xEB00 0xFF sa ∧ s.holds i x f.channel sa 0xFF .rx ∧
      f.byte 0 = seq ∧ x.nextPkt.toNat = q.2 ∧ x.totalPkts.toNat = 2) ∧
    ∃ (s : State) (f : Frame) (sa : Addr), s.wf ∧ Received s f 0xEB00 0xFF sa ∧ s.keyFree f.channel sa 0xFF .rx := by
  intro seq q hq
  have key : ∀ q ∈ [(bamReceiver, 1), (bamLast, 2)], (blk [some q.1]).wf ∧ q.1.hasKey 0 0x1C 0xFF .rx = true ∧ q.1.nextPkt.toNat = q.2 ∧
      q.1.totalPkts.toNat = 2 := by decide
  obtain ⟨h1, h2, h3, h4⟩ := key q hq
  exact ⟨⟨blk [some q.1], frameOf 0xEB00 0xFF 0x1C [seq, 1, 2, 3, 4, 5, 6, 7], 0x1C, 0, q.1, h1, received (by decide) (by decide) rfl,
    ⟨rfl, h2⟩, rfl, h3, h4⟩, blk [none], frameOf 0xEB00 0xFF 0x1C [seq, 1, 2, 3, 4, 5, 6, 7], 0x1C, by decide,
    received (by decide) (by decide) rfl, keyFree rfl⟩

/-- The sessions of each row of the timeout table, with the limit of the row. -/
def waiting : List (Session × Millis) :=
  [(sender .tp .requestedToSend, 1250), (sender .etp .requestedToSend, 1250), ({ sender .tp .requestedToSend with hold := true }, 1050),
   ({ sender .etp .waitingForEndAck with nextPkt := 3 }, 1250), (receiver .tp, 1250), (lastPacket .etp, 750), (bamReceiver, 750)]

/-- Each row of the table, at its limit and one millisecond later. -/
theorem witness_UpdateEndsTheTimedOutSessions : ∀ q ∈ waiting, (blk [none, some q.1]).wf ∧ (blk [none, some q.1]).slot 1 = some q.1 ∧
    q.1.waits (blk [none, some q.1]).cfg q.2 ∧ (q.2 - q.1.lastActivity).toNat ≤ q.2.toNat ∧
    q.2.toNat < (q.2 + 1 - q.1.lastActivity).toNat := by
  unfold Session.waits; decide

/-- Each row of the table, at its limit and one millisecond later. -/
theorem witness_ATimeoutTellsThePeer : (∀ q ∈ waiting, (blk [some q.1]).only 0 q.1 ∧ q.1.waits (blk [some q.1]).cfg q.2 ∧
    (q.2 - q.1.lastActivity).toNat ≤ q.2.toNat ∧ q.2.toNat < (q.2 + 1 - q.1.lastActivity).toNat) ∧ ∀ j, (blk []).slot j = none := by
  refine ⟨fun q hq => ⟨only rfl, ?_⟩, fun j => rfl⟩
  unfold Session.waits; revert q hq; decide

/-- A session that owes each of the four frames; the driver accepts and refuses. -/
theorem witness_AnOwedFrameIsOfferedAgain : ∀ ok : Bool,
    ∀ q ∈ [({ sender .tp .idle with pending := some .rts }, Control.rts), ({ sender .etp .idle with pending := some .rts }, .rts),
        ({ bamSender .idle with pending := some .announce }, .announce),
        ({ receiver .tp with state := .requestReceived, burstLeft := 0, pending := some .cts }, .cts),
        ({ midway .etp 0 with pending := some .cts }, .cts),
        ({ lastPacket .tp with nextPkt := 3, burstLeft := 0, buf := bufOf [1, 2, 3, 4, 5, 6, 7, 8, 9], pending := some .eoma }, .eoma)],
    ∃ (s : State) (i : Nat) (x : Session) (k : Control), s.wf ∧ s.only i x ∧ x.pending = some k ∧
      s.answer 0 = ok ∧ k = q.2 := by
  intro ok q hq
  have key : ∀ q ∈ [({ sender .tp .idle with pending := some .rts }, Control.rts), ({ sender .etp .idle with pending := some .rts }, .rts),
        ({ bamSender .idle with pending := some .announce }, .announce),
        ({ receiver .tp with state := .requestReceived, burstLeft := 0, pending := some .cts }, .cts),
        ({ midway .etp 0 with pending := some .cts }, .cts),
        ({ lastPacket .tp with nextPkt := 3, burstLeft := 0, buf := bufOf [1, 2, 3, 4, 5, 6, 7, 8, 9], pending := some .eoma }, .eoma)],
      (blk [some q.1]).wf ∧ q.1.pending = some q.2 := by decide
  obtain ⟨h1, h2⟩ := key q hq
  exact ⟨blk [some q.1] [ok], 0, q.1, q.2, h1, only rfl, h2, rfl, rfl⟩

/-- A block as `blk` whose BAM frames may follow each other at once. -/
def unpaced (slots : List (Option Session)) (driver : List Bool) : State :=
  { blk slots driver with cfg := { Config.default with maxSessions := slots.length, bamInterval := 0 } }

/-- An announce accepted where `BAM_INTERVAL` is 0: of two packets and of one, the packet behind it accepted and refused. -/
theorem witness_AnOwedFrameIsOfferedAgain_unpaced : ∀ ok : Bool,
    ∀ q ∈ [({ bamSender .idle with pending := some .announce }, [0xA0, 0xA1, 0xA2, 0xA3, 0xA4, 0xA5, 0xA6], 2),
        ({ bamSender .idle with pending := some .announce, totalLen := 6, totalPkts := 1, buf := bufOf [1, 2, 3, 4, 5, 6] },
          ([1, 2, 3, 4, 5, 6] : List Byte), 1)],
    (unpaced [some q.1] [true, ok]).wf ∧ (unpaced [some q.1] [true, ok]).only 0 q.1 ∧ q.1.pending = some .announce ∧
      (unpaced [some q.1] [true, ok]).answer 0 = true ∧ (unpaced [some q.1] [true, ok]).answer 1 = ok ∧
      (unpaced [some q.1] [true, ok]).cfg.bamInterval.toNat = 0 ∧ q.1.packet q.1.nextPkt.toNat q.2.1 ∧
      q.1.nextPkt.toNat = 1 ∧ q.1.totalPkts.toNat = q.2.2 := by
  have key : ∀ ok : Bool,
    ∀ q ∈ [({ bamSender .idle with pending := some .announce }, [0xA0, 0xA1, 0xA2, 0xA3, 0xA4, 0xA5, 0xA6], 2),
        ({ bamSender .idle with pending := some .announce, totalLen := 6, totalPkts := 1, buf := bufOf [1, 2, 3, 4, 5, 6] },
          ([1, 2, 3, 4, 5, 6] : List Byte), 1)],
    (unpaced [some q.1] [true, ok]).wf ∧ q.1.pending = some .announce ∧
      (unpaced [some q.1] [true, ok]).answer 0 = true ∧ (unpaced [some q.1] [true, ok]).answer 1 = ok ∧
      (unpaced [some q.1] [true, ok]).cfg.bamInterval.toNat = 0 ∧ q.1.packet q.1.nextPkt.toNat q.2.1 ∧
      q.1.nextPkt.toNat = 1 ∧ q.1.totalPkts.toNat = q.2.2 := by
    unfold Session.packet; decide
  intro ok q hq
  exact ⟨(key ok q hq).1, ⟨rfl, (only (driver := []) (alloc := .free) rfl).2⟩, (key ok q hq).2⟩

/-- The packets of the message 01..09. -/
def packets (k : Nat) : List Byte := if k = 0 then [1, 2, 3, 4, 5, 6, 7] else [8, 9]

/-- A grant of both packets: refused at once, after the first, sent whole; and a grant of the first alone. -/
theorem witness_AGrantIsSentBackToBack :
    ∀ q ∈ [({ sender .tp .clearToSendReceived with burstLeft := 2 }, 0, [false]), ({ sender .tp .sending with burstLeft := 2 }, 1, [true, false]),
        ({ sender .etp .sending with burstLeft := 2 }, 2, [true, true]), ({ sender .tp .sending with burstLeft := 1 }, 1, [true])],
    (blk [some q.1] q.2.2).wf ∧ (blk [some q.1] q.2.2).only 0 q.1 ∧ q.1.mode ≠ .bam ∧ q.1.dir = .tx ∧ q.1.pending = none ∧
      (q.1.state = .sending ∨ (q.1.mode = .tp ∧ q.1.state = .clearToSendReceived)) ∧ q.2.1 ≤ q.1.burstLeft.toNat ∧
      (∀ k, k < q.2.1 → (blk [some q.1] q.2.2).answer k = true) ∧
      (q.2.1 < q.1.burstLeft.toNat → (blk [some q.1] q.2.2).answer q.2.1 = false) ∧
      ∀ k, k < q.1.burstLeft.toNat → q.1.packet (q.1.nextPkt.toNat + k) (packets k) := by
  have key : ∀ q ∈ [({ sender .tp .clearToSendReceived with burstLeft := 2 }, 0, [false]), ({ sender .tp .sending with burstLeft := 2 }, 1, [true, false]),
        ({ sender .etp .sending with burstLeft := 2 }, 2, [true, true]), ({ sender .tp .sending with burstLeft := 1 }, 1, [true])],
    (blk [some q.1] q.2.2).wf ∧ q.1.mode ≠ .bam ∧ q.1.dir = .tx ∧ q.1.pending = none ∧
      (q.1.state = .sending ∨ (q.1.mode = .tp ∧ q.1.state = .clearToSendReceived)) ∧ q.2.1 ≤ q.1.burstLeft.toNat ∧
      (∀ k, k < q.2.1 → (blk [some q.1] q.2.2).answer k = true) ∧
      (q.2.1 < q.1.burstLeft.toNat → (blk [some q.1] q.2.2).answer q.2.1 = false) ∧
      ∀ k, k < q.1.burstLeft.toNat → q.1.packet (q.1.nextPkt.toNat + k) (packets k) := by
    unfold Session.packet; decide
  intro q hq
  exact ⟨(key q hq).1, only rfl, (key q hq).2⟩

/-- An ETP sender that owes its DPO, and one whose CTS has just come: the DPO refused; accepted with the first packet refused; all accepted. -/
theorem witness_AnEtpGrantIsSentBehindADpo :
    ∀ x ∈ [{ sender .etp .clearToSendReceived with burstLeft := 2, pending := some .dpo }, { sender .etp .clearToSendReceived with burstLeft := 2 }],
    ∀ q ∈ [([false], 0), ([true, false], 0), ([true, true, false], 1), ([true, true, true], 2)],
    (blk [some x] q.1).wf ∧ (blk [some x] q.1).only 0 x ∧ x.mode = .etp ∧ x.dir = .tx ∧
      (x.pending = some .dpo ∨ (x.pending = none ∧ x.state = .clearToSendReceived)) ∧
      ((blk [some x] q.1).answer 0 = false ∧ q.1 = [false] ∨
        (blk [some x] q.1).answer 0 = true ∧ q.2 ≤ x.burstLeft.toNat ∧ (∀ k, k < q.2 → (blk [some x] q.1).answer (k + 1) = true) ∧
        (q.2 < x.burstLeft.toNat → (blk [some x] q.1).answer (q.2 + 1) = false) ∧
        ∀ k, k < x.burstLeft.toNat → x.packet (x.nextPkt.toNat + k) (packets k)) := by
  have key : ∀ x ∈ [{ sender .etp .clearToSendReceived with burstLeft := 2, pending := some .dpo },
      { sender .etp .clearToSendReceived with burstLeft := 2 }],
    ∀ q ∈ [([false], 0), ([true, false], 0), ([true, true, false], 1), ([true, true, true], 2)],
    (blk [some x] q.1).wf ∧ x.mode = .etp ∧ x.dir = .tx ∧
      (x.pending = some .dpo ∨ (x.pending = none ∧ x.state = .clearToSendReceived)) ∧
      ((blk [some x] q.1).answer 0 = false ∧ q.1 = [false] ∨
        (blk [some x] q.1).answer 0 = true ∧ q.2 ≤ x.burstLeft.toNat ∧ (∀ k, k < q.2 → (blk [some x] q.1).answer (k + 1) = true) ∧
        (q.2 < x.burstLeft.toNat → (blk [some x] q.1).answer (q.2 + 1) = false) ∧
        ∀ k, k < x.burstLeft.toNat → x.packet (x.nextPkt.toNat + k) (packets k)) := by
    unfold Session.packet; decide
  intro x hx q hq
  exact ⟨(key x hx q hq).1, only rfl, (key x hx q hq).2⟩

/-- The first packet of two at the interval exactly and one millisecond before it, and the last; accepted and refused. -/
theorem witness_ABamPacketGoesOutWhenItsIntervalHasPassed : ∀ ok : Bool,
    ∀ q ∈ [(bamSender .announced, [0xA0, 0xA1, 0xA2, 0xA3, 0xA4, 0xA5, 0xA6], 1),
        ({ bamSender .sending with nextPkt := 2 }, ([0xA7, 0xA8, 0xA9] : List Byte), 2)],
    (blk [some q.1] [ok]).wf ∧ (blk [some q.1] [ok]).only 0 q.1 ∧ q.1.mode = .bam ∧ q.1.dir = .tx ∧ q.1.pending = none ∧
      (blk [some q.1] [ok]).cfg.bamInterval.toNat ≤ (50 - q.1.lastActivity).toNat ∧
      ¬(blk [some q.1] [ok]).cfg.bamInterval.toNat ≤ (49 - q.1.lastActivity).toNat ∧ q.1.packet q.1.nextPkt.toNat q.2.1 ∧
      (blk [some q.1] [ok]).answer 0 = ok ∧ q.1.nextPkt.toNat = q.2.2 ∧ q.1.totalPkts.toNat = 2 := by
  have key : ∀ ok : Bool, ∀ q ∈ [(bamSender .announced, [0xA0, 0xA1, 0xA2, 0xA3, 0xA4, 0xA5, 0xA6], 1),
        ({ bamSender .sending with nextPkt := 2 }, ([0xA7, 0xA8, 0xA9] : List Byte), 2)],
    (blk [some q.1] [ok]).wf ∧ q.1.mode = .bam ∧ q.1.dir = .tx ∧ q.1.pending = none ∧
      (blk [some q.1] [ok]).cfg.bamInterval.toNat ≤ (50 - q.1.lastActivity).toNat ∧
      ¬(blk [some q.1] [ok]).cfg.bamInterval.toNat ≤ (49 - q.1.lastActivity).toNat ∧ q.1.packet q.1.nextPkt.toNat q.2.1 ∧
      (blk [some q.1] [ok]).answer 0 = ok ∧ q.1.nextPkt.toNat = q.2.2 ∧ q.1.totalPkts.toNat = 2 := by
    unfold Session.packet; decide
  intro ok q hq
  exact ⟨(key ok q hq).1, only rfl, (key ok q hq).2⟩

/-- Two senders with a grant and a free slot between them: the first refused, the second still served. -/
theorem witness_AGrantIsSentBackToBack_arbiter :
    let s := blk [some { sender .tp .sending with burstLeft := 2 }, none, some { sender .etp .sending with dst := 0x21, burstLeft := 2 }]
      [false, true, true]
    s.wf ∧ (s.slot 0).isSome = true ∧ (s.slot 2).isSome = true := by decide

/-- A command that answers a next state. -/
theorem answers {i : Instr} {s : State} (h : (after i s fun _ => ()).isSome = true) : ∃ t, exec i s = .next t := by
  unfold after at h
  split at h
  · exact ⟨_, ‹_›⟩
  · exact absurd h (by simp)
  · exact absurd h (by simp)

/-- One millisecond short of the interval, a session beside it with a packet to send. -/
theorem witness_BamFramesKeepTheirInterval :
    let s := blk [some (bamSender .announced), some { sender .tp .clearToSendReceived with burstLeft := 2 }] [true, true]
    s.wf ∧ s.slot 0 = some (bamSender .announced) ∧ (bamSender .announced).mode = .bam ∧ (bamSender .announced).dir = .tx ∧
      (bamSender .announced).pending = none ∧ (49 - (bamSender .announced).lastActivity).toNat < s.cfg.bamInterval.toNat ∧
      ∃ t, exec (.update 49) s = .next t :=
  ⟨by decide, rfl, rfl, rfl, rfl, by decide, answers (by decide)⟩

theorem witness_SessionAbortIsIdempotent :
    (blk [some (sender .tp .sending), some bamReceiver]).keysUnique ∧ (0 : Channel).toNat < (blk [some (sender .tp .sending), some bamReceiver]).cfg.numChannels ∧
    (blk [some (sender .tp .sending), some bamReceiver]).holds 0 (sender .tp .sending) 0 0x1C 0x80 .tx ∧
    (blk [some (sender .tp .sending), some bamReceiver]).holds 1 bamReceiver 0 0x1C 0xFF .rx ∧
    (blk [some (sender .tp .sending), some bamReceiver]).keyFree 0 0x1C 0x80 .rx ∧
    ∃ t, exec (.sessionAbort 0 0 0x1C 0x80 .tx) (blk [some (sender .tp .sending), some bamReceiver]) = .next t :=
  ⟨by decide, by decide, ⟨rfl, rfl⟩, ⟨rfl, rfl⟩, keyFree rfl, answers (by decide)⟩

/-- A block in use, its next command an UPDATE. -/
def busy : State :=
  State.issue (blk [some (bamSender .announced), some { sender .tp .clearToSendReceived with burstLeft := 2 }, some (receiver .etp), none]
    [true, true, true]) [0x42, 50, 0, 0, 0]

theorem busy_step : ∃ t, step busy = .next t := by
  have h : ∃ t, exec (.update 50) { busy with inbox := [] } = .next t := answers (by decide)
  exact h

/-- Two slots, one valid. -/
theorem witness_StatusReadsTheCounters : ((blk [some bamReceiver, none]).slots.filter Option.isSome).length < 2 ^ 8 := by decide

theorem witness_TheResetStateIsGood : Config.default.wf = true := by decide

theorem witness_GoodStatesStayGood : busy.wf ∧ ∃ t, step busy = .next t := ⟨by decide, busy_step⟩

theorem witness_GoodStatesNeverStop : busy.wf ∧ (Instr.update 50).wf = true := by decide

theorem witness_KeysStayUnique : busy.keysUnique ∧ busy.globalIsBam = true ∧ ∃ t, step busy = .next t := ⟨by decide, by decide, busy_step⟩

theorem witness_ConfigurationAndHistoryAreNeverRewritten : ∃ t, step busy = .next t := busy_step

theorem witness_EngineFramesHaveEightBytes :
    (∃ t, exec (.update 50) busy = .next t ∧ (t.offered.drop busy.offered.length).length = 3) ∧
    (∀ q, Instr.update 50 = .txSend q → 8 < q.len.toNat) ∧ ∀ q, Instr.txSend (request 9 0x80) = .txSend q → 8 < q.len.toNat := by
  refine ⟨?_, fun q h => Instr.noConfusion h, ?_⟩
  · have h : after (.update 50) busy (fun t => (t.offered.drop busy.offered.length).length) = some 3 := by decide
    unfold after at h
    split at h
    · exact ⟨_, ‹_›, Option.some.inj h⟩
    · cases h
    · cases h
  · rintro q h; cases h; decide

theorem witness_MessageIdsCountDeliveries : Instr.update 50 ≠ .reset ∧ ∃ t, exec (.update 50) busy = .next t :=
  ⟨by decide, answers (by decide)⟩

/-- The TP sender of `busy` is still there after its burst. -/
theorem witness_ASendersMessageNeverChanges : ∃ t x y, step busy = .next t ∧ busy.slot 1 = some x ∧ x.dir = .tx ∧ t.slot 1 = some y := by
  obtain ⟨t, ht⟩ := busy_step
  have h : after (.update 50) { busy with inbox := [] } (fun t => (t.slot 1).isSome) = some true := by decide
  have hs : (t.slot 1).isSome = true := by
    unfold after at h
    rw [show exec (.update 50) { busy with inbox := [] } = .next t from ht] at h
    exact Option.some.inj h
  obtain ⟨y, hy⟩ := Option.isSome_iff_exists.1 hs
  exact ⟨t, _, y, ht, rfl, rfl, hy⟩

/-- A CTS for the TP sender, and the other two sessions. -/
theorem witness_AFrameReachesOnlyItsPartiesSessions :
    (∃ t, exec (.rxFrame (frame 0x1CEC1C80 [0x11, 2, 1, 0xFF, 0xFF, 0, 0xEF, 0])) busy = .next t) ∧
    (idDecode 0x1CEC1C80).da = 0x1C ∧ (idDecode 0x1CEC1C80).sa = 0x80 ∧ busy.slot 2 = some (receiver .etp) ∧
    (receiver .etp).hasKey 0 0x1C 0x80 .tx = false ∧ (receiver .etp).hasKey 0 0x80 0x1C .rx = false :=
  ⟨answers (by decide), by decide, by decide, rfl, rfl, rfl⟩

/-- A message of one byte and one of 1785, to 0x80, a session of another key beside it. -/
theorem witness_AMessageReceivedInOrderIsDeliveredWhole : ∀ len ∈ [1, 1785], ∃ (s : State) (ch : Channel) (da sa : Addr) (payload : List Byte) (i : Nat),
    s.wf ∧ ch.toNat < s.cfg.numChannels ∧ s.isInternal ch da = true ∧ s.keyFree ch sa da .rx ∧ s.lowestFree i ∧
    s.canAllocate payload.length = true ∧ (∀ k, k ≤ payload.length → s.driverIn[k]? = some true) ∧ payload.length = len := by
  intro len hl
  have ha : len ≤ 117440505 := (by decide : ∀ len ∈ [1, 1785], len ≤ 117440505) len hl
  have hw : (blk [some bamReceiver, none]).wf := by decide
  refine ⟨blk [some bamReceiver, none] (List.replicate (len + 1) true) allocates, 0, 0x80, 0x1C, List.replicate len 0, 1, hw,
    Nat.one_pos, rfl, keyFree rfl, lowestFree rfl, canAllocate (by simpa using ha), fun k hk => ?_,
    List.length_replicate ..⟩
  rw [List.length_replicate] at hk
  exact List.getElem?_replicate_of_lt (by omega)

end Sys2Proof.Tests
end

section
/-! PROOFS. A slot file with no valid slot, as a reset leaves it (70_reset_and_hazards.md R380), and what makes a state with such a file good. -/

namespace Sys2Proof.Machine

/-- No slot of a free slot file is valid. -/
theorem State.slot_of_replicate_none {s : State} {n : Nat} (h : s.slots = List.replicate n none) (i : Nat) : s.slot i = none :=
  Option.eq_none_iff_forall_ne_some.mpr fun x hx => by simpa [h] using State.mem_of_slot hx

/-- A block with a configuration the spec allows and `MAX_SESSIONS` free slots is good: the clauses on sessions and keys speak of valid slots only. -/
theorem State.wf_of_slots_free {s : State} (hc : s.cfg.wf = true) (hs : s.slots = List.replicate s.cfg.maxSessions none) : s.wf := by
  have invalid : ∀ {i x}, s.slot i ≠ some x := by simp [State.slot_of_replicate_none hs]
  refine ⟨hc, ?length, ?sessions, ?keys⟩
  case length => simp [hs]
  case sessions => exact State.sessionsWf_iff.mpr fun _ _ hx => absurd hx invalid
  case keys => exact State.keysUnique_iff.mpr fun _ _ _ _ _ hx _ => absurd hx invalid

theorem State.resetWith_wf {c : Config} (hc : c.wf = true) : (State.resetWith c).wf := State.wf_of_slots_free hc rfl

/-- Settles O51: a reset frees every slot, and the default configuration is one the spec allows. -/
theorem theResetStateIsGood : Obligations.TheResetStateIsGood :=
  ⟨fun _ hc => State.resetWith_wf hc, State.resetWith_wf (by decide)⟩

end Sys2Proof.Machine
end

section
/-! PROOFS. Each handler's effect on the slot file, said once: a received frame is dropped, or works on the slot with its key, or opens a session in the lowest free slot (42_session_engine.md sections 2 to 5). From these, the invariant of the slot file (10_state.md R30) through every step. -/

namespace Sys2Proof.Machine

/-! ### Work on the slot a frame's key names -/

/-- From `s` to `t` a frame was dropped, or the session with this key was worked on. -/
def Handles (s t : State) (ch : Channel) (src dst : Addr) (dir : Dir) : Prop :=
  (∃ c, t = s.dropFrame c) ∨ ∃ i x, s.holds i x ch src dst dir ∧ Serves i s t

/-- A packet stored in a receiver's buffer. -/
theorem storePacket_kin {f : Frame} {x y : Session} (hd : x.dir = .rx) (h : storePacket f x = .ok y) : x.Kin y := by
  obtain ⟨-, rfl⟩ := memWrite_eq_ok.mp h
  exact ⟨rfl, rfl, rfl, rfl, rfl, rfl, rfl, rfl, rfl, fun ht => by simp [hd] at ht⟩

theorem grantCts_serves {f : Frame} {i : Nat} {x : Session} {s : State} (hx : s.slot i = some x) :
    Serves i s (grantCts f i x s) := by
  simp only [grantCts]
  split
  · exact .write hx ⟨rfl, rfl, rfl, rfl, rfl, rfl, rfl, rfl, rfl, fun _ => rfl⟩
  · split
    · exact abortSession_serves i _ _ hx
    · exact .write hx ⟨rfl, rfl, rfl, rfl, rfl, rfl, rfl, rfl, rfl, fun _ => rfl⟩

theorem rxCts_handles (f : Frame) (m : Mode) (sa da : Addr) (s : State) :
    Handles s (rxCts f m sa da s) f.channel da sa .tx := by
  simp only [rxCts]
  split
  · exact .inl ⟨_, rfl⟩
  · rename_i i x h
    obtain ⟨hh, -⟩ := txTarget_holds h
    have granted : Handles s (grantCts f i x s) f.channel da sa .tx := .inr ⟨i, x, hh, grantCts_serves hh.1⟩
    split
    · exact granted
    · exact granted
    · exact granted
    · exact .inr ⟨i, x, hh, abortSession_serves i _ _ hh.1⟩
    · exact .inl ⟨_, rfl⟩

theorem rxEoma_handles {f : Frame} {m : Mode} {sa da : Addr} {s t : State} (h : rxEoma f m sa da s = .ok t) :
    Handles s t f.channel da sa .tx := by
  simp only [rxEoma] at h
  split at h
  · cases h; exact .inl ⟨_, rfl⟩
  · rename_i i x hx
    split at h
    · exact .inr ⟨i, x, (txTarget_holds hx).1, complete_serves h⟩
    · cases h; exact .inl ⟨_, rfl⟩

theorem acceptData_serves {f : Frame} {i : Nat} {x : Session} {s t : State} (hx : s.slot i = some x) (hd : x.dir = .rx)
    (h : acceptData f i x s = .ok t) : Serves i s t := by
  simp only [acceptData] at h
  split at h
  · split at h
    · cases h
    · rename_i y hy
      have stored : x.Kin { y with nextPkt := y.nextPkt + 1#32, burstLeft := y.burstLeft - 1#8, state := .receiving, lastActivity := f.timestamp } :=
        (storePacket_kin hd hy).trans ⟨rfl, rfl, rfl, rfl, rfl, rfl, rfl, rfl, rfl, fun _ => rfl⟩
      have write := Serves.write hx stored
      have hz := s.slot_setSlot_self (State.lt_of_slot hx)
      split at h
      · exact write.trans (offer_serves (hz _) h)
      · split at h
        · exact write.trans (offer_serves (hz _) h)
        · cases h; exact write
  · cases h; exact abortSession_serves i _ _ hx

theorem rxData_handles {f : Frame} {m : Mode} {sa da : Addr} {s t : State} (h : rxData f m sa da s = .ok t) :
    Handles s t f.channel sa da .rx := by
  simp only [rxData] at h
  split at h
  · cases h; exact .inl ⟨_, rfl⟩
  · rename_i i x hf
    have hh := State.findSlot_eq_some hf
    split at h
    · cases h; exact .inl ⟨_, rfl⟩
    · split at h
      · cases h; exact .inr ⟨i, x, hh, abortSession_serves i _ _ hh.1⟩
      · exact .inr ⟨i, x, hh, acceptData_serves hh.1 (Session.hasKey_iff.mp hh.2).2.2.2 h⟩

theorem rxDpo_handles (f : Frame) (sa da : Addr) (s : State) : Handles s (rxDpo f sa da s) f.channel sa da .rx := by
  simp only [rxDpo]
  split
  · exact .inl ⟨_, rfl⟩
  · rename_i i x hf
    have hh := State.findSlot_eq_some hf
    have aborted (r : AbortReason) : Handles s (abortSession i x r true s) f.channel sa da .rx :=
      .inr ⟨i, x, hh, abortSession_serves i r true hh.1⟩
    split
    · exact .inl ⟨_, rfl⟩
    split
    · exact .inl ⟨_, rfl⟩
    split
    · exact aborted _
    split
    · exact aborted _
    split
    · exact aborted _
    · exact .inr ⟨i, x, hh, .write hh.1 ⟨rfl, rfl, rfl, rfl, rfl, rfl, rfl, rfl, rfl, fun _ => rfl⟩⟩

theorem rxBamData_handles {f : Frame} {sa : Addr} {s t : State} (h : rxBamData f sa s = .ok t) :
    Handles s t f.channel sa globalAddr .rx := by
  simp only [rxBamData] at h
  split at h
  · cases h; exact .inl ⟨_, rfl⟩
  · rename_i i x hf
    have hh := State.findSlot_eq_some hf
    refine .inr ⟨i, x, hh, ?_⟩
    split at h
    · split at h
      · cases h
      · rename_i y hy
        have stored : x.Kin { y with nextPkt := y.nextPkt + 1#32, lastActivity := f.timestamp } :=
          (storePacket_kin (Session.hasKey_iff.mp hh.2).2.2.2 hy).trans
            ⟨rfl, rfl, rfl, rfl, rfl, rfl, rfl, rfl, rfl, fun _ => rfl⟩
        have write := Serves.write hh.1 stored
        split at h
        · exact write.trans (complete_serves h)
        · cases h; exact write
    · cases h; exact abortSession_serves i _ _ hh.1

/-! ### The opening of a session -/

/-- From `s` to `t` session `x` was opened in the lowest free slot with some bytes in its buffer, and then worked on alone. -/
def Opens (x : Session) (s t : State) : Prop :=
  ∃ i buf, s.lowestFree i ∧ Serves i (s.setSlot i (some { x with buf := buf })) t

/-- The first frame of a session just opened is offered. -/
theorem Opens.of_offer {now : Millis} {i : Nat} {x : Session} {buf : Memory} {k : Control} {s t : State} (hi : s.freeSlot = some i)
    (h : offer now i { x with buf := buf } k (s.setSlot i (some { x with buf := buf })) = .ok t) : Opens x s t := by
  have hi := State.freeSlot_eq_some.mp hi
  exact ⟨i, buf, hi, offer_serves (s.slot_setSlot_self hi.1 _) h⟩

/-- An RTS is rejected by an abort frame, or its key is free and it opens a receiver. -/
theorem rxRts_cases {f : Frame} {m : Mode} {sa da : Addr} {s t : State} (h : rxRts f m sa da s = .ok t) :
    (∃ r, t = sendAbort f.channel m sa da r f.pgnField s) ∨
      (s.keyFree f.channel sa da .rx ∧ Opens (rtsSession f m sa da s.draws) s t) := by
  simp only [rxRts] at h
  split at h
  · cases h; exact .inl ⟨_, rfl⟩
  rename_i hkey
  split at h
  · cases h; exact .inl ⟨_, rfl⟩
  split at h
  · cases h; exact .inl ⟨_, rfl⟩
  rename_i i hi
  split at h
  · exact .inr ⟨State.findSlot_eq_none.mp (by simpa using hkey), .of_offer hi h⟩
  · cases h; exact .inl ⟨_, rfl⟩

/-- A sender is opened, or nothing changes. -/
theorem openTx_cases {q : SendRequest} {m : Mode} {dst : Addr} {k : Control} {s t : State} {b : Bool}
    (h : openTx q m dst k s = .ok (b, t)) :
    t = s ∨ Opens (Session.opened q.channel m .tx q.src dst (q.pgn.setWidth 18) q.len 0xFF .idle q.now s.draws) s t := by
  simp only [openTx] at h
  split at h
  · cases h; exact .inl rfl
  rename_i i hi
  split at h
  · split at h
    · rename_i u hu
      cases h
      simp only [openSession] at hu
      split at hu
      · cases hu
      · rename_i y hy
        obtain ⟨-, rfl⟩ := memWrite_eq_ok.mp hy
        exact .inr (.of_offer hi hu)
    · cases h
  · cases h; exact .inl rfl

/-- An announce is dropped, before or after the old session of the peer has ended, or opens a receiver once it has ended. -/
theorem rxAnnounce_cases (f : Frame) (sa : Addr) (s : State) :
    (∃ c, rxAnnounce f sa s = s.dropFrame c) ∨ (∃ c, rxAnnounce f sa s = (endOldReceiver f sa s).dropFrame c) ∨
      Opens (Session.opened f.channel .bam .rx sa globalAddr f.pgnField (f.rtsLen .bam) 0xFF .receiving f.timestamp
        (endOldReceiver f sa s).draws) (endOldReceiver f sa s) (rxAnnounce f sa s) := by
  simp only [rxAnnounce]
  split
  · exact .inl ⟨_, rfl⟩
  split
  · exact .inr (.inl ⟨_, rfl⟩)
  rename_i i hi
  split
  · exact .inr (.inr ⟨i, [], State.freeSlot_eq_some.mp hi, .refl i _⟩)
  · exact .inr (.inl ⟨_, rfl⟩)

/-- Once the old session of a peer that announces anew has ended, its key is free. -/
theorem endOldReceiver_keyFree {s : State} (hs : s.keysUnique) (f : Frame) (sa : Addr) :
    (endOldReceiver f sa s).keyFree f.channel sa globalAddr .rx := by
  simp only [endOldReceiver]
  split
  · rename_i o x h
    have hh := State.findSlot_eq_some h
    intro j y hy
    by_cases hj : j = o
    · subst hj; simp [abortSession_slot] at hy
    · rw [(abortSession_serves o .anyOther false hh.1).others j hj] at hy
      refine Bool.eq_false_iff.mpr fun hk => hj ?_
      have := State.findSlot_of_holds hs ⟨hy, hk⟩
      simp_all
  · rename_i h
    exact State.findSlot_eq_none.mp h

/-! ### The invariant of the slot file -/

/-- Keys are unique, and the global destination is BAM's alone (10_state.md R30, 42_session_engine.md R202). -/
structure State.Keyed (s : State) : Prop where
  unique : s.keysUnique
  global : s.globalIsBam = true

theorem bam_beq_global_iff {x : Session} :
    ((x.mode == .bam) == (x.dst == globalAddr)) = true ↔ (x.mode = .bam ↔ x.dst = globalAddr) := by
  rw [beq_iff_eq, Bool.eq_iff_iff, beq_iff_eq, beq_iff_eq]

theorem State.globalIsBam_iff {s : State} :
    s.globalIsBam = true ↔ ∀ i x, s.slot i = some x → (x.mode = .bam ↔ x.dst = globalAddr) := by
  unfold State.globalIsBam
  rw [List.all_eq_true]
  constructor
  · intro h i x hx
    exact bam_beq_global_iff.mp (h _ (State.mem_of_slot hx))
  · intro h o ho
    obtain ⟨i, hi, rfl⟩ := List.getElem_of_mem ho
    cases hx : s.slots[i] with
    | none => rfl
    | some x => exact bam_beq_global_iff.mpr (h i x (by simp [State.slot, hi, hx]))

namespace State.Keyed

/-- The invariant reads the slot file alone. -/
theorem congr {s t : State} (hs : s.Keyed) (h : t.slots = s.slots) : t.Keyed :=
  ⟨by unfold State.keysUnique; rw [h]; exact hs.unique, by unfold State.globalIsBam; rw [h]; exact hs.global⟩

/-- Work on one slot keeps who each session is. -/
theorem serves {i : Nat} {s t : State} (hs : s.Keyed) (h : Serves i s t) : t.Keyed := by
  refine ⟨h.keysUnique hs.unique, State.globalIsBam_iff.mpr fun j y hy => ?_⟩
  have global := State.globalIsBam_iff.mp hs.global
  by_cases hj : j = i
  · subst hj
    obtain ⟨x, hx, hk⟩ := h.kin y hy
    rw [hk.mode, hk.dst]; exact global j x hx
  · exact global j y (h.others j hj ▸ hy)

theorem abort {s : State} (hs : s.Keyed) (i : Nat) (x : Session) (r : AbortReason) (n : Bool) : (abortSession i x r n s).Keyed :=
  (hs.serves (.free i s)).congr (by simp [State.free, State.setSlot])

theorem handles {s t : State} {ch : Channel} {src dst : Addr} {dir : Dir} (hs : s.Keyed) (h : Handles s t ch src dst dir) : t.Keyed := by
  obtain ⟨c, rfl⟩ | ⟨i, x, -, h⟩ := h
  · exact hs.congr rfl
  · exact hs.serves h

/-- A session with a free key, and a BAM sender on a channel without one, is opened where only BAM's destination is global. -/
theorem opens {x : Session} {s t : State} (hs : s.Keyed) (h : Opens x s t) (hk : s.keyFree x.channel x.src x.dst x.dir)
    (hb : x.mode = .bam → x.dir = .tx → s.bamTxActive x.channel = false) (hg : x.mode = .bam ↔ x.dst = globalAddr) : t.Keyed := by
  obtain ⟨i, buf, hi, h⟩ := h
  refine State.Keyed.serves ⟨State.keysUnique_open hs.unique hi (no_clash (x := { x with buf := buf }) hk hb), ?_⟩ h
  refine State.globalIsBam_iff.mpr fun j y hy => ?_
  by_cases hj : j = i
  · subst hj
    rw [s.slot_setSlot_self hi.1] at hy
    cases hy; exact hg
  · rw [s.slot_setSlot_ne (Ne.symm hj)] at hy
    exact State.globalIsBam_iff.mp hs.global j y hy

/-- On a channel without a BAM sender every sender's key with the global destination is free, as only BAM has that destination. -/
theorem globalKeyFree {s : State} {ch : Channel} (hs : s.Keyed) (h : s.bamTxActive ch = false) (src : Addr) :
    s.keyFree ch src globalAddr .tx := by
  intro i x hx
  refine Bool.eq_false_iff.mpr fun hk => ?_
  obtain ⟨hc, -, hdst, hdir⟩ := Session.hasKey_iff.mp hk
  have hm := (State.globalIsBam_iff.mp hs.global i x hx).mpr hdst
  simp [State.bamTxActive_iff.mpr ⟨i, x, hx, hc, hm, hdir⟩] at h

/-! ### RX_FRAME -/

theorem endCandidate {s : State} (hs : s.Keyed) (f : Frame) (c : Option (Nat × Session)) : (endCandidate f c s).Keyed := by
  cases c with
  | none => exact hs
  | some c => exact hs.abort c.1 c.2 _ _

theorem rxAbort {s : State} (hs : s.Keyed) (f : Frame) (m : Mode) (sa da : Addr) : (rxAbort f m sa da s).Keyed := by
  simp only [Machine.rxAbort]
  split
  · exact hs.congr rfl
  · exact (hs.endCandidate f _).endCandidate f _

theorem rxRts {f : Frame} {m : Mode} {sa da : Addr} {s t : State} (hs : s.Keyed) (hm : m ≠ .bam) (hda : da ≠ globalAddr)
    (h : rxRts f m sa da s = .ok t) : t.Keyed := by
  obtain ⟨r, rfl⟩ | ⟨hk, ho⟩ := rxRts_cases h
  · exact hs.congr rfl
  · exact hs.opens ho hk (fun hb => absurd hb hm) (iff_of_false hm hda)

theorem endOldReceiver {s : State} (hs : s.Keyed) (f : Frame) (sa : Addr) : (endOldReceiver f sa s).Keyed := by
  simp only [Machine.endOldReceiver]
  split
  · exact hs.abort _ _ _ _
  · exact hs

theorem rxAnnounce {s : State} (hs : s.Keyed) (f : Frame) (sa : Addr) : (rxAnnounce f sa s).Keyed := by
  have ended := hs.endOldReceiver f sa
  obtain ⟨c, h⟩ | ⟨c, h⟩ | h := rxAnnounce_cases f sa s
  · exact h ▸ hs.congr rfl
  · exact h ▸ ended.congr rfl
  · exact ended.opens h (endOldReceiver_keyFree hs.unique f sa) (by simp [Session.opened]) (iff_of_true rfl rfl)

theorem rxControl {f : Frame} {m : Mode} {kind : Option ControlKind} {sa da : Addr} {s t : State} (hs : s.Keyed) (hm : m ≠ .bam)
    (hda : kind = some .rts → da ≠ globalAddr) (h : rxControl f m kind sa da s = .ok t) : t.Keyed := by
  rcases kind with _ | kind
  · cases h; exact hs.congr rfl
  · cases kind with
    | rts => exact hs.rxRts hm (hda rfl) h
    | cts => cases h; exact hs.handles (rxCts_handles f m sa da s)
    | eoma => exact hs.handles (rxEoma_handles h)
    | dpo => cases h; exact hs.handles (rxDpo_handles f sa da s)
    | announce => cases h; exact hs.rxAnnounce f sa
    | abort => cases h; exact hs.rxAbort f m sa da

end State.Keyed

/-- A frame to the global address that is not dropped is no RTS (42_session_engine.md R213). -/
theorem not_global_of_rts {f : Frame} {g : Pgn} {da : Addr} (h : badDestination f g da = false)
    (hg : g = pgnTpCm ∧ tpControlKind (f.byte 0) = some .rts ∨ g = pgnEtpCm) : da ≠ globalAddr := by
  rintro rfl
  rcases hg with ⟨rfl, hr⟩ | rfl
  · simp [badDestination, hr, pgnTpCm, pgnTpDt] at h
  · simp [badDestination, pgnTpCm, pgnTpDt, pgnEtpCm] at h

namespace State.Keyed

theorem tseRx {f : Frame} {s t : State} (hs : s.Keyed) (h : tseRx f s = .ok t) : t.Keyed := by
  simp only [Machine.tseRx] at h
  split at h
  · cases h; exact hs.congr rfl
  split at h
  · cases h; exact hs
  split at h
  · cases h; exact hs.congr rfl
  rename_i hbad
  have hbad := Bool.eq_false_iff.mpr hbad
  split at h
  · rename_i hg
    exact hs.rxControl (by decide) (fun hk => not_global_of_rts hbad (.inl ⟨hg, hk⟩)) h
  split at h
  · rename_i hg
    exact hs.rxControl (by decide) (fun _ => not_global_of_rts hbad (.inr hg)) h
  split at h
  · split at h
    · exact hs.handles (rxBamData_handles h)
    · exact hs.handles (rxData_handles h)
  · exact hs.handles (rxData_handles h)

theorem routeFrame {f : Frame} {s t : State} (hs : s.Keyed) (h : routeFrame f s = .ok t) : t.Keyed := by
  simp only [Machine.routeFrame] at h
  split at h
  · cases h; exact hs.congr rfl
  split at h
  · cases h; exact hs.congr rfl
  split at h
  · exact hs.tseRx h
  · cases h; exact hs.congr rfl

/-! ### UPDATE, TX_SEND and SESSION_ABORT -/

theorem serviceSlots {now : Millis} {l : List Nat} : ∀ {s t : State}, s.Keyed → serviceSlots now l s = .ok t → t.Keyed := by
  induction l with
  | nil => intro s t hs h; cases h; exact hs
  | cons i l ih =>
    intro s t hs h
    simp only [Machine.serviceSlots] at h
    split at h
    · exact ih hs h
    · rename_i x hx
      split at h
      · cases h
      · rename_i u hu
        exact ih (hs.serves (serviceSlot_serves hx hu)) h

theorem openPeer {q : SendRequest} {m : Mode} {s t : State} {b : Bool} (hs : s.Keyed) (hm : m ≠ .bam) (hd : q.dst ≠ globalAddr)
    (h : openPeer q m s = .ok (b, t)) : t.Keyed := by
  simp only [Machine.openPeer] at h
  split at h
  · cases h; exact hs
  rename_i hkey
  have hfree : s.keyFree q.channel q.src q.dst .tx := State.findSlot_eq_none.mp (by simpa using hkey)
  obtain rfl | ho := openTx_cases h
  · exact hs
  · exact hs.opens ho hfree (fun hb => absurd hb hm) (iff_of_false hm hd)

theorem openBam {q : SendRequest} {s t : State} {b : Bool} (hs : s.Keyed) (h : openBam q s = .ok (b, t)) : t.Keyed := by
  simp only [Machine.openBam] at h
  split at h
  · cases h; exact hs
  rename_i hidle
  have hidle := Bool.eq_false_iff.mpr hidle
  obtain rfl | ho := openTx_cases h
  · exact hs
  · exact hs.opens ho (hs.globalKeyFree hidle q.src) (fun _ _ => hidle) (iff_of_true rfl rfl)

end State.Keyed

/-- The modes with a peer are selected only for a destination that is not the global address (43_block_commands.md R302). -/
theorem not_absent_of_selectMode {len : Nat} {absent : Bool} (h : selectMode len absent = .tp ∨ selectMode len absent = .etp) :
    absent = false := by
  cases absent with
  | false => rfl
  | true =>
    simp only [selectMode, if_true] at h
    (repeat' split at h) <;> simp at h

theorem State.Keyed.sendMessage {q : SendRequest} {s t : State} {b : Bool} (hs : s.Keyed) (h : sendMessage q s = .ok (b, t)) : t.Keyed := by
  simp only [Machine.sendMessage] at h
  split at h
  · split at h
    · cases h; exact hs
    · cases h; exact hs.congr rfl
    · rename_i hm
      exact hs.openPeer (by decide) (by simpa using not_absent_of_selectMode (.inl hm)) h
    · exact hs.openBam h
    · rename_i hm
      exact hs.openPeer (by decide) (by simpa using not_absent_of_selectMode (.inr hm)) h
  · cases h; exact hs

theorem State.Keyed.appAbort {s : State} (hs : s.Keyed) (ch : Channel) (src dst : Addr) (dir : Dir) : (appAbort ch src dst dir s).2.Keyed := by
  simp only [Machine.appAbort]
  split
  · exact hs.abort _ _ _ _
  · exact hs

theorem State.Keyed.resetBlock (s : State) : s.resetBlock.Keyed := by
  have invalid : ∀ {i x}, s.resetBlock.slot i ≠ some x := by simp [State.slot_of_replicate_none (s := s.resetBlock) rfl]
  exact ⟨State.keysUnique_iff.mpr fun _ _ _ _ _ hx _ => absurd hx invalid, State.globalIsBam_iff.mpr fun _ _ hx => absurd hx invalid⟩

/-! ### Commands and steps -/

/-- A codec command writes result ports alone. -/
theorem exec_codec_reply {i : Instr} (hi : isCodec i = true) (s : State) : ∃ w, exec i s = .next (s.reply w) := by
  cases i with
  | idEncode ty => cases ty <;> exact ⟨_, rfl⟩
  | idDecode ty => cases ty <;> exact ⟨_, rfl⟩
  | nameMatch => simp only [exec, execNameMatch]; split <;> exact ⟨_, rfl⟩
  | txSend | rxFrame | update | sessionAbort | status | reset => cases hi
  | _ => exact ⟨_, rfl⟩

/-- A transport command that ends by `finish` answers what its work answered, ports apart. -/
theorem finish_eq_next {r : Except Fault State} {t : State} (h : finish r = .next t) : ∃ u w, r = .ok u ∧ t = u.reply w := by
  cases r with
  | error e => cases h
  | ok u => cases h; exact ⟨u, _, rfl, rfl⟩

theorem State.Keyed.exec {i : Instr} {s t : State} (hs : s.Keyed) (h : exec i s = .next t) : t.Keyed := by
  by_cases hc : isCodec i = true
  · obtain ⟨w, hw⟩ := exec_codec_reply hc s
    rw [hw] at h; cases h; exact hs.congr rfl
  cases i with
  | txSend q =>
    simp only [Machine.exec, execTxSend] at h
    split at h
    · cases h; exact hs.congr rfl
    split at h
    · rename_i b u hu
      cases h; exact (hs.sendMessage hu).congr rfl
    · cases h
  | rxFrame f =>
    simp only [Machine.exec, execRxFrame] at h
    split at h
    · cases h; exact hs.congr rfl
    obtain ⟨u, w, hu, rfl⟩ := finish_eq_next h
    exact (hs.routeFrame hu).congr rfl
  | update now =>
    obtain ⟨u, w, hu, rfl⟩ := finish_eq_next h
    exact (hs.serviceSlots hu).congr rfl
  | sessionAbort now ch src dst dir =>
    simp only [Machine.exec, execSessionAbort] at h
    split at h
    · cases h; exact hs.congr rfl
    · cases h; exact (hs.appAbort ch src dst dir).congr rfl
  | status => cases h; exact hs.congr rfl
  | reset => cases h; exact (State.Keyed.resetBlock s).congr rfl
  | _ => exact absurd rfl hc

/-- A step does nothing, or takes a command that has the status ILLEGAL or is run. -/
theorem step_eq_next {s t : State} (h : step s = .next t) :
    t = s ∨ ∃ record u, s.take = some (record, u) ∧
      ((∃ op, decode record = .error (.reservedOpcode op) ∧ u.illegal = .next t) ∨ ∃ i, decode record = .ok i ∧ exec i u = .next t) := by
  simp only [step] at h
  split at h
  · cases h; exact .inl rfl
  · rename_i record u hu
    refine .inr ⟨record, u, hu, ?_⟩
    split at h
    · rename_i i hi; exact .inr ⟨i, hi, h⟩
    · rename_i op hop; exact .inl ⟨op, hop, h⟩
    · cases h

/-- Taking a command leaves the slot file. -/
theorem State.take_slots {s u : State} {record : List Byte} (h : s.take = some (record, u)) : u.slots = s.slots := by
  simp only [State.take] at h
  split at h <;> cases h
  rfl

theorem State.Keyed.step {s t : State} (hs : s.Keyed) (h : step s = .next t) : t.Keyed := by
  obtain rfl | ⟨record, u, hu, ⟨op, -, hill⟩ | ⟨i, -, hex⟩⟩ := step_eq_next h
  · exact hs
  · cases hill; exact (hs.congr (State.take_slots hu)).congr rfl
  · exact (hs.congr (State.take_slots hu)).exec hex

/-- Settles O54: a command leaves the slot file, works on slots one at a time, frees them, or opens a session whose key, and for a BAM sender whose channel, is free. -/
theorem keysStayUnique : Obligations.KeysStayUnique := by
  intro s t hu hg h
  obtain ⟨unique, global⟩ := State.Keyed.step ⟨hu, hg⟩ h
  exact ⟨unique, global⟩

end Sys2Proof.Machine
end

section
/-! PROOFS. The reserved encodings (30_encoding.md R84): which opcodes and operands they are, and that each is turned away with status ILLEGAL and no other effect. -/

namespace Sys2Proof.Machine

/-! ### What a reserved encoding changes -/

/-- A reply changes nothing but the result ports. -/
theorem changed_reply (s : State) (w : Ports → Ports) : s.changed (s.reply w) ⟨s.slots, 0, 0, [], []⟩ :=
  ⟨rfl, rfl, rfl, rfl, by simp, by simp, by simp, by simp, by simp⟩

theorem turnedAway_of_illegal {i : Instr} {s : State} (h : exec i s = s.illegal) : turnedAway i s .illegal :=
  ⟨_, h, changed_reply s _, rfl⟩

/-! ### Reserved opcodes -/

/-- The opcodes of the opcode map (30_encoding.md R81). -/
def opcodes : List Nat :=
  [0x01, 0x02, 0x10, 0x11, 0x12, 0x13, 0x20, 0x21, 0x22, 0x23, 0x24, 0x25, 0x26, 0x27, 0x28,
    0x30, 0x31, 0x32, 0x33, 0x34, 0x35, 0x36, 0x37, 0x38, 0x40, 0x41, 0x42, 0x43, 0x44, 0x7F]

/-- An opcode with a reader is in the opcode map: each arm of `recordReader` names its opcode. -/
theorem mem_opcodes_of_recordReader {op : Byte} {read : List Byte → Option Instr} (h : recordReader op = some read) :
    op.toNat ∈ opcodes := by
  unfold recordReader at h
  split at h
  case h_31 => cases h
  all_goals
    rename_i hop
    rw [hop]; decide

/-- A record whose opcode is not in the opcode map is rejected by that opcode, whatever bytes follow it. -/
theorem decode_reserved {op : Byte} (h : op.toNat ∉ opcodes) (r : List Byte) : decode (op :: r) = .error (.reservedOpcode op) := by
  have hnone : recordReader op = none := Option.eq_none_iff_forall_ne_some.mpr fun _ hread => h (mem_opcodes_of_recordReader hread)
  simp [decode, hnone]

/-- A step that takes a record with a reserved opcode ends with status ILLEGAL. -/
theorem step_reserved {s : State} {op : Byte} {r : List Byte} {reg : Registry} {rest : List Command} (hop : op.toNat ∉ opcodes)
    (hin : s.inbox = ⟨op :: r, reg⟩ :: rest) : step s = State.illegal { s with inbox := rest, registry := reg } := by
  simp [step, State.take, hin, decode_reserved hop]

/-! ### Reserved operands -/

theorem NameField.ofSelector_eq_none_iff {f : BitVec 4} : NameField.ofSelector f = none ↔ 9 ≤ f.toNat := by
  revert f; decide

theorem nameMatchIllegal_iff {c : Config} {count : Byte} {fs : List Filter} :
    nameMatchIllegal c count fs = true ↔ c.maxFilters < count.toNat ∨ ∃ f ∈ fs, 9 ≤ f.field.toNat := by
  simp [nameMatchIllegal, NameField.ofSelector_eq_none_iff]

theorem channelIllegal_iff {c : Config} {ch : Channel} : channelIllegal c ch = true ↔ c.numChannels ≤ ch.toNat := by
  simp [channelIllegal]

theorem frameIllegal_iff {c : Config} {f : Frame} :
    frameIllegal c f = true ↔ c.numChannels ≤ f.channel.toNat ∨ 8 < f.length.toNat ∨ f.length.toNat ≠ f.data.length := by
  simp [frameIllegal, channelIllegal_iff, or_assoc]

/-! ### The commands that check their operands -/

theorem exec_nameMatch_illegal {count : Byte} {fs : List Filter} {s : State} (h : nameMatchIllegal s.cfg count fs = true)
    (n : NameWord) : exec (.nameMatch n count fs) s = s.illegal :=
  if_pos h

theorem exec_txSend_illegal {q : SendRequest} {s : State} (h : channelIllegal s.cfg q.channel = true) :
    exec (.txSend q) s = s.illegal :=
  if_pos h

theorem exec_rxFrame_illegal {f : Frame} {s : State} (h : frameIllegal s.cfg f = true) : exec (.rxFrame f) s = s.illegal :=
  if_pos h

theorem exec_sessionAbort_illegal {ch : Channel} {s : State} (h : channelIllegal s.cfg ch = true) (now : Millis) (src dst : Addr)
    (dir : Dir) : exec (.sessionAbort now ch src dst dir) s = s.illegal :=
  if_pos h

/-- Settles O6: a reserved opcode never decodes, each reserved operand fails its command's check, and both end in a reply of status ILLEGAL. -/
theorem reservedEncodingsAreIllegalWithoutEffect : Obligations.ReservedEncodingsAreIllegalWithoutEffect := by
  refine ⟨fun s op r reg rest hop hin => ?opcode, fun s n count fs h => ?nameMatch, fun s q h => ?txSend, fun s f h => ?rxFrame,
    fun s now ch src dst dir h => ?sessionAbort⟩
  case opcode => exact ⟨_, step_reserved hop hin, changed_reply _ _, rfl⟩
  case nameMatch => exact turnedAway_of_illegal (exec_nameMatch_illegal (nameMatchIllegal_iff.mpr h) n)
  case txSend => exact turnedAway_of_illegal (exec_txSend_illegal (channelIllegal_iff.mpr h))
  case rxFrame => exact turnedAway_of_illegal (exec_rxFrame_illegal (frameIllegal_iff.mpr h))
  case sessionAbort => exact turnedAway_of_illegal (exec_sessionAbort_illegal (channelIllegal_iff.mpr h) now src dst dir)

end Sys2Proof.Machine
end

section
/-! PROOFS. The identifier codec (40_identifier_codec.md): each field of a packed and of an unpacked identifier as a number, and from these what ID_ENCODE and ID_DECODE compute and how they invert each other. -/

namespace Sys2Proof.Machine

/-! ### Fields as numbers -/

theorem toNat_extractLsb' {n : Nat} (v : BitVec n) (lo w : Nat) : (v.extractLsb' lo w).toNat = bitField v.toNat lo w := by
  rw [BitVec.extractLsb'_toNat, Nat.shiftRight_eq_div_pow, bitField]

/-- Placing `b` below `a` adds `b` to `a` moved up by its width. -/
theorem toNat_append_eq_add {m n : Nat} (a : BitVec m) (b : BitVec n) : (a ++ b).toNat = a.toNat * 2 ^ n + b.toNat := by
  rw [BitVec.toNat_append, ← Nat.shiftLeft_add_eq_or_of_lt b.isLt, Nat.shiftLeft_eq]

/-- Truncation does not reach a field that lies below it. -/
theorem bitField_mod {lo w k : Nat} (h : lo + w ≤ k) (n : Nat) : bitField (n % 2 ^ k) lo w = bitField n lo w := by
  obtain ⟨d, rfl⟩ := Nat.exists_eq_add_of_le h
  have hpow : 2 ^ (lo + w + d) = 2 ^ lo * (2 ^ w * 2 ^ d) := by ring
  rw [bitField, hpow, Nat.mod_mul_right_div_self, Nat.mod_mod_of_dvd _ (Nat.dvd_mul_right ..), bitField]

/-- An operand reduced modulo `2 ^ k` truncates to `k` bits as the operand does. -/
theorem setWidth_ofNat_mod {w k : Nat} (h : k ≤ w) (v : BitVec w) : (BitVec.ofNat w (v.toNat % 2 ^ k)).setWidth k = v.setWidth k := by
  apply BitVec.eq_of_toNat_eq
  simp [Nat.mod_mod_of_dvd _ (Nat.pow_dvd_pow 2 h)]

/-- A byte is at least 0xF0 exactly where its upper half is 0xF: the two forms of the PDU2 test (30_encoding.md R87). -/
theorem upperHalf_eq_iff {n : Nat} (v : BitVec n) (lo : Nat) :
    v.extractLsb' (lo + 4) 4 = 0xF#4 ↔ 0xF0 ≤ bitField v.toNat lo 8 := by
  have hdiv : v.toNat / 2 ^ (lo + 4) = v.toNat / 2 ^ lo / 16 := by rw [Nat.pow_add, ← Nat.div_div_eq_div_mul]
  rw [← BitVec.toNat_inj, toNat_extractLsb', bitField, bitField, hdiv, BitVec.toNat_ofNat]
  omega

theorem isPdu2_iff {g : Pgn} : isPdu2 g = true ↔ 0xF0 ≤ bitField g.toNat 8 8 :=
  beq_iff_eq.trans (upperHalf_eq_iff g 8)

/-! ### The packed identifier -/

theorem idEncode_toNat (p : BitVec 3) (g : Pgn) (da sa : Addr) : (idEncode p g da sa).toNat =
    p.toNat * 2 ^ 26 + (if 0xF0 ≤ bitField g.toNat 8 8 then g.toNat * 2 ^ 8
      else bitField g.toNat 8 10 * 2 ^ 16 + da.toNat * 2 ^ 8) + sa.toNat := by
  simp only [idEncode, isPdu2_iff]
  split <;> simp only [toNat_append_eq_add, toNat_extractLsb', BitVec.toNat_ofNat] <;> omega

theorem idEncode_pdu2 {g : Pgn} (h : 0xF0 ≤ bitField g.toNat 8 8) (p : BitVec 3) (da sa : Addr) :
    (idEncode p g da sa).toNat = p.toNat * 2 ^ 26 + g.toNat * 2 ^ 8 + sa.toNat := by
  rw [idEncode_toNat, if_pos h]

theorem idEncode_pdu1 {g : Pgn} (h : bitField g.toNat 8 8 < 0xF0) (p : BitVec 3) (da sa : Addr) :
    (idEncode p g da sa).toNat = p.toNat * 2 ^ 26 + (bitField g.toNat 8 10 * 2 ^ 16 + da.toNat * 2 ^ 8) + sa.toNat := by
  rw [idEncode_toNat, if_neg (Nat.not_le.mpr h)]

section
variable (p : BitVec 3) (g : Pgn) (da sa : Addr)

theorem idEncode_prio : bitField (idEncode p g da sa).toNat 26 3 = p.toNat := by
  have := p.isLt; have := g.isLt; have := da.isLt; have := sa.isLt
  rw [idEncode_toNat]
  split <;> simp only [bitField] <;> omega

/-- The PF byte, which decides between PDU1 and PDU2, is that of the PGN. -/
theorem idEncode_pf : bitField (idEncode p g da sa).toNat 16 8 = bitField g.toNat 8 8 := by
  have := da.isLt; have := sa.isLt
  rw [idEncode_toNat]
  split <;> simp only [bitField] <;> omega

theorem idEncode_sa : bitField (idEncode p g da sa).toNat 0 8 = sa.toNat := by
  have := sa.isLt
  rw [idEncode_toNat]
  split <;> simp only [bitField] <;> omega

theorem idEncode_lt : (idEncode p g da sa).toNat < 2 ^ 29 := by
  have := p.isLt; have := g.isLt; have := da.isLt; have := sa.isLt
  have hupper : bitField g.toNat 8 10 < 2 ^ 10 := Nat.mod_lt _ (by decide)
  rw [idEncode_toNat]
  split <;> omega

end

/-! ### The fields of an identifier -/

theorem idDecode_prio_toNat (raw : Word) : (idDecode raw).prio.toNat = bitField raw.toNat 26 3 := by
  rw [← toNat_extractLsb', idDecode]; split <;> rfl

theorem idDecode_sa_toNat (raw : Word) : (idDecode raw).sa.toNat = bitField raw.toNat 0 8 := by
  rw [← toNat_extractLsb', idDecode]; split <;> rfl

theorem idDecode_pdu2 {raw : Word} (h : 0xF0 ≤ bitField raw.toNat 16 8) :
    (idDecode raw).pgn.toNat = bitField raw.toNat 8 18 ∧ (idDecode raw).da = globalAddr := by
  have hpf : raw.extractLsb' 20 4 = 0xF#4 := (upperHalf_eq_iff raw 16).mpr h
  simp only [idDecode, hpf, beq_self_eq_true, if_true, toNat_extractLsb', and_self]

theorem idDecode_pdu1 {raw : Word} (h : bitField raw.toNat 16 8 < 0xF0) :
    (idDecode raw).pgn.toNat = bitField raw.toNat 16 10 * 2 ^ 8 ∧ (idDecode raw).da.toNat = bitField raw.toNat 8 8 := by
  have hpf : raw.extractLsb' 20 4 ≠ 0xF#4 := fun e => Nat.not_le.mpr h ((upperHalf_eq_iff raw 16).mp e)
  rw [idDecode, if_neg (by rwa [beq_iff_eq])]
  refine ⟨?_, toNat_extractLsb' raw 8 8⟩
  rw [toNat_append_eq_add, toNat_extractLsb', BitVec.toNat_ofNat, Nat.zero_mod, Nat.add_zero]

/-- Unpacking keeps the PF byte. -/
theorem idDecode_pf (raw : Word) : bitField (idDecode raw).pgn.toNat 8 8 = bitField raw.toNat 16 8 := by
  rcases Nat.lt_or_ge (bitField raw.toNat 16 8) 0xF0 with hpf | hpf
  · rw [(idDecode_pdu1 hpf).1]; simp only [bitField]; omega
  · rw [(idDecode_pdu2 hpf).1]; simp only [bitField]; omega

/-! ### Validity -/

theorem idValid_iff {c : Config} {raw : Word} :
    idValid c raw = true ↔ raw.toNat < 2 ^ 29 ∧ ¬(c.idvRejectGlobalSa = true ∧ bitField raw.toNat 0 8 = 0xFF) := by
  have htop : raw.extractLsb' 29 3 = 0#3 ↔ raw.toNat < 2 ^ 29 := by
    rw [← BitVec.toNat_inj, toNat_extractLsb', bitField, BitVec.toNat_ofNat]; omega
  have hsa : raw.extractLsb' 0 8 = globalAddr ↔ bitField raw.toNat 0 8 = 0xFF := by
    rw [← BitVec.toNat_inj, toNat_extractLsb']; rfl
  simp [idValid, htop, hsa, Classical.or_iff_not_imp_left]

/-- A packed identifier is valid unless the configuration rejects its source. -/
theorem idValid_idEncode {c : Config} {p : BitVec 3} {g : Pgn} {da sa : Addr} (h : c.idvRejectGlobalSa = true → sa ≠ 0xFF) :
    idValid c (idEncode p g da sa) = true := by
  refine idValid_iff.mpr ⟨idEncode_lt p g da sa, fun ⟨hc, hsa⟩ => h hc (BitVec.eq_of_toNat_eq ?_)⟩
  rw [← idEncode_sa p g da sa, hsa]; rfl

theorem standardIdValid_iff {raw : Word} : standardIdValid raw = true ↔ raw.toNat < 2 ^ 11 := by
  rw [standardIdValid, beq_iff_eq, ← BitVec.toNat_inj, toNat_extractLsb', bitField, BitVec.toNat_ofNat]; omega

/-! ### The two inverses -/

/-- Where a PDU1 PGN has PS = 0 and a PDU2 PGN goes to the global address, no field is lost in packing. -/
theorem idDecode_idEncode {p : BitVec 3} {g : Pgn} {da sa : Addr} (h1 : bitField g.toNat 8 8 < 0xF0 → g.toNat % 2 ^ 8 = 0)
    (h2 : 0xF0 ≤ bitField g.toNat 8 8 → da = globalAddr) : idDecode (idEncode p g da sa) = ⟨p, g, da, sa⟩ := by
  have hprio : (idDecode (idEncode p g da sa)).prio = p :=
    BitVec.eq_of_toNat_eq ((idDecode_prio_toNat _).trans (idEncode_prio p g da sa))
  have hsa : (idDecode (idEncode p g da sa)).sa = sa :=
    BitVec.eq_of_toNat_eq ((idDecode_sa_toNat _).trans (idEncode_sa p g da sa))
  have hpf := idEncode_pf p g da sa
  have := g.isLt; have := da.isLt; have := sa.isLt
  obtain ⟨hpgn, hda⟩ : (idDecode (idEncode p g da sa)).pgn = g ∧ (idDecode (idEncode p g da sa)).da = da := by
    rcases Nat.lt_or_ge (bitField g.toNat 8 8) 0xF0 with hg | hg
    · obtain ⟨hpgn, hda⟩ := idDecode_pdu1 (hpf ▸ hg)
      have hps := h1 hg
      rw [idEncode_pdu1 hg, bitField, bitField] at hpgn hda
      exact ⟨BitVec.eq_of_toNat_eq (by omega), BitVec.eq_of_toNat_eq (by omega)⟩
    · obtain ⟨hpgn, hda⟩ := idDecode_pdu2 (hpf ▸ hg)
      rw [idEncode_pdu2 hg, bitField] at hpgn
      exact ⟨BitVec.eq_of_toNat_eq (by omega), hda.trans (h2 hg).symm⟩
  exact (IdFields.mk.injEq ..).mpr ⟨hprio, hpgn, hda, hsa⟩

/-- Packing the fields of a 29-bit identifier gives it back. -/
theorem idEncode_idDecode {raw : Word} (h : raw.toNat < 2 ^ 29) :
    idEncode (idDecode raw).prio (idDecode raw).pgn (idDecode raw).da (idDecode raw).sa = raw := by
  apply BitVec.eq_of_toNat_eq
  rw [idEncode_toNat, idDecode_pf, idDecode_prio_toNat, idDecode_sa_toNat]
  rcases Nat.lt_or_ge (bitField raw.toNat 16 8) 0xF0 with hpf | hpf
  · obtain ⟨hpgn, hda⟩ := idDecode_pdu1 hpf
    rw [if_neg (Nat.not_le.mpr hpf), hpgn, hda]
    simp only [bitField]; omega
  · obtain ⟨hpgn, -⟩ := idDecode_pdu2 hpf
    rw [if_pos hpf, hpgn]
    simp only [bitField]; omega

/-! ### What the commands compute -/

/-- A command that writes result ports alone and has the status OK. -/
theorem computes_of_done {i : Instr} {s : State} {w : Ports → Ports} {ports : Ports → Prop} (h : exec i s = s.done w)
    (hw : ports { w (Ports.unspecified s.draws) with status := .ok }) : computes i s ports :=
  ⟨_, h, changed_reply s _, rfl, hw⟩

theorem turnedAway_of_unsupported {i : Instr} {s : State} (h : exec i s = s.unsupported) : turnedAway i s .unsupported :=
  ⟨_, h, changed_reply s _, rfl⟩

theorem computes.imp {i : Instr} {s : State} {ports ports' : Ports → Prop} (h : computes i s ports) (hp : ∀ p, ports p → ports' p) :
    computes i s ports' := by
  obtain ⟨t, ht, hc, hok, hports⟩ := h
  exact ⟨t, ht, hc, hok, hp _ hports⟩

theorem exec_idEncode (prio pgn : Word) (da sa : Addr) (s : State) : exec (.idEncode .extended prio pgn da sa) s =
    s.done fun p => { p with raw := idEncode (prio.setWidth 3) (pgn.setWidth 18) da sa } := rfl

theorem computes_idEncode (prio pgn : Word) (da sa : Addr) (s : State) :
    computes (.idEncode .extended prio pgn da sa) s fun p => p.raw = idEncode (prio.setWidth 3) (pgn.setWidth 18) da sa :=
  computes_of_done (exec_idEncode prio pgn da sa s) rfl

theorem computes_idDecode (raw : Word) (s : State) : computes (.idDecode .extended raw) s fun p =>
    (⟨p.prio, p.pgn, p.da, p.sa⟩ : IdFields) = idDecode raw ∧ p.valid = idValid s.cfg raw :=
  computes_of_done rfl ⟨rfl, rfl⟩

theorem computes_idDecode_standard (raw : Word) (s : State) :
    computes (.idDecode .standard raw) s fun p => p.valid = standardIdValid raw :=
  computes_of_done rfl rfl

/-- Settles O7: ID_ENCODE writes the packed identifier of its truncated operands, and truncation leaves the fields of the PGN. -/
theorem idEncodePacksTheFields : Obligations.IdEncodePacksTheFields := by
  refine fun prio pgn da sa s => ⟨(computes_idEncode prio pgn da sa s).imp fun p hraw => ?_, turnedAway_of_unsupported rfl⟩
  have hpf : bitField (pgn.toNat % 2 ^ 18) 8 8 = bitField pgn.toNat 8 8 := bitField_mod (by decide) _
  have hupper : bitField (pgn.toNat % 2 ^ 18) 8 10 = bitField pgn.toNat 8 10 := bitField_mod (by decide) _
  rw [hraw, idEncode_toNat, BitVec.toNat_setWidth, BitVec.toNat_setWidth, hpf, hupper]

/-- Settles O8: ID_DECODE writes the fields and the validity of its operand. -/
theorem idDecodeUnpacksTheFields : Obligations.IdDecodeUnpacksTheFields := by
  refine fun raw s => ⟨(computes_idDecode raw s).imp fun p ⟨hfields, hvalid⟩ => ?_,
    (computes_idDecode_standard raw s).imp fun p hvalid => hvalid ▸ standardIdValid_iff⟩
  have hprio := idDecode_prio_toNat raw
  have hsa := idDecode_sa_toNat raw
  have hpdu2 := idDecode_pdu2 (raw := raw)
  have hpdu1 := idDecode_pdu1 (raw := raw)
  rw [← hfields] at hprio hsa hpdu2 hpdu1
  exact ⟨hprio, hsa, hpdu2, hpdu1, hvalid ▸ idValid_iff⟩

/-- Settles O10: the fields of a valid tuple are those ID_ENCODE keeps, and a 29-bit value has no bit outside its fields. -/
theorem identifiersRoundTrip : Obligations.IdentifiersRoundTrip := by
  constructor
  · intro prio pgn da sa s u hprio hpgn hpdu1 hpdu2 hreject
    have hprio3 : (prio.setWidth 3).toNat = prio.toNat := by rw [BitVec.toNat_setWidth]; omega
    have hpgn18 : (pgn.setWidth 18).toNat = pgn.toNat := by rw [BitVec.toNat_setWidth]; omega
    refine (computes_idEncode prio pgn da sa s).imp fun r hraw => (computes_idDecode r.raw u).imp fun q ⟨hfields, hvalid⟩ => ?_
    rw [hraw, idDecode_idEncode (by rwa [hpgn18]) (by rwa [hpgn18]), IdFields.mk.injEq] at hfields
    obtain ⟨hp, hg, hda, hsa⟩ := hfields
    refine ⟨hp ▸ hprio3, hg ▸ hpgn18, hda, hsa, ?_⟩
    rw [hvalid, hraw]
    exact idValid_idEncode hreject
  · intro raw s u hraw
    refine (computes_idDecode raw s).imp fun q ⟨hfields, _⟩ => (computes_idEncode _ _ _ _ u).imp fun r hr => ?_
    have hinv := idEncode_idDecode hraw
    rw [← hfields] at hinv
    rw [hr, BitVec.setWidth_setWidth_of_le _ (by decide), BitVec.setWidth_setWidth_of_le _ (by decide), BitVec.setWidth_eq,
      BitVec.setWidth_eq, hinv]

/-- Settles O9: ID_ENCODE reads its operands through their truncations alone. -/
theorem idEncodeTruncatesItsOperands : Obligations.IdEncodeTruncatesItsOperands := by
  refine fun prio pgn da sa s => ⟨_, exec_idEncode prio pgn da sa s, ?_⟩
  have hprio : (BitVec.ofNat 32 (prio.toNat % 8)).setWidth 3 = prio.setWidth 3 := setWidth_ofNat_mod (by decide) prio
  have hpgn : (BitVec.ofNat 32 (pgn.toNat % 2 ^ 18)).setWidth 18 = pgn.setWidth 18 := setWidth_ofNat_mod (by decide) pgn
  rw [exec_idEncode, hprio, hpgn, State.done]

end Sys2Proof.Machine
end

section
/-! PROOFS. The NAME codec (41_name_codec.md): the bits of a NAME after a field is set, from these how fields are read, replaced and packed, and what the NAME commands compute. -/

namespace Sys2Proof.Machine

/-! ### The layout of a NAME -/

namespace NameField

/-- The fields by selector (30_encoding.md R82). -/
def all : List NameField :=
  [.identity, .manufacturer, .ecuInstance, .functionInstance, .function, .deviceClass, .deviceClassInstance, .industryGroup, .aac]

theorem mem_all (f : NameField) : f ∈ all := by cases f <;> decide

theorem nodup_all : all.Nodup := by decide

theorem ofSelector_eq (k : BitVec 4) : ofSelector k = all[k.toNat]? := by revert k; decide

/-- The layout of the statements is that of the model. -/
theorem nameLayout_eq : nameLayout = all.map fun f => (f.lo, f.width) := rfl

theorem width_le (f : NameField) : f.width ≤ 32 := by cases f <;> decide

/-- The bits above a field, the field and the bits below it make up the NAME. -/
theorem widths (f : NameField) : 64 - (f.lo + f.width) + f.width + f.lo = 64 := by cases f <;> rfl

theorem lo_add_width_le (f : NameField) : f.lo + f.width ≤ 64 := by cases f <;> decide

/-- Two fields share no bit. -/
theorem disjoint {f g : NameField} (h : f ≠ g) : f.lo + f.width ≤ g.lo ∨ g.lo + g.width ≤ f.lo := by
  have symm : Std.Symm fun f g : NameField => f.lo + f.width ≤ g.lo ∨ g.lo + g.width ≤ f.lo := ⟨fun _ _ => Or.symm⟩
  have hall : all.Pairwise fun f g => f.lo + f.width ≤ g.lo ∨ g.lo + g.width ≤ f.lo := by decide
  exact hall.forall (mem_all f) (mem_all g) h

/-- No field has the reserved bit. -/
theorem reserved_outside (f : NameField) : f.lo + f.width ≤ 48 ∨ 48 < f.lo := by cases f <;> decide

theorem mask_eq (f : NameField) : f.mask = (BitVec.allOnes f.width).setWidth 64 <<< f.lo := by cases f <;> decide

end NameField

/-! ### Bits -/

section
variable (n : NameWord) (f : NameField) (v : Word)

theorem getLsbD_nameGet (i : Nat) : (nameGet n f).getLsbD i = (decide (i < f.width) && n.getLsbD (f.lo + i)) := by
  have := f.width_le
  simp only [nameGet, BitVec.getLsbD_setWidth, BitVec.getLsbD_extractLsb']
  grind

/-- A set field holds the value's low bits, and every other bit is the NAME's. -/
theorem getLsbD_nameSet (i : Nat) :
    (nameSet n f v).getLsbD i = if f.lo ≤ i ∧ i < f.lo + f.width then v.getLsbD (i - f.lo) else n.getLsbD i := by
  have hfits := f.lo_add_width_le
  simp only [nameSet, NameField.mask_eq, BitVec.getLsbD_or, BitVec.getLsbD_and, BitVec.getLsbD_not, BitVec.getLsbD_shiftLeft,
    BitVec.getLsbD_setWidth, BitVec.getLsbD_allOnes]
  split
  case isTrue hin =>
    have hi : i < 64 := by omega
    have hlo : ¬ i < f.lo := by omega
    have hw : i - f.lo < f.width := by omega
    have hw64 : i - f.lo < 64 := by omega
    simp [hi, hlo, hw, hw64]
  case isFalse hout =>
    rcases Nat.lt_or_ge i f.lo with hlo | hlo
    · simpa [hlo] using BitVec.lt_of_getLsbD
    · have hw : ¬ i - f.lo < f.width := by omega
      simpa [hw] using BitVec.lt_of_getLsbD

theorem nameReserved_nameSet : nameReserved (nameSet n f v) = nameReserved n := by
  rw [nameReserved, getLsbD_nameSet, if_neg (by have := f.reserved_outside; omega), nameReserved]

/-- A set field reads back truncated. -/
theorem nameGet_nameSet_self : nameGet (nameSet n f v) f = (v.setWidth f.width).setWidth 32 := by
  apply BitVec.eq_of_getLsbD_eq
  intro i _
  have := f.width_le
  simp only [getLsbD_nameGet, getLsbD_nameSet, BitVec.getLsbD_setWidth]
  grind

/-- Setting one field leaves every other. -/
theorem nameGet_nameSet_of_ne {f g : NameField} (h : f ≠ g) (n : NameWord) (v : Word) :
    nameGet (nameSet n f v) g = nameGet n g := by
  apply BitVec.eq_of_getLsbD_eq
  intro i _
  have := NameField.disjoint h
  simp only [getLsbD_nameGet, getLsbD_nameSet]
  grind

/-- The truncated value between the kept bits. -/
theorem nameSet_eq_append : nameSet n f v =
    (n.extractLsb' (f.lo + f.width) (64 - (f.lo + f.width)) ++ v.extractLsb' 0 f.width ++ n.extractLsb' 0 f.lo).cast f.widths := by
  apply BitVec.eq_of_getLsbD_eq
  intro i hi
  simp only [getLsbD_nameSet, BitVec.getLsbD_cast, BitVec.getLsbD_append, BitVec.getLsbD_extractLsb']
  rcases Nat.lt_or_ge i f.lo with below | hlo
  · simp [below, Nat.not_le.mpr below]
  rcases Nat.lt_or_ge i (f.lo + f.width) with inside | above
  · have hw : i - f.lo < f.width := by omega
    simp [hlo, inside, hw, Nat.not_lt.mpr hlo]
  · have hw : ¬ i - f.lo < f.width := by omega
    have htop : i - f.lo - f.width < 64 - (f.lo + f.width) := by omega
    have hidx : f.lo + f.width + (i - f.lo - f.width) = i := by omega
    simp [hw, htop, hidx, Nat.not_lt.mpr above, Nat.not_lt.mpr hlo]

/-! ### Fields as numbers -/

theorem nameGet_toNat : (nameGet n f).toNat = bitField n.toNat f.lo f.width := by
  rw [nameGet, BitVec.toNat_setWidth_of_le f.width_le, toNat_extractLsb']

/-- A set field's new number takes the place of its old one. -/
theorem nameSet_toNat_add :
    (nameSet n f v).toNat + bitField n.toNat f.lo f.width * 2 ^ f.lo = n.toNat + v.toNat % 2 ^ f.width * 2 ^ f.lo := by
  have hn := n.isLt
  rw [nameSet_eq_append, BitVec.toNat_cast, toNat_append_eq_add, toNat_append_eq_add]
  simp only [toNat_extractLsb']
  cases f <;> simp only [bitField, NameField.lo, NameField.width] <;> omega

/-- Setting a field that is zero adds the truncated value at the field's place. -/
theorem nameSet_toNat_of_zero {n : NameWord} {f : NameField} (h : nameGet n f = 0#32) (v : Word) :
    (nameSet n f v).toNat = n.toNat + v.toNat % 2 ^ f.width * 2 ^ f.lo := by
  have hadd := nameSet_toNat_add n f v
  rwa [← nameGet_toNat, h, BitVec.toNat_ofNat, Nat.zero_mod, Nat.zero_mul, Nat.add_zero] at hadd

end

/-! ### Packing and unpacking -/

/-- The NAME that NAME_ENCODE sets the fields on: the reserved bit alone. -/
def reservedAlone (r : Bool) : NameWord := if r then 1#64 <<< 48 else 0#64

theorem nameGet_reservedAlone (r : Bool) (f : NameField) : nameGet (reservedAlone r) f = 0#32 := by
  cases r <;> cases f <;> decide

theorem reservedAlone_toNat (r : Bool) : (reservedAlone r).toNat = r.toNat * 2 ^ 48 := by cases r <;> decide

/-- Each field is zero when it is set: those set before it are others. -/
theorem nameEncode_toNat (f : NameFields) : (nameEncode f).toNat =
    f.identity.toNat % 2 ^ 21 + f.manufacturer.toNat % 2 ^ 11 * 2 ^ 21 +
      f.ecuInstance.toNat % 2 ^ 3 * 2 ^ 32 + f.functionInstance.toNat % 2 ^ 5 * 2 ^ 35 +
      f.function.toNat % 2 ^ 8 * 2 ^ 40 + f.reserved.toNat * 2 ^ 48 + f.deviceClass.toNat % 2 ^ 7 * 2 ^ 49 +
      f.deviceClassInstance.toNat % 2 ^ 4 * 2 ^ 56 + f.industryGroup.toNat % 2 ^ 3 * 2 ^ 60 + f.aac.toNat % 2 * 2 ^ 63 := by
  rw [nameEncode, ← reservedAlone]
  repeat rw [nameSet_toNat_of_zero (by
    simp only [ne_eq, reduceCtorEq, not_false_eq_true, nameGet_nameSet_of_ne, nameGet_reservedAlone])]
  rw [reservedAlone_toNat]
  simp only [NameField.lo, NameField.width]
  omega

theorem nameReserved_toNat (n : NameWord) : (nameReserved n).toNat = bitField n.toNat 48 1 :=
  Nat.toNat_testBit n.toNat 48

/-- A NAME has no bit outside its fields and the reserved bit. -/
theorem nameEncode_nameDecode (n : NameWord) : nameEncode (nameDecode n) = n := by
  apply BitVec.eq_of_toNat_eq
  have := n.isLt
  simp only [nameEncode_toNat, nameDecode, nameGet_toNat, nameReserved_toNat, bitField, NameField.lo, NameField.width]
  omega

/-! ### Orders and filters -/

/-- A filter holds where its whole value is the number of its field. -/
theorem filterMatches_iff (n : NameWord) (f : Filter) : filterMatches n f = true ↔
    ∃ l ∈ nameLayout[f.field.toNat]?, f.value.toNat = bitField n.toNat l.1 l.2 := by
  rw [filterMatches, NameField.ofSelector_eq, NameField.nameLayout_eq, List.getElem?_map]
  cases NameField.all[f.field.toNat]? with
  | none => simp
  | some g =>
    simp only [Option.map_some, Option.mem_some_iff, exists_eq_left', beq_iff_eq, ← nameGet_toNat, BitVec.toNat_inj]
    exact eq_comm

theorem nameMatches_iff (n : NameWord) (fs : List Filter) : nameMatches n fs = true ↔
    ∀ f ∈ fs, ∃ l ∈ nameLayout[f.field.toNat]?, f.value.toNat = bitField n.toNat l.1 l.2 := by
  simp only [nameMatches, List.all_eq_true, filterMatches_iff]

/-! ### What the commands compute -/

/-- The getter of a field (30_encoding.md R81). -/
def NameField.getter : NameField → NameWord → Instr
  | .identity => .nameGetIdentity
  | .manufacturer => .nameGetManufacturer
  | .ecuInstance => .nameGetEcuInstance
  | .functionInstance => .nameGetFunctionInstance
  | .function => .nameGetFunction
  | .deviceClass => .nameGetDeviceClass
  | .deviceClassInstance => .nameGetDeviceClassInstance
  | .industryGroup => .nameGetIndustryGroup
  | .aac => .nameGetAac

/-- The setter of a field (30_encoding.md R81). -/
def NameField.setter : NameField → NameWord → Word → Instr
  | .identity => .nameSetIdentity
  | .manufacturer => .nameSetManufacturer
  | .ecuInstance => .nameSetEcuInstance
  | .functionInstance => .nameSetFunctionInstance
  | .function => .nameSetFunction
  | .deviceClass => .nameSetDeviceClass
  | .deviceClassInstance => .nameSetDeviceClassInstance
  | .industryGroup => .nameSetIndustryGroup
  | .aac => .nameSetAac

theorem nameGetters_eq : nameGetters = NameField.all.map NameField.getter := rfl

theorem nameSetters_eq : nameSetters = NameField.all.map NameField.setter := rfl

theorem exec_getter (f : NameField) (n : NameWord) (s : State) : exec (f.getter n) s = getField f n s := by cases f <;> rfl

theorem exec_setter (f : NameField) (n : NameWord) (v : Word) (s : State) : exec (f.setter n v) s = setField f n v s := by
  cases f <;> rfl

theorem computes_getter (f : NameField) (n : NameWord) (s : State) :
    computes (f.getter n) s fun p => p.value.toNat = bitField n.toNat f.lo f.width :=
  computes_of_done (exec_getter f n s) (nameGet_toNat n f)

theorem computes_setter (f : NameField) (n : NameWord) (v : Word) (s : State) :
    computes (f.setter n v) s fun p => p.name = nameSet n f v :=
  computes_of_done (exec_setter f n v s) rfl

theorem computes_nameEncode (f : NameFields) (s : State) : computes (.nameEncode f) s fun p => p.name = nameEncode f :=
  computes_of_done rfl rfl

theorem computes_nameDecode (n : NameWord) (s : State) : computes (.nameDecode n) s fun p => p.fields = nameDecode n :=
  computes_of_done rfl rfl

theorem computes_nameCmp (a b : NameWord) (s : State) : computes (.nameCmp a b) s fun p => p.order = nameOrder a b :=
  computes_of_done rfl rfl

theorem computes_nameMatch {count : Byte} {fs : List Filter} {s : State} (h : ¬ nameMatchIllegal s.cfg count fs = true)
    (n : NameWord) : computes (.nameMatch n count fs) s fun p => p.matched = nameMatches n fs :=
  computes_of_done (if_neg h) rfl

/-! ### The obligations -/

/-- Settles O12: a setter puts the truncated value between the bits above and the bits below its field, of which the lowest field has none below and the highest none above. -/
theorem nameSettersReplaceTheirBits : Obligations.NameSettersReplaceTheirBits := by
  intro n v s
  have hset := fun f => (computes_setter f n v s).imp fun _ h => h.trans (nameSet_eq_append n f v)
  exact ⟨(hset .identity).imp fun _ h => h.trans (BitVec.append_zero_width _ _), hset .manufacturer, hset .ecuInstance,
    hset .functionInstance, hset .function, hset .deviceClass, hset .deviceClassInstance, hset .industryGroup,
    (hset .aac).imp fun _ h => h.trans (congrArg (fun top : BitVec 1 => top ++ n.extractLsb 62 0) (BitVec.zero_width_append _ _))⟩

/-- Settles O13: NAME_ENCODE sets nine fields that are zero, so each adds its own number. -/
theorem nameEncodePacksTheFields : Obligations.NameEncodePacksTheFields :=
  fun f s => (computes_nameEncode f s).imp fun _ h => h ▸ nameEncode_toNat f

/-- Settles O16: a legal NAME_MATCH compares filter by filter, and an illegal one fails the command's check. -/
theorem nameMatchTestsEveryFilter : Obligations.NameMatchTestsEveryFilter := by
  refine fun n count fs s _ =>
    ⟨fun hcount hsel => ?_, fun h => turnedAway_of_illegal (exec_nameMatch_illegal (nameMatchIllegal_iff.mpr h) n)⟩
  have hlegal : ¬ nameMatchIllegal s.cfg count fs = true := by
    rw [nameMatchIllegal_iff]
    rintro (hmax | ⟨f, hf, hres⟩)
    · omega
    · have := hsel f hf; omega
  exact (computes_nameMatch hlegal n).imp fun _ h => h ▸ nameMatches_iff n fs

/-- Settles O17: the fields and the reserved bit are all of a NAME. -/
theorem namesRoundTrip : Obligations.NamesRoundTrip := by
  refine fun n s u => (computes_nameDecode n s).imp fun p hp => (computes_nameEncode p.fields u).imp fun q hq => ?_
  rw [hq, hp, nameEncode_nameDecode]

/-- Settles O18: the selectors name distinct fields, and distinct fields share no bit. -/
theorem nameSettersLeaveOtherFields : Obligations.NameSettersLeaveOtherFields := by
  intro n v s u i j li lj hi hj
  rw [NameField.nameLayout_eq, List.getElem?_map, Option.map_eq_some_iff] at hi hj
  obtain ⟨f, hf, rfl⟩ := hi
  obtain ⟨g, hg, rfl⟩ := hj
  refine ⟨f.setter, by simp [nameSetters_eq, hf], g.getter, by simp [nameGetters_eq, hg],
    (computes_setter f n v s).imp fun p hp =>
      ⟨hp ▸ nameReserved_nameSet n f v, (computes_getter g p.name u).imp fun q hq => ?_⟩⟩
  rw [hp, ← nameGet_toNat] at hq
  constructor
  · intro hne
    have hfg : f ≠ g := by
      rintro rfl
      exact hne (List.getElem?_inj (List.getElem?_eq_some_iff.mp hg).1 NameField.nodup_all |>.mp (hg.trans hf.symm))
    rw [hq, nameGet_nameSet_of_ne hfg, nameGet_toNat]
  · rintro rfl
    obtain rfl : f = g := by simpa [hf] using hg
    rw [hq, nameGet_nameSet_self, BitVec.toNat_setWidth_of_le f.width_le, BitVec.toNat_setWidth]

/-- Settles O11: every getter reads the bits of its field. -/
theorem nameGettersReadTheirBits : Obligations.NameGettersReadTheirBits := fun n s =>
  ⟨computes_getter .identity n s, computes_getter .manufacturer n s, computes_getter .ecuInstance n s,
    computes_getter .functionInstance n s, computes_getter .function n s, computes_getter .deviceClass n s,
    computes_getter .deviceClassInstance n s, computes_getter .industryGroup n s, computes_getter .aac n s⟩

/-- Settles O14: NAME_DECODE reads each field as its getter does. -/
theorem nameDecodeUnpacksTheFields : Obligations.NameDecodeUnpacksTheFields := by
  refine fun n s => (computes_nameDecode n s).imp fun p hp => ?_
  rw [hp]
  exact ⟨nameGet_toNat n .identity, nameGet_toNat n .manufacturer, nameGet_toNat n .ecuInstance,
    nameGet_toNat n .functionInstance, nameGet_toNat n .function, nameReserved_toNat n, nameGet_toNat n .deviceClass,
    nameGet_toNat n .deviceClassInstance, nameGet_toNat n .industryGroup, nameGet_toNat n .aac⟩

/-- Settles O15: one branch of the order for each of the three cases. -/
theorem nameCmpOrdersUnsigned : Obligations.NameCmpOrdersUnsigned := by
  refine fun a b s => (computes_nameCmp a b s).imp fun p hp => ?_
  rw [hp, nameOrder]
  refine ⟨fun less => if_pos less, fun equal => ?_, fun greater => ?_⟩
  · rw [if_neg (by omega), if_pos (BitVec.eq_of_toNat_eq equal)]
  · rw [if_neg (by omega), if_neg (by rintro rfl; omega)]

end Sys2Proof.Machine
end

section
/-! PROOFS. A received frame the engine turns away, and the sender's answers to CTS and EOMA (42_session_engine.md R212 to R225). -/

namespace Sys2Proof.Machine

/-! ### How a received frame's command ends -/

section Ends
variable {i : Instr} {s t : State} {r : Except Fault State} (run : exec i s = finish r)
include run

/-- A command that ends by `finish` completes with the change its work made. -/
theorem completes_of_run {c : Change} (h : r = .ok t) (ht : s.changed t c) : completes i s c fun _ => True :=
  completes_of_finish (run.trans (congrArg finish h)) ht

/-- A frame that is dropped. -/
theorem completes_drop (c : DropCause) (h : r = .ok (s.dropFrame c)) : completes i s { slots := s.slots, drops := 1 } fun _ => True :=
  completes_of_run run h (changed_dropFrame s c)

/-- A command that changes nothing. -/
theorem computes_same (h : r = .ok s) : computes i s fun _ => True := by
  subst h; exact computes_of_done run trivial

/-- A command that writes a slot. -/
theorem completes_setSlot {j : Nat} {x : Option Session} (h : r = .ok (s.setSlot j x)) :
    completes i s { slots := s.slots.set j x } fun _ => True :=
  completes_of_run run h (changed_setSlot s j x)

/-- A command that ends a TP or ETP session and tells the peer. -/
theorem completes_abort {j : Nat} {x : Session} (hx : x.mode ≠ .bam) (c : AbortReason) (h : r = .ok (abortSession j x c true s)) :
    completes i s (s.ending j x (reasonCode s.cfg c) true) fun _ => True :=
  completes_of_run run h (changed_abortSession_notify s j hx c)

end Ends

/-! ### The handler of each control byte -/

section Controls
variable {s : State} {f : Frame} {m : Mode} {da sa : Addr} (hm : m ≠ .bam) (h : Received s f m.cm da sa)
  (hi : s.isInternal f.channel da = true)
include hm h hi

theorem Received.rts (hb : f.byte 0 = if m = .etp then 0x14 else 0x10) :
    Machine.exec (.rxFrame f) s = finish (rxRts f m sa da s) := by
  rw [h.control hm hi (by rintro rfl; simp [hb])]
  cases m <;> simp_all [tpControlKind, etpControlKind, rxControl]

theorem Received.cts (hb : f.byte 0 = if m = .etp then 0x15 else 0x11) :
    Machine.exec (.rxFrame f) s = finish (.ok (rxCts f m sa da s)) := by
  rw [h.control hm hi (by rintro rfl; simp [hb])]
  cases m <;> simp_all [tpControlKind, etpControlKind, rxControl]

theorem Received.eoma (hb : f.byte 0 = if m = .etp then 0x17 else 0x13) :
    Machine.exec (.rxFrame f) s = finish (rxEoma f m sa da s) := by
  rw [h.control hm hi (by rintro rfl; simp [hb])]
  cases m <;> simp_all [tpControlKind, etpControlKind, rxControl]

theorem Received.abort (hb : f.byte 0 = 0xFF) :
    Machine.exec (.rxFrame f) s = finish (.ok (rxAbort f m sa da s)) := by
  rw [h.control hm hi (by simp [hb])]
  cases m <;> simp_all [tpControlKind, etpControlKind, rxControl]

end Controls

theorem Received.dpo {s : State} {f : Frame} {da sa : Addr} (h : Received s f 0xC800 da sa) (hi : s.isInternal f.channel da = true)
    (hb : f.byte 0 = 0x16) : Machine.exec (.rxFrame f) s = finish (.ok (rxDpo f sa da s)) := by
  rw [Received.control (m := .etp) (by decide) h hi (by simp)]
  simp [hb, etpControlKind, rxControl]

/-! ### Short frames and wrong destinations -/

/-- The PGNs of the transport engine (30_encoding.md R90). -/
theorem isTransportPgn_iff {g : Pgn} : isTransportPgn g = true ↔ g ∈ ([0xEC00, 0xEB00, 0xC800, 0xC700] : List Pgn) := by
  simp [isTransportPgn, pgnTpCm, pgnTpDt, pgnEtpCm, pgnEtpDt, or_assoc]

theorem tpControlKind_announce_iff {b : Byte} : tpControlKind b = some .announce ↔ b = 0x20 := by
  revert b; decide

/-- An extended 29-bit transport frame whose length is the number of its data bytes reaches the engine. -/
theorem exec_rxFrame_transport {s : State} {f : Frame} (hc : f.channel.toNat < s.cfg.numChannels) (hl : f.length.toNat ≤ 8)
    (hd : f.length.toNat = f.data.length) (he : f.extended = true) (hr : f.identifier.toNat < 2 ^ 29)
    (hg : isTransportPgn (idDecode f.identifier).pgn = true) : exec (.rxFrame f) s = finish (tseRx f s) := by
  have legal : ¬ frameIllegal s.cfg f = true := by rw [frameIllegal_iff]; omega
  simp [exec, execRxFrame, legal, routeFrame, he, reserved_zero hr, hg]

/-- A global frame is welcome only as an announce or as data. -/
theorem badDestination_global {f : Frame} {g : Pgn} (h1 : ¬(g = 0xEC00 ∧ f.byte 0 = 0x20)) (h2 : g ≠ 0xEB00) :
    badDestination f g 0xFF = true := by
  have announce : (g == pgnTpCm && tpControlKind (f.byte 0) == some .announce) = false := by
    rw [Bool.eq_false_iff]
    simpa [tpControlKind_announce_iff, pgnTpCm] using h1
  have data : (g == pgnTpDt) = false := beq_false_of_ne h2
  simp [badDestination, announce, data, globalAddr]

/-- An announce to one address is not welcome. -/
theorem badDestination_announce {f : Frame} {da : Addr} (hda : da ≠ 0xFF) (hb : f.byte 0 = 0x20) :
    badDestination f 0xEC00 da = true := by
  have hda : (da == globalAddr) = false := beq_false_of_ne hda
  simp [badDestination, hda, pgnTpCm, tpControlKind_announce_iff.mpr hb]

/-- Settles O28: the engine looks at the length first, then at whether the frame is for us, then at its destination. -/
theorem transportFramesAreFiltered : Obligations.TransportFramesAreFiltered := by
  refine ⟨fun s f hc hl hd he hr hg => ?short, fun s f g da sa hf hg => ⟨fun hda hi => ?other, fun hda h1 h2 => ?global, ?announce⟩⟩
  case short =>
    have run := exec_rxFrame_transport hc (by omega) hd he hr (isTransportPgn_iff.mpr hg)
    exact completes_drop run .shortFrame (by rw [tseRx, if_pos hl])
  all_goals have run := hf.exec (isTransportPgn_iff.mpr hg)
  case other =>
    refine computes_same run ?_
    rw [hf.tseRx, if_pos]
    simpa [hi, globalAddr] using hda
  case global =>
    subst hda
    refine completes_drop run .badDestination ?_
    rw [hf.tseRx, if_neg (by simp [globalAddr]), if_pos (badDestination_global h1 h2)]
  case announce =>
    rintro hda hi rfl hb
    refine completes_drop run .badDestination ?_
    rw [hf.tseRx, if_neg (by simp [hi]), if_pos (badDestination_announce hda hb)]

/-! ### CTS -/

section Grant
variable {f : Frame} {i : Nat} {x : Session} {s : State}

theorem grantCts_hold (hn : (f.byte 1).toNat = 0) : grantCts f i x s =
    s.setSlot i (some { x with hold := true, state := .requestedToSend, lastActivity := f.timestamp }) := by
  simp [grantCts, show f.byte 1 = 0#8 from BitVec.eq_of_toNat_eq hn]

theorem grantCts_bad (hn : 0 < (f.byte 1).toNat)
    (hx : (f.ctsNext x.mode).toNat = 0 ∨ x.totalPkts.toNat < (f.ctsNext x.mode).toNat) :
    grantCts f i x s = abortSession i x .anyOther true s := by
  have hn : f.byte 1 ≠ 0 := fun h => by simp [h] at hn
  have hx : f.ctsNext x.mode = 0 ∨ x.totalPkts.toNat < (f.ctsNext x.mode).toNat := hx.imp_left BitVec.eq_of_toNat_eq
  simp only [grantCts, if_neg hn, if_pos hx]

theorem grantCts_grant {nx : Nat} (hnx : (f.ctsNext x.mode).toNat = nx) (hn : 0 < (f.byte 1).toNat) (h1 : 1 ≤ nx)
    (h2 : nx ≤ x.totalPkts.toNat) : grantCts f i x s = s.setSlot i (some { x with
      nextPkt := BitVec.ofNat 32 nx, burstLeft := BitVec.ofNat 8 (min (f.byte 1).toNat (x.totalPkts.toNat - nx + 1))
      hold := false, state := .clearToSendReceived, lastActivity := f.timestamp }) := by
  have hn : f.byte 1 ≠ 0 := fun h => by simp [h] at hn
  have hx : ¬(f.ctsNext x.mode = 0 ∨ x.totalPkts.toNat < (f.ctsNext x.mode).toNat) := by
    rintro (h | h)
    · simp [h] at hnx; omega
    · omega
  have wide : (f.ctsNext x.mode).setWidth 32 = BitVec.ofNat 32 nx := by rw [← hnx, BitVec.ofNat_toNat]
  simp only [grantCts, if_neg hn, if_neg hx, wide]
  rw [hnx]

end Grant

/-- Settles O30: the CTS finds its sender, which waits for one, and the three cases are those of its two numbers. -/
theorem anExpectedCtsGrantsOrHolds : Obligations.AnExpectedCtsGrantsOrHolds := by
  intro s f i x da sa hs hm hr hi hx hg hb hst n nx
  have run : exec (.rxFrame f) s = finish (.ok (grantCts f i x s)) := by
    rw [hr.cts hm hi hb, rxCts, txTarget_ok hs hx rfl hg]
    simp only [List.mem_cons, List.not_mem_nil, or_false] at hst
    rcases hst with h | h | h <;> simp [h]
  have hnx : (f.ctsNext x.mode).toNat = nx := ctsNext_toNat hm f
  refine ⟨fun hn => ?hold, fun hn h1 h2 => ?grant, fun hn h => ?bad⟩
  case hold => exact completes_setSlot run (by rw [grantCts_hold hn])
  case grant => exact completes_setSlot run (by rw [grantCts_grant hnx hn h1 h2])
  case bad => exact completes_abort run hm .anyOther (by rw [grantCts_bad hn (hnx ▸ h)])

/-- Settles O31: what a CTS does to a sender that waits for none, and to no sender at all. -/
theorem anUnexpectedCtsIsDroppedOrEndsTheSession : Obligations.AnUnexpectedCtsIsDroppedOrEndsTheSession := by
  constructor
  · intro s f i x da sa hs hm hr hi hx hg hb
    have run := hr.cts hm hi hb
    rw [rxCts, txTarget_ok hs hx rfl hg] at run
    exact ⟨fun h => completes_abort run hm .ctsWhileSending (by simp [h]), fun h => completes_drop run .unexpectedControl (by simp [h])⟩
  · intro s f m da sa hs hm hr hi hb h
    obtain ⟨cause, hc⟩ := txTarget_error hs h
    have hb : f.byte 0 = (if m = .etp then 0x15 else 0x11) ∨ f.byte 0 = (if m = .etp then 0x17 else 0x13) := by
      split at hb <;> simpa [*] using hb
    rcases hb with hb | hb
    · exact completes_drop (hr.cts hm hi hb) cause (by simp only [rxCts, hc])
    · exact completes_drop (hr.eoma hm hi hb) cause (by simp only [rxEoma, hc])

/-! ### EOMA -/

/-- What the end of a sender changes: the slot is free and the end reported. -/
theorem changed_complete_tx {i : Nat} {x : Session} (s : State) (hd : x.dir = .tx) : ∃ t, complete i x s = .ok t ∧
    s.changed t { slots := s.slots.set i none, events := [.txCompleted x.channel x.mode x.pgn x.src x.dst] } :=
  ⟨_, complete_tx hd, rfl, rfl, rfl, rfl, by simp, by simp, by simp, by simp, by simp⟩

/-- Settles O32: the EOMA finds its sender, and a sender's session always completes. -/
theorem anEomaCompletesTheSender : Obligations.AnEomaCompletesTheSender := by
  intro s f i x da sa hs hm hr hi hx hg hb
  have run := hr.eoma hm hi hb
  rw [rxEoma, txTarget_ok hs hx rfl hg] at run
  obtain ⟨-, -, -, hdir⟩ := Session.hasKey_iff.mp hx.2
  refine ⟨fun h => ?complete, fun h => ?drop⟩
  case complete =>
    obtain ⟨t, ht, hch⟩ := changed_complete_tx (i := i) s hdir
    exact completes_of_run run ((if_pos h).trans ht) hch
  case drop => exact completes_drop run .unexpectedControl (if_neg h)

end Sys2Proof.Machine
end

section
/-! PROOFS. The receiver's side of a TP or ETP session: an RTS rejected or accepted, data, the DPO, and a received abort (42_session_engine.md R214, R228 to R236). -/

namespace Sys2Proof.Machine

/-- A change made after a slot was written is a change of the whole, since the write left everything but that slot. -/
theorem State.changed.of_setSlot {s t : State} {i : Nat} {x y : Option Session} {c : Change} (h : (s.setSlot i x).changed t c)
    (hc : c.slots = (s.slots.set i x).set i y) : s.changed t { c with slots := s.slots.set i y } :=
  ⟨h.cfg, h.inbox, h.registry, by rw [h.slots, hc, List.set_set], h.dropCount, h.nextMsgId, h.driverIn, h.offered, h.events⟩

/-- The CTS of a session just written to its slot is offered. -/
theorem offer_cts_written (now : Millis) (i : Nat) {x : Session} (s : State) (h : x.nextPkt.toNat ≤ x.totalPkts.toNat + 1) :
    ∃ t, offer now i x .cts (s.setSlot i (some x)) = .ok t ∧
      s.changed t { slots := s.slots.set i (some (s.afterCts x now)), offers := [s.owed x .cts] } := by
  obtain ⟨t, ht, hc⟩ := offer_cts now i (s.setSlot i (some x)) h
  exact ⟨t, ht, hc.of_setSlot rfl⟩

/-! ### RTS: the checks (42_session_engine.md R228) -/

section Checks
variable {f : Frame} {m : Mode} (hm : m ≠ .bam)

theorem rtsFrameError_empty (h : (f.rtsLen m).toNat = 0) : rtsFrameError f m = some .anyOther := by
  simp [rtsFrameError, h]

include hm

theorem rtsFrameError_tooLong (h : (if m = .etp then 117440505 else 1785) < (f.rtsLen m).toNat) :
    rtsFrameError f m = some (if m = .etp then .etpTooBig else .tooBig) := by
  have h0 : (f.rtsLen m).toNat ≠ 0 := by omega
  simp only [rtsFrameError, h0, if_false]
  cases m with
  | tp => exact if_pos h
  | bam => exact absurd rfl hm
  | etp => exact if_pos h

/-- Past the checks of the length, a TP packet count that is not the length's. -/
theorem rtsFrameError_count (h1 : 1 ≤ (f.rtsLen m).toNat) (h2 : (f.rtsLen m).toNat ≤ if m = .etp then 117440505 else 1785) :
    rtsFrameError f m = if m = .tp ∧ (f.byte 3).toNat ≠ ((f.rtsLen m).toNat + 6) / 7 then some .anyOther else none := by
  have h0 : (f.rtsLen m).toNat ≠ 0 := by omega
  simp only [rtsFrameError, h0, if_false]
  cases m with
  | tp =>
    have : ¬tpMaxLen < (f.rtsLen .tp).toNat := Nat.not_lt.mpr h2
    by_cases hc : (f.byte 3).toNat = ((f.rtsLen .tp).toNat + 6) / 7 <;> simp [this, packetCount_eq, hc]
  | bam => exact absurd rfl hm
  | etp =>
    have : ¬etpMaxLen < (f.rtsLen .etp).toNat := Nat.not_lt.mpr h2
    simp [this]

end Checks

section Rts
variable {s : State} {f : Frame} {m : Mode} {da sa : Addr}

theorem rxRts_occupied (h : ¬s.keyFree f.channel sa da .rx) :
    rxRts f m sa da s = .ok (sendAbort f.channel m sa da .alreadyInSession f.pgnField s) := by
  rw [← State.findSlot_eq_none, ← ne_eq, ← Option.isSome_iff_ne_none] at h
  simp only [rxRts, h, if_true]

variable (hk : s.keyFree f.channel sa da .rx)
include hk

theorem rxRts_badFrame {r : AbortReason} (he : rtsFrameError f m = some r) :
    rxRts f m sa da s = .ok (sendAbort f.channel m sa da r f.pgnField s) := by
  simp [rxRts, State.findSlot_eq_none.mpr hk, he]

theorem rxRts_noRoom (he : rtsFrameError f m = none) (h : s.full ∨ s.canAllocate (f.rtsLen m).toNat = false) :
    rxRts f m sa da s = .ok (sendAbort f.channel m sa da .alreadyInSession f.pgnField s) := by
  simp only [rxRts, State.findSlot_eq_none.mpr hk, he]
  cases hi : s.freeSlot with
  | none => rfl
  | some i =>
    have := h.resolve_left fun hf => by simp [State.freeSlot_eq_none.mpr hf] at hi
    simp [this]

theorem rxRts_opens {i : Nat} (he : rtsFrameError f m = none) (hi : s.lowestFree i) (ha : s.canAllocate (f.rtsLen m).toNat = true) :
    rxRts f m sa da s = offer f.timestamp i (rtsSession f m sa da s.draws) .cts (s.setSlot i (some (rtsSession f m sa da s.draws))) := by
  simp [rxRts, State.findSlot_eq_none.mpr hk, he, State.freeSlot_eq_some.mpr hi, ha]

end Rts

/-- Settles O33: each check that fails first rejects the RTS by the abort frame of its reason. -/
theorem anRtsIsRejectedByItsFirstFailedCheck : Obligations.AnRtsIsRejectedByItsFirstFailedCheck := by
  intro s f m da sa hm hr hi hb len most rejects
  have run := hr.rts hm hi hb
  have reject (r : AbortReason) (h : rxRts f m sa da s = .ok (sendAbort f.channel m sa da r f.pgnField s)) :
      rejects (reasonCode s.cfg r) := by
    have := changed_sendAbort s f.channel m sa da r f.pgnField
    rw [pgnField_toNat] at this
    exact completes_of_run run h this
  have hlen : len = (f.rtsLen m).toNat := (rtsLen_toNat hm f).symm
  clear_value len
  subst hlen
  refine ⟨fun hk => reject .alreadyInSession (rxRts_occupied hk), fun hk => ⟨fun h => ?empty, fun h => ?long, fun h1 h2 => ⟨?count, ?room⟩⟩⟩
  case empty => exact reject .anyOther (rxRts_badFrame hk (rtsFrameError_empty h))
  case long =>
    have := reject _ (rxRts_badFrame hk (rtsFrameError_tooLong hm h))
    rwa [apply_ite (reasonCode s.cfg)] at this
  case count =>
    intro htp hc
    exact reject .anyOther (rxRts_badFrame hk ((rtsFrameError_count hm h1 h2).trans (if_pos ⟨htp, hc⟩)))
  case room =>
    intro hc h
    exact reject .alreadyInSession (rxRts_noRoom hk ((rtsFrameError_count hm h1 h2).trans (if_neg (by tauto))) h)

/-- Settles O34: past the checks the RTS opens the session it announces and offers its first CTS. -/
theorem anAcceptedRtsOpensAReceiver : Obligations.AnAcceptedRtsOpensAReceiver := by
  intro s f m da sa i hm hr hi hb hk len h1 h2 hc hlow ha x
  have hlen : len = (f.rtsLen m).toNat := (rtsLen_toNat hm f).symm
  clear_value len
  subst hlen
  have he := (rtsFrameError_count hm h1 h2).trans (if_neg (by tauto))
  have hx : rtsSession f m sa da s.draws = x := by
    simp [rtsSession, Session.opened, x, pgnField_eq, packetCount_eq]
  obtain ⟨t, ht, hch⟩ := offer_cts_written f.timestamp i (x := x) s (by simp [x])
  refine completes_of_run (hr.rts hm hi hb) ?_ hch
  rw [rxRts_opens hk he hlow ha, hx, ht]

/-! ### Data -/

section Data
variable {s : State} {f : Frame} {i : Nat} {x : Session}

/-- A data frame out of order. -/
theorem acceptData_of_unexpected (hm : x.mode ≠ .bam) (h : (f.byte 0).toNat ≠ x.expected) :
    acceptData f i x s = .ok (abortSession i x (sequenceError (f.byte 0) (x.sequence x.nextPkt)) true s) := by
  have : (f.byte 0).setWidth 32 ≠ x.sequence x.nextPkt := fun e => h <| by
    have := (f.byte 0).isLt
    rw [← sequence_toNat hm, ← e, BitVec.toNat_setWidth]; omega
  simp only [acceptData, if_neg this]

theorem sequenceError_duplicate {seq : Byte} {expected : BitVec 32} (h1 : 1 ≤ seq.toNat) (h2 : seq.toNat < expected.toNat) :
    sequenceError seq expected = .duplicateSequence := if_pos ⟨h1, h2⟩

theorem sequenceError_bad {seq : Byte} {expected : BitVec 32} (h : seq.toNat = 0 ∨ expected.toNat < seq.toNat) :
    sequenceError seq expected = .badSequence := if_neg (by omega)

end Data

/-- Settles O35: the mode is looked at first, then the grant. -/
theorem dataNeedsASessionAndAGrant : Obligations.DataNeedsASessionAndAGrant := by
  intro s f m da sa hs hm hr hi
  have run := hr.dataFrame hm hi
  refine ⟨fun hk => ?none, fun i x hx => ⟨fun hne => ?mode, fun hxm hg => ?grant⟩⟩
  case none => exact completes_drop run .noSession (by simp only [rxData, State.findSlot_eq_none.mpr hk])
  case mode => exact completes_drop run .protocolMismatch (by simp [rxData, State.findSlot_of_holds hs hx, hne])
  case grant =>
    subst hxm
    have : noGrant x = true := by
      rw [← noGrant_iff] at hg
      simpa using hg
    exact completes_abort run hm .unexpectedDT (by rw [rxData_of_holds hs hx, if_pos this])

/-- Settles O36: a number below the expected one is a duplicate, any other is out of sequence. -/
theorem dataOutOfOrderEndsTheSession : Obligations.DataOutOfOrderEndsTheSession := by
  intro s f i x da sa hs hm hr hi hx hg seq
  have run := hr.dataFrame hm hi
  rw [rxData_of_holds hs hx, noGrant_iff.mpr hg, if_neg (by simp)] at run
  refine ⟨fun h1 h2 => ?duplicate, fun h hne => ?bad⟩
  case duplicate =>
    refine completes_abort run hm .duplicateSequence ?_
    rw [acceptData_of_unexpected hm (Nat.ne_of_lt h2), sequenceError_duplicate h1 (by rwa [sequence_toNat hm])]
  case bad =>
    refine completes_abort run hm .badSequence ?_
    rw [acceptData_of_unexpected hm hne, sequenceError_bad (by rwa [sequence_toNat hm])]

/-- A receiver after a data frame in order: its buffer, and the counters and the time that move (42_session_engine.md R231). -/
def Session.afterData (x : Session) (f : Frame) (buf : Memory) : Session :=
  { x with buf := buf, nextPkt := x.nextPkt + 1, burstLeft := x.burstLeft - 1, state := .receiving, lastActivity := f.timestamp }

/-- The bounds of a receiver with a grant outstanding. -/
theorem Session.Good.granted_bounds {c : Config} {x : Session} (h : x.Good c) (hm : x.mode ≠ .bam) (hd : x.dir = .rx) (hg : x.granted) :
    1 ≤ x.burstLeft.toNat ∧ x.nextPkt.toNat + x.burstLeft.toNat ≤ x.totalPkts.toNat + 1 := by
  obtain ⟨-, hb, -, -⟩ := hg
  refine ⟨?_, h.grant (by simp [Session.holdsGrant, hm, hd])⟩
  by_contra hn
  exact hb (BitVec.eq_of_toNat_eq (by simpa using hn))

/-- A data frame in order: its packet is stored, and the session goes on as R234 and R235 say. -/
theorem exec_data_in_order {s : State} {f : Frame} {i : Nat} {x : Session} {da sa : Addr} (hs : s.wf) (hm : x.mode ≠ .bam)
    (hr : Received s f x.mode.dt da sa) (hi : s.isInternal f.channel da = true) (hx : s.holds i x f.channel sa da .rx) (hg : x.granted)
    (hseq : (f.byte 0).toNat = x.expected) : ∃ buf, x.stores f buf ∧
      exec (.rxFrame f) s = finish (
        if x.nextPkt.toNat = x.totalPkts.toNat then offer f.timestamp i (x.afterData f buf) .eoma (s.setSlot i (some (x.afterData f buf)))
        else if x.burstLeft.toNat = 1 then offer f.timestamp i (x.afterData f buf) .cts (s.setSlot i (some (x.afterData f buf)))
        else .ok (s.setSlot i (some (x.afterData f buf)))) := by
  have good := State.wf_session hs hx.1
  obtain ⟨-, -, -, hdir⟩ := Session.hasKey_iff.mp hx.2
  obtain ⟨h1, h2⟩ := good.granted_bounds hm hdir hg
  have ht := x.totalPkts.isLt
  obtain ⟨buf, hbuf, hst⟩ := good.storePacket_ok hr.data (by omega)
  have all : (x.afterData f buf).allPackets = true ↔ x.nextPkt.toNat = x.totalPkts.toNat := by
    have e : (x.nextPkt + 1).toNat = x.nextPkt.toNat + 1 := by bv_omega
    rw [Session.allPackets_iff]
    show x.totalPkts.toNat < (x.nextPkt + 1).toNat ↔ _
    omega
  have used : (x.afterData f buf).burstLeft = 0 ↔ x.burstLeft.toNat = 1 := by
    simp only [Session.afterData]; bv_omega
  refine ⟨buf, hst, (hr.dataFrame hm hi).trans ?_⟩
  rw [rxData_of_holds hs.2.2.2 hx, noGrant_iff.mpr hg, if_neg (by simp), acceptData_of_expected hm hseq hbuf]
  simp only [← all, ← used]
  rfl

/-- Settles O37: a packet before the last leaves the grant, or asks for the next where the grant is used up. -/
theorem dataInOrderIsStored : Obligations.DataInOrderIsStored := by
  intro s f i x da sa hs hm hr hi hx hg hseq hn
  obtain ⟨buf, hst, run⟩ := exec_data_in_order hs hm hr hi hx hg hseq
  rw [if_neg (by omega)] at run
  refine ⟨buf, hst, fun hb => ?more, fun hb => ?last⟩
  case more => exact completes_setSlot run (if_neg (by omega))
  case last =>
    have ht := x.totalPkts.isLt
    have bound : (x.afterData f buf).nextPkt.toNat ≤ (x.afterData f buf).totalPkts.toNat + 1 := by
      simp only [Session.afterData]; bv_omega
    obtain ⟨t, ht, hch⟩ := offer_cts_written f.timestamp i s bound
    exact completes_of_run run ((if_pos hb).trans ht) hch

/-- Settles O38: the last packet fills the buffer, and the EOMA is offered, with the delivery behind it. -/
theorem theLastPacketIsAcknowledged : Obligations.TheLastPacketIsAcknowledged := by
  intro s f i x da sa hs hm hr hi hx hg hseq hn
  have good := State.wf_session hs hx.1
  obtain ⟨-, -, -, hdir⟩ := Session.hasKey_iff.mp hx.2
  obtain ⟨buf, hst, run⟩ := exec_data_in_order hs hm hr hi hx hg hseq
  obtain ⟨payload, hread, hmsg⟩ := message_of_filled (good.stores_last hdir hr.data hst hn)
  refine ⟨buf, payload, hst, hmsg, fun ha => ?accepted, fun ha => ?refused⟩
  case accepted =>
    obtain ⟨t, ht, hch⟩ := offer_eoma_accepted f.timestamp i (x := x.afterData f buf) (s.setSlot i (some (x.afterData f buf))) ha hdir hread
    exact completes_of_run run ((if_pos hn).trans ht) (hch.of_setSlot rfl)
  case refused =>
    obtain ⟨t, ht, hch⟩ := offer_eoma_refused f.timestamp i (x := x.afterData f buf) (s.setSlot i (some (x.afterData f buf))) ha
    exact completes_of_run run ((if_pos hn).trans ht) (hch.of_setSlot rfl)

/-! ### DPO -/

/-- Settles O39: the checks of the DPO one after another, each case past the ones before it. -/
theorem aDpoOpensTheBurstItAnnounces : Obligations.ADpoOpensTheBurstItAnnounces := by
  intro s f da sa hs hr hi hb
  have run := hr.dpo hi hb
  refine ⟨fun hk => ?none, fun i x hx => ?found⟩
  case none => exact completes_drop run .noSession (by simp only [rxDpo, State.findSlot_eq_none.mpr hk])
  simp only [rxDpo, State.findSlot_of_holds hs hx] at run
  intro dn doff
  have zero : f.byte 1 = 0 ↔ dn = 0 := by rw [← BitVec.toNat_inj]; rfl
  have offset : word24 (f.byte 2) (f.byte 3) (f.byte 4) = BitVec.ofNat 24 doff := by
    simp only [doff, ← word24_toNat, BitVec.ofNat_toNat, BitVec.setWidth_eq]
  have wide : (word24 (f.byte 2) (f.byte 3) (f.byte 4)).setWidth 32 = BitVec.ofNat 32 doff := by
    simp only [doff, ← word24_toNat, BitVec.ofNat_toNat]
  rw [wide, offset] at run
  refine ⟨fun h => ?mismatch, fun hm hg => ⟨fun h => ?turn, fun h1 h2 h3 => ⟨fun h => ?count, fun h4 h5 => ⟨fun h => ?offset, fun h => ?burst⟩⟩⟩⟩
  case mismatch =>
    by_cases hm : x.mode = .etp
    · have := mt pgn_eq_pgnField.mp (h.resolve_left (not_not.mpr hm))
      exact completes_drop run .pgnMismatch (by simp [hm, this])
    · exact completes_drop run .protocolMismatch (by simp [hm])
  all_goals
    have hbam : x.mode ≠ .bam := by simp [hm]
    rw [if_neg (not_not.mpr hm), if_neg (not_not.mpr (pgn_eq_pgnField.mpr hg))] at run
  case turn => exact completes_abort run hbam .unexpectedDPO (by rw [if_pos h])
  all_goals rw [if_neg (by simp [h1, h2, h3])] at run
  case count => exact completes_abort run hbam .dpoCountTooBig (by rw [if_pos (h.imp_left zero.mpr)])
  all_goals rw [if_neg (by rw [zero]; omega)] at run
  case offset => exact completes_abort run hbam .badDpoOffset (congrArg Except.ok (if_pos h))
  case burst => exact completes_setSlot run (congrArg Except.ok (if_neg (not_not.mpr h)))

end Sys2Proof.Machine
end

section
/-! PROOFS. A received Connection Abort, and the receiver's side of a broadcast: the announce and its data (42_session_engine.md R214, R239, R240). -/

namespace Sys2Proof.Machine

/-- One change after another. -/
theorem State.changed.trans {s t u : State} {c d : Change} (h : s.changed t c) (k : t.changed u d) : s.changed u
    { slots := d.slots, drops := c.drops + d.drops, messages := c.messages + d.messages, offers := c.offers ++ d.offers
      events := c.events ++ d.events } where
  cfg := k.cfg.trans h.cfg
  inbox := k.inbox.trans h.inbox
  registry := k.registry.trans h.registry
  slots := k.slots
  dropCount := by rw [k.dropCount, h.dropCount, BitVec.add_assoc, BitVec.ofNat_add]
  nextMsgId := by rw [k.nextMsgId, h.nextMsgId, BitVec.add_assoc, BitVec.ofNat_add]
  driverIn := by rw [k.driverIn, h.driverIn, List.drop_drop, List.length_append]
  offered := by rw [k.offered, h.offered, List.append_assoc]
  events := by rw [k.events, h.events, List.append_assoc]

/-! ### A received abort -/

section Candidates
variable {s : State} (hs : s.keysUnique) {f : Frame} {m : Mode} {src dst : Addr} {dir : Dir}
include hs

/-- A candidate is the session of its key, where that has the frame's mode and PGN. -/
theorem abortCandidate_eq_some {i : Nat} {x : Session} : abortCandidate f m src dst dir s = some (i, x) ↔
    s.holds i x f.channel src dst dir ∧ x.mode = m ∧ x.pgn.toNat = pgnNumber f := by
  constructor
  · intro h
    have hx := abortCandidate_holds h
    rw [abortCandidate, State.findSlot_of_holds hs hx] at h
    simpa [hx, pgn_eq_pgnField] using h
  · rintro ⟨hx, hm, hg⟩
    simp [abortCandidate, State.findSlot_of_holds hs hx, hm, pgn_eq_pgnField.mpr hg]

theorem abortCandidate_eq_none : abortCandidate f m src dst dir s = none ↔
    ¬∃ i x, s.holds i x f.channel src dst dir ∧ x.mode = m ∧ x.pgn.toNat = pgnNumber f := by
  simp only [← abortCandidate_eq_some hs, Option.eq_none_iff_forall_ne_some, Prod.forall, not_exists, ne_eq]

end Candidates

/-- Where a candidate qualifies, the sender ends first and then the receiver. -/
theorem rxAbort_of_some {f : Frame} {m : Mode} {sa da : Addr} {s : State}
    (h : abortCandidate f m da sa .tx s ≠ none ∨ abortCandidate f m sa da .rx s ≠ none) : rxAbort f m sa da s =
      endCandidate f (abortCandidate f m sa da .rx s) (endCandidate f (abortCandidate f m da sa .tx s) s) := by
  simp only [rxAbort]
  split
  · simp_all
  · rfl

/-- What the end of a candidate changes. -/
theorem changed_endCandidate (f : Frame) (i : Nat) (x : Session) (s : State) : s.changed (endCandidate f (some (i, x)) s)
    { slots := s.slots.set i none, events := [.aborted x.channel x.mode x.dir x.pgn x.src x.dst (f.byte 1)] } :=
  changed_abortSession_quiet s i x (.received (f.byte 1))

/-- Settles O40: the candidates are the two sessions the frame names, and each ends by its own abort. -/
theorem aReceivedAbortEndsItsSessions : Obligations.AReceivedAbortEndsItsSessions := by
  intro s f m da sa hs hm hr hi hb names ended
  have run := hr.abort hm hi hb
  have some_iff {i : Nat} {x : Session} {src dst : Addr} {dir : Dir} : names i x src dst dir →
    abortCandidate f m src dst dir s = some (i, x) := (abortCandidate_eq_some hs).mpr
  have none_iff {src dst : Addr} {dir : Dir} : (¬∃ i x, names i x src dst dir) →
    abortCandidate f m src dst dir s = none := (abortCandidate_eq_none hs).mpr
  refine ⟨fun htx hrx => ?none, fun i x htx hrx => ?tx, fun j y hrx htx => ?rx, fun i x j y htx hrx => ?both⟩
  case none => exact completes_drop run .noSession (by rw [rxAbort, none_iff htx, none_iff hrx])
  case tx =>
    refine completes_of_run run (congrArg _ (rxAbort_of_some (.inl (by simp [some_iff htx])))) ?_
    rw [some_iff htx, none_iff hrx]
    exact changed_endCandidate f i x s
  case rx =>
    refine completes_of_run run (congrArg _ (rxAbort_of_some (.inr (by simp [some_iff hrx])))) ?_
    rw [none_iff htx, some_iff hrx]
    exact changed_endCandidate f j y s
  case both =>
    refine completes_of_run run (congrArg _ (rxAbort_of_some (.inl (by simp [some_iff htx])))) ?_
    rw [some_iff htx, some_iff hrx]
    have first := changed_endCandidate f i x s
    have := first.trans (changed_endCandidate f j y _)
    rwa [first.slots] at this

/-! ### A BAM announce -/

/-- The free slots are those of the slot file. -/
theorem State.freeSlot_congr {s t : State} (h : t.slots = s.slots) : t.freeSlot = s.freeSlot := by
  rw [State.freeSlot, State.freeSlot, h]

/-- The allocator reads the configuration and the slot file. -/
theorem State.canAllocate_congr {s t : State} (hc : t.cfg = s.cfg) (h : t.slots = s.slots) (len : Nat) :
    t.canAllocate len = s.canAllocate len := by
  rw [State.canAllocate, State.canAllocate, hc, h]

/-- An abort that tells no peer draws no free value. -/
theorem abortSession_draws_quiet (i : Nat) (x : Session) (r : AbortReason) (s : State) :
    (abortSession i x r false s).draws = s.draws := by
  simp [abortSession]

/-- The end of the peer's old session, where there is one (42_session_engine.md R239). -/
theorem changed_endOldReceiver {s : State} (hs : s.keysUnique) {f : Frame} {sa : Addr} {slots : List (Option Session)} {events : List Event}
    (h : (s.keyFree f.channel sa 0xFF .rx ∧ slots = s.slots ∧ events = []) ∨
      ∃ o x, s.holds o x f.channel sa 0xFF .rx ∧ slots = s.slots.set o none ∧
        events = [.aborted x.channel x.mode x.dir x.pgn x.src x.dst s.cfg.codes.anyOther]) :
    s.changed (endOldReceiver f sa s) { slots := slots, events := events } ∧ (endOldReceiver f sa s).draws = s.draws := by
  rcases h with ⟨hk, rfl, rfl⟩ | ⟨o, x, hx, rfl, rfl⟩
  · rw [endOldReceiver, globalAddr, State.findSlot_eq_none.mpr hk]
    exact ⟨⟨rfl, rfl, rfl, rfl, by simp, by simp, by simp, by simp, by simp⟩, rfl⟩
  · rw [endOldReceiver, globalAddr, State.findSlot_of_holds hs hx]
    exact ⟨changed_abortSession_quiet s o x .anyOther, abortSession_draws_quiet o x .anyOther s⟩

section Announce
variable {s : State} {f : Frame} {sa : Addr}

theorem rxAnnounce_bad (h : (f.rtsLen .bam).toNat = 0 ∨ 1785 < (f.rtsLen .bam).toNat ∨ (f.byte 3).toNat ≠ ((f.rtsLen .bam).toNat + 6) / 7) :
    rxAnnounce f sa s = s.dropFrame .badAnnounce :=
  if_pos (h.imp_left BitVec.eq_of_toNat_eq)

variable (h1 : 1 ≤ (f.rtsLen .bam).toNat) (h2 : (f.rtsLen .bam).toNat ≤ 1785) (h3 : (f.byte 3).toNat = ((f.rtsLen .bam).toNat + 6) / 7)
include h1 h2 h3

/-- The announce passes the check of its length and its packet count. -/
theorem announce_good : ¬(f.rtsLen .bam = 0 ∨ tpMaxLen < (f.rtsLen .bam).toNat ∨ (f.byte 3).toNat ≠ packetCount (f.rtsLen .bam).toNat) := by
  rintro (h | h | h)
  · simp [h] at h1
  · exact absurd h (Nat.not_lt.mpr h2)
  · exact h h3

theorem rxAnnounce_noRoom (h : (endOldReceiver f sa s).full ∨ (endOldReceiver f sa s).canAllocate (f.rtsLen .bam).toNat = false) :
    rxAnnounce f sa s = (endOldReceiver f sa s).dropFrame .noResources := by
  simp only [rxAnnounce, if_neg (announce_good h1 h2 h3)]
  cases hi : (endOldReceiver f sa s).freeSlot with
  | none => rfl
  | some i =>
    have := h.resolve_left fun hf => by simp [State.freeSlot_eq_none.mpr hf] at hi
    simp [this]

theorem rxAnnounce_opens {i : Nat} (hi : (endOldReceiver f sa s).lowestFree i)
    (ha : (endOldReceiver f sa s).canAllocate (f.rtsLen .bam).toNat = true) : rxAnnounce f sa s =
      (endOldReceiver f sa s).setSlot i (some (Session.opened f.channel .bam .rx sa globalAddr f.pgnField (f.rtsLen .bam) 0xFF
          .receiving f.timestamp (endOldReceiver f sa s).draws)) := by
  simp only [rxAnnounce, if_neg (announce_good h1 h2 h3), State.freeSlot_eq_some.mpr hi, ha, if_true]

end Announce

/-- Settles O41: a good announce is a change in two parts, the end of the old session and what the slots then left allow. -/
theorem aBamAnnounceOpensAReceiver : Obligations.ABamAnnounceOpensAReceiver := by
  intro s f sa hs hr hb len
  have run := hr.announce hb
  have hlen : len = (f.rtsLen .bam).toNat := (rtsLen_bam f).symm
  clear_value len
  subst hlen
  refine ⟨fun h => completes_drop run .badAnnounce (congrArg _ (rxAnnounce_bad h)), fun h1 h2 h3 slots events hold => ?_⟩
  intro u
  obtain ⟨old, hdraws⟩ := changed_endOldReceiver hs hold
  have free : u.freeSlot = (endOldReceiver f sa s).freeSlot := State.freeSlot_congr old.slots.symm
  have alloc (n : Nat) : u.canAllocate n = (endOldReceiver f sa s).canAllocate n :=
    State.canAllocate_congr (s := endOldReceiver f sa s) (t := u) old.cfg.symm old.slots.symm n
  refine ⟨fun h => ?noRoom, fun i hi ha => ?opens⟩
  case noRoom =>
    rw [← State.freeSlot_eq_none, free, alloc, State.freeSlot_eq_none] at h
    refine completes_of_run run (congrArg _ (rxAnnounce_noRoom h1 h2 h3 h)) ?_
    simpa [old.slots] using old.trans (changed_dropFrame _ .noResources)
  case opens =>
    rw [← State.freeSlot_eq_some, free, State.freeSlot_eq_some] at hi
    rw [alloc] at ha
    refine completes_of_run run (congrArg _ (rxAnnounce_opens h1 h2 h3 hi ha)) ?_
    simpa [old.slots, Session.opened, hdraws, pgnField_eq, packetCount_eq, h3, globalAddr] using old.trans (changed_setSlot _ i _)

/-! ### Broadcast data -/

/-- What the delivery of a receiver's message changes: the slot is free and the next message id taken. -/
theorem changed_complete_rx {i : Nat} {x : Session} {p : List Byte} (s : State) (hd : x.dir = .rx)
    (hp : x.buf.bytes 0 x.totalLen.toNat = some p) : ∃ t, complete i x s = .ok t ∧
      s.changed t { slots := s.slots.set i none, messages := 1
                    events := [.delivered x.channel x.pgn x.src x.dst x.totalLen p s.nextMsgId] } :=
  ⟨_, complete_rx hd (memRead_whole hp), rfl, rfl, rfl, rfl, by simp, by simp, by simp, by simp, by simp⟩

/-- A BAM receiver after data in order: its buffer, and the next packet and the time (42_session_engine.md R240). -/
def Session.afterBroadcast (x : Session) (f : Frame) (buf : Memory) : Session :=
  { x with buf := buf, nextPkt := x.nextPkt + 1, lastActivity := f.timestamp }

section BamData
variable {s : State} {f : Frame} {sa : Addr} {i : Nat} {x : Session} (hs : s.wf) (hx : s.holds i x f.channel sa 0xFF .rx)
include hs hx

/-- Data in order is stored, and the last packet completes the session. -/
theorem rxBamData_in_order (hf : f.data.length = 8) (hseq : (f.byte 0).toNat = x.nextPkt.toNat) : ∃ buf, x.stores f buf ∧
    rxBamData f sa s =
      if x.nextPkt.toNat = x.totalPkts.toNat then complete i (x.afterBroadcast f buf) (s.setSlot i (some (x.afterBroadcast f buf)))
      else .ok (s.setSlot i (some (x.afterBroadcast f buf))) := by
  have good := State.wf_session hs hx.1
  obtain ⟨-, -, hdst, -⟩ := Session.hasKey_iff.mp hx.2
  have hn := good.bam (good.global.mpr hdst)
  have ht := x.totalPkts.isLt
  obtain ⟨buf, hbuf, hst⟩ := good.storePacket_ok hf hn
  have all : (x.afterBroadcast f buf).allPackets = true ↔ x.nextPkt.toNat = x.totalPkts.toNat := by
    have e : (x.nextPkt + 1).toNat = x.nextPkt.toNat + 1 := by bv_omega
    rw [Session.allPackets_iff]
    show x.totalPkts.toNat < (x.nextPkt + 1).toNat ↔ _
    omega
  have expected : (f.byte 0).setWidth 32 = x.nextPkt := by
    apply BitVec.eq_of_toNat_eq
    rw [BitVec.toNat_setWidth, ← hseq, Nat.mod_eq_of_lt (by have := (f.byte 0).isLt; omega)]
  refine ⟨buf, hst, ?_⟩
  simp only [rxBamData, globalAddr, State.findSlot_of_holds hs.2.2.2 hx, expected, if_true, hbuf, ← all]
  rfl

/-- Data out of order ends the session. -/
theorem rxBamData_out_of_order (hseq : (f.byte 0).toNat ≠ x.nextPkt.toNat) :
    rxBamData f sa s = .ok (abortSession i x (sequenceError (f.byte 0) x.nextPkt) false s) := by
  have unexpected : (f.byte 0).setWidth 32 ≠ x.nextPkt := fun e => hseq <| by
    rw [← e, BitVec.toNat_setWidth, Nat.mod_eq_of_lt (by have := (f.byte 0).isLt; omega)]
  simp only [rxBamData, globalAddr, State.findSlot_of_holds hs.2.2.2 hx, if_neg unexpected]

end BamData

/-- Settles O42: in order the packet is stored and the last one delivers, out of order the session ends with no frame. -/
theorem bamDataIsStoredInOrder : Obligations.BamDataIsStoredInOrder := by
  intro s f sa hs hr
  have run := hr.bamData
  refine ⟨fun hk => ?none, fun i x hx => ⟨fun hseq => ?stored, fun h1 h2 => ?duplicate, fun h hne => ?bad⟩⟩
  case none => exact completes_drop run .noSession (by simp only [rxBamData, globalAddr, State.findSlot_eq_none.mpr hk])
  case stored =>
    have good := State.wf_session hs hx.1
    obtain ⟨-, -, hdst, hdir⟩ := Session.hasKey_iff.mp hx.2
    obtain ⟨buf, hst, hdata⟩ := rxBamData_in_order hs hx hr.data hseq
    refine ⟨buf, hst, fun hn => ?more, fun hn => ?last⟩
    case more => exact completes_setSlot run (hdata.trans (if_neg (by omega)))
    case last =>
      obtain ⟨payload, hread, hmsg⟩ := message_of_filled (good.stores_last hdir hr.data hst hn)
      obtain ⟨t, ht, hch⟩ := changed_complete_rx (i := i) (x := x.afterBroadcast f buf) (s.setSlot i (some (x.afterBroadcast f buf))) hdir hread
      refine ⟨payload, hmsg, completes_of_run run (hdata.trans ((if_pos hn).trans ht)) ?_⟩
      rw [← hdst]
      exact hch.of_setSlot rfl
  case duplicate =>
    refine completes_of_run run (rxBamData_out_of_order hs hx (Nat.ne_of_lt h2)) ?_
    rw [sequenceError_duplicate h1 h2]
    exact changed_abortSession_quiet s i x .duplicateSequence
  case bad =>
    refine completes_of_run run (rxBamData_out_of_order hs hx hne) ?_
    rw [sequenceError_bad h]
    exact changed_abortSession_quiet s i x .badSequence

end Sys2Proof.Machine
end

section
/-! PROOFS. A session opened by TX_SEND, and a session ended by SESSION_ABORT (42_session_engine.md R215, R237, R242; 43_block_commands.md R304 to R306, R314). -/

namespace Sys2Proof.Machine

/-! ### The first frame of a sender -/

theorem onSent_rts {i : Nat} {x : Session} {s : State} (hx : x.hold = false) :
    onSent i x .rts s = .ok (s.setSlot i (some { x with state := .requestedToSend })) := by
  cases x; subst hx; rfl

theorem onSent_announce {i : Nat} {x : Session} {s : State} :
    onSent i x .announce s = .ok (s.setSlot i (some { x with state := .announced })) := rfl

/-- A sender whose first frame is offered: accepted, the session is in state `st`; refused, it owes the frame. -/
def Session.afterFirst (x : Session) (k : Control) (st : SessionState) (accepted : Bool) : Session :=
  { x with state := if accepted then st else x.state, pending := if accepted then none else some k }

/-- The control frame `k` of a session sent (42_session_engine.md R206). -/
def State.sendControl (s : State) (x : Session) (k : Control) : State := s.send x.channel (build s.cfg x k).1 (build s.cfg x k).2

/-- The answers to the offers that follow a control frame. -/
theorem State.sendControl_answer (s : State) (x : Session) (k : Control) (n : Nat) : (s.sendControl x k).answer n = s.answer (n + 1) :=
  s.send_answer ..

/-- The frames that follow a control frame. -/
theorem State.sendControl_frame (s : State) (x : Session) (k : Control) (n : Nat) (ch : Channel) (g : Pgn) (receiver sender : Addr)
    (d : List Byte) : (s.sendControl x k).frame n ch g receiver sender d = s.frame (n + 1) ch g receiver sender d := s.send_frame ..

/-- What a control frame offered and a slot then written change. -/
theorem changed_sendControl {s : State} {i : Nat} {x : Session} {k : Control} (hc : k = .cts → x.nextPkt.toNat ≤ x.totalPkts.toNat + 1)
    (hd : k = .dpo → 1 ≤ x.nextPkt.toNat) (y : Option Session) :
    s.changed ((s.sendControl x k).setSlot i y) { slots := s.slots.set i y, offers := [s.owed x k] } :=
  ⟨rfl, rfl, rfl, rfl, by simp [State.sendControl], by simp [State.sendControl], by simp [State.sendControl],
    by simp [State.sendControl, build_eq_owed hc hd], by simp [State.sendControl]⟩

/-- The first frame of a session just written to its slot is offered. -/
theorem offer_first {now : Millis} {i : Nat} {x : Session} {k : Control} {st : SessionState} (s : State) (hk : k = .rts ∨ k = .announce)
    (hst : ∀ (y : Session) (u : State), y.hold = x.hold → onSent i y k u = .ok (u.setSlot i (some { y with state := st })))
    (hnow : x.lastActivity = now) : ∃ t, offer now i x k (s.setSlot i (some x)) = .ok t ∧
      s.changed t { slots := s.slots.set i (some (x.afterFirst k st s.driverAccepts)), offers := [s.owed x k] } := by
  have sent (y : Session) := changed_sendControl (s := s.setSlot i (some x)) (i := i) (x := x) (k := k)
    (by rcases hk with rfl | rfl <;> simp) (by rcases hk with rfl | rfl <;> simp) (some y)
  cases ha : s.driverAccepts with
  | false => exact ⟨_, offer_refused ha, (sent _).of_setSlot rfl⟩
  | true =>
    subst hnow
    have accepted := (offer_accepted (now := x.lastActivity) (i := i) (x := x) (k := k) (s := s.setSlot i (some x)) ha).trans (hst _ _ rfl)
    exact ⟨_, accepted, (sent _).of_setSlot rfl⟩

/-! ### TX_SEND -/

/-- The buffer of a sender holds the payload and nothing else. -/
theorem Memory.byte_setBytes_nil (bs : List Byte) (j : Nat) : (Memory.setBytes [] 0 bs).byte j = bs[j]? := by
  by_cases hj : j < bs.length
  · simpa [hj] using byte_setBytes_of_inside bs [] 0 hj
  · rw [byte_setBytes_of_outside bs [] 0 (.inr (by omega)), List.getElem?_eq_none (by omega), byte_nil]

/-- The session TX_SEND opens, its payload in its buffer (42_session_engine.md R215, R237). -/
def sendSession (q : SendRequest) (m : Mode) (dst : Addr) (draw : Nat) : Session :=
  { Session.opened q.channel m .tx q.src dst (q.pgn.setWidth 18) q.len 0xFF .idle q.now draw with buf := Memory.setBytes [] 0 q.payload }

section Send
variable {s : State} {q : SendRequest} {i : Nat} {m : Mode} {dst : Addr} {k : Control} {st : SessionState}

/-- A message with a slot and a buffer to be had opens its session. -/
theorem openTx_opens (hp : q.payload.length = q.len.toNat) (hi : s.lowestFree i) (ha : s.canAllocate q.len.toNat = true)
    (hk : k = .rts ∧ st = .requestedToSend ∨ k = .announce ∧ st = .announced) : ∃ t, openTx q m dst k s = .ok (true, t) ∧
      s.changed t { slots := s.slots.set i (some ((sendSession q m dst s.draws).afterFirst k st s.driverAccepts))
                    offers := [s.owed (sendSession q m dst s.draws) k] } := by
  have written : memWrite (Session.opened q.channel m .tx q.src dst (q.pgn.setWidth 18) q.len 0xFF .idle q.now s.draws) 0 q.payload =
      .ok (sendSession q m dst s.draws) := memWrite_eq_ok.mpr ⟨by simp [Session.opened, hp], rfl⟩
  obtain ⟨t, ht, hch⟩ := offer_first (now := q.now) (i := i) (x := sendSession q m dst s.draws) (k := k) (st := st) s
    (by tauto)
    (fun y u hy => by
      rcases hk with ⟨rfl, rfl⟩ | ⟨rfl, rfl⟩
      · exact onSent_rts hy
      · exact onSent_announce) rfl
  refine ⟨t, ?_, hch⟩
  simp only [openTx, State.freeSlot_eq_some.mpr hi, ha, if_true, openSession, written, ht]

/-- TX_SEND on a channel of the block answers what its body did. -/
theorem completes_txSend {t : State} {b : Bool} {c : Change} (hc : q.channel.toNat < s.cfg.numChannels)
    (h : sendMessage q s = .ok (b, t)) (ht : s.changed t c) : completes (.txSend q) s c fun p => p.accepted = b := by
  have legal : ¬channelIllegal s.cfg q.channel = true := by rw [channelIllegal_iff]; omega
  refine ⟨t.reply fun p => { p with accepted := b, status := .ok }, ?_, ⟨ht.cfg, ht.inbox, ht.registry, ht.slots, ht.dropCount,
    ht.nextMsgId, ht.driverIn, ht.offered, ht.events⟩, rfl, rfl⟩
  simp only [exec, execTxSend, if_neg legal, h]
  rfl

theorem sendAllowed_iff : sendAllowed s q.channel q.src q.dst = true ↔
    s.isInternal q.channel q.src = true ∧ (q.dst = 0xFF ∨ s.reachable q.channel q.dst = true) := by
  simp [sendAllowed, globalAddr]

/-- A long message to a peer goes by TP up to 1785 bytes, by ETP beyond. -/
theorem sendMessage_peer (hi : s.isInternal q.channel q.src = true) (hd : q.dst ≠ 0xFF) (hr : s.reachable q.channel q.dst = true)
    (h1 : 9 ≤ q.len.toNat) (h2 : q.len.toNat ≤ 117440505) (hk : s.keyFree q.channel q.src q.dst .tx) :
    sendMessage q s = openTx q (if q.len.toNat ≤ 1785 then .tp else .etp) q.dst .rts s := by
  have absent : (q.dst == globalAddr) = false := beq_false_of_ne hd
  have long : ¬q.len.toNat ≤ sfMaxLen := by simp only [sfMaxLen]; omega
  have legal : q.len.toNat ≤ etpMaxLen := h2
  by_cases htp : q.len.toNat ≤ tpMaxLen
  · simp [sendMessage, sendAllowed_iff.mpr ⟨hi, .inr hr⟩, selectMode, absent, long, htp, openPeer, State.findSlot_eq_none.mpr hk,
      show q.len.toNat ≤ 1785 from htp]
  · simp [sendMessage, sendAllowed_iff.mpr ⟨hi, .inr hr⟩, selectMode, absent, long, htp, legal, openPeer, State.findSlot_eq_none.mpr hk,
      show ¬q.len.toNat ≤ 1785 from htp]

/-- A long message with no destination goes by BAM, where no other does on the channel. -/
theorem sendMessage_broadcast (hi : s.isInternal q.channel q.src = true) (hd : q.dst = 0xFF) (h1 : 9 ≤ q.len.toNat)
    (h2 : q.len.toNat ≤ 1785) (hb : s.bamTxActive q.channel = false) : sendMessage q s = openTx q .bam globalAddr .announce s := by
  have absent : (q.dst == globalAddr) = true := by rw [hd]; rfl
  have long : ¬q.len.toNat ≤ sfMaxLen := by simp only [sfMaxLen]; omega
  have htp : q.len.toNat ≤ tpMaxLen := h2
  simp [sendMessage, sendAllowed_iff.mpr ⟨hi, .inl hd⟩, selectMode, absent, long, htp, openBam, hb]

end Send

/-- Settles O24: the message selects TP or ETP, opens its session in the lowest free slot, and its RTS is the frame the session owes. -/
theorem longMessagesOpenAPeerSession : Obligations.LongMessagesOpenAPeerSession := by
  intro s q i hp hc hi hd hr h1 h2 hk hlow ha
  refine ⟨Memory.setBytes [] 0 q.payload, Memory.setBytes_wf _ rfl 0, Memory.byte_setBytes_nil q.payload, ?_⟩
  obtain ⟨t, ht, hch⟩ := openTx_opens (m := if q.len.toNat ≤ 1785 then .tp else .etp) (dst := q.dst) hp hlow ha (.inl ⟨rfl, rfl⟩)
  refine completes_txSend hc ((sendMessage_peer hi hd hr h1 h2 hk).trans ht) ?_
  have count : (q.len.toNat + 6) / 7 % 16777216 = (q.len.toNat + 6) / 7 := Nat.mod_eq_of_lt (by omega)
  by_cases htp : q.len.toNat ≤ 1785 <;>
    simpa [htp, count, sendSession, Session.afterFirst, Session.opened, State.owed, Mode.cm, packetCount_eq] using hch

/-- Settles O25: the message selects BAM, opens its session in the lowest free slot, and its announce is the frame the session owes. -/
theorem broadcastsOpenABamSession : Obligations.BroadcastsOpenABamSession := by
  intro s q i hp hc hi hd h1 h2 hbam hlow ha
  refine ⟨Memory.setBytes [] 0 q.payload, Memory.setBytes_wf _ rfl 0, Memory.byte_setBytes_nil q.payload, ?_⟩
  have idle : s.bamTxActive q.channel = false := by
    rw [Bool.eq_false_iff, ne_eq, State.bamTxActive_iff]
    rintro ⟨j, x, hx, hch, hm, hdir⟩
    exact hbam j x hx hch hm hdir
  obtain ⟨t, ht, hch⟩ := openTx_opens (m := .bam) (dst := globalAddr) hp hlow ha (.inr ⟨rfl, rfl⟩)
  refine completes_txSend hc ((sendMessage_broadcast hi hd h1 h2 idle).trans ht) ?_
  have count : (q.len.toNat + 6) / 7 % 16777216 = (q.len.toNat + 6) / 7 := Nat.mod_eq_of_lt (by omega)
  simpa [count, sendSession, Session.afterFirst, Session.opened, State.owed, packetCount_eq, globalAddr] using hch

/-! ### SESSION_ABORT -/

/-- Once the session of a key has ended, the key is free. -/
theorem abortSession_keyFree {s : State} (hs : s.keysUnique) {i : Nat} {x : Session} {ch : Channel} {src dst : Addr} {dir : Dir}
    (hx : s.holds i x ch src dst dir) (r : AbortReason) (n : Bool) : (abortSession i x r n s).keyFree ch src dst dir := by
  intro j y hy
  by_cases hj : j = i
  · subst hj; simp [abortSession_slot] at hy
  · rw [(abortSession_serves i r n hx.1).others j hj] at hy
    refine Bool.eq_false_iff.mpr fun hk => hj ?_
    have := (State.findSlot_of_holds hs ⟨hy, hk⟩).symm.trans (State.findSlot_of_holds hs hx)
    simp_all

section AppAbort
variable {s : State} {ch : Channel} {src dst : Addr} {dir : Dir} (hc : ch.toNat < s.cfg.numChannels) (now : Millis)
include hc

/-- SESSION_ABORT on a channel of the block answers what its body did. -/
theorem exec_sessionAbort : exec (.sessionAbort now ch src dst dir) s =
    (appAbort ch src dst dir s).2.done fun p => { p with found := (appAbort ch src dst dir s).1 } := by
  have legal : ¬channelIllegal s.cfg ch = true := by rw [channelIllegal_iff]; omega
  simp only [exec, execSessionAbort, if_neg legal]

/-- Of a key with no session SESSION_ABORT finds nothing. -/
theorem sessionAbort_of_keyFree (hk : s.keyFree ch src dst dir) :
    computes (.sessionAbort now ch src dst dir) s fun p => p.found = false := by
  have : appAbort ch src dst dir s = (false, s) := by simp only [appAbort, State.findSlot_eq_none.mpr hk]
  exact computes_of_done ((exec_sessionAbort hc now).trans (by rw [this])) rfl

/-- After SESSION_ABORT its key is free. -/
theorem sessionAbort_keyFree (hs : s.keysUnique) {t : State} (h : exec (.sessionAbort now ch src dst dir) s = .next t) :
    t.keyFree ch src dst dir ∧ t.cfg = s.cfg := by
  rw [exec_sessionAbort hc now] at h
  cases h
  cases hf : s.findSlot ch src dst dir with
  | none =>
    simp only [appAbort, hf]
    exact ⟨State.findSlot_eq_none.mp hf, rfl⟩
  | some r =>
    simp only [appAbort, hf]
    exact ⟨abortSession_keyFree hs (State.findSlot_eq_some hf) _ _, abortSession_cfg ..⟩

end AppAbort

/-- Settles O50: the session found ends, none found changes nothing, and after either the key is free. -/
theorem sessionAbortIsIdempotent : Obligations.SessionAbortIsIdempotent := by
  intro s now ch src dst dir hs hc
  refine ⟨fun i x hx => ?found, sessionAbort_of_keyFree hc now, fun t later h => ?again⟩
  case found =>
    have hch := changed_abortSession s i x .appAbort (x.mode != .bam)
    rw [Bool.and_self] at hch
    refine ⟨_, exec_sessionAbort hc now, ?_⟩
    simp only [appAbort, State.findSlot_of_holds hs hx]
    exact ⟨⟨hch.cfg, hch.inbox, hch.registry, hch.slots, hch.dropCount, hch.nextMsgId, hch.driverIn, hch.offered, hch.events⟩, rfl, rfl⟩
  case again =>
    obtain ⟨free, hcfg⟩ := sessionAbort_keyFree hc now hs h
    exact sessionAbort_of_keyFree (hcfg ▸ hc) later free

end Sys2Proof.Machine
end

section
/-! PROOFS. The timeouts of UPDATE: one slot alone, and the slots one after another (42_session_engine.md R207 to R210, R241). -/

namespace Sys2Proof.Machine

/-! ### The service of a session that waits -/

/-- A session has timed out where it waits beyond its limit (42_session_engine.md R210). -/
theorem timedOut_iff {c : Config} {x : Session} {now : Millis} :
    x.timedOut c now = true ↔ ∃ limit, x.waits c limit ∧ limit.toNat < (now - x.lastActivity).toNat := by
  simp only [← limit_iff, Session.timedOut, Session.elapsed]
  cases x.limit c with
  | none => simp
  | some l =>
    simp only [Option.some.injEq, exists_eq_left']
    exact decide_eq_true_iff

section Waits
variable {s : State} {i : Nat} {x : Session} {now limit : Millis}

/-- The limit of a session is one. -/
theorem Session.waits.unique {c : Config} {l : Millis} (h : x.waits c limit) (k : x.waits c l) : l = limit := by
  have := (limit_iff.mpr h).symm.trans (limit_iff.mpr k)
  exact (Option.some.inj this).symm

/-- A session that waits has no work to do. -/
theorem serviceWork_of_waits (h : x.waits s.cfg limit) : serviceWork now i x s = .ok s := by
  obtain ⟨-, ⟨-, -, hst, -⟩ | ⟨-, -, hst, -⟩ | ⟨-, -, hst, -⟩ | ⟨-, -, hst, -⟩ | ⟨-, hst, -⟩⟩ := h <;>
    simp [serviceWork, hst]

theorem serviceSlot_of_within (h : x.waits s.cfg limit) (hle : (now - x.lastActivity).toNat ≤ limit.toNat) :
    serviceSlot now i x s = .ok s := by
  have fresh : ¬x.timedOut s.cfg now = true := by
    rw [timedOut_iff]
    rintro ⟨l, hl, hlt⟩
    rw [h.unique hl] at hlt; omega
  simp only [serviceSlot, h.1, if_neg fresh, serviceWork_of_waits h]

theorem serviceSlot_of_timedOut (h : x.timedOut s.cfg now = true) :
    serviceSlot now i x s = .ok (abortSession i x .timeout (x.mode != .bam) s) := by
  obtain ⟨l, hl, -⟩ := timedOut_iff.mp h
  simp only [serviceSlot, hl.1, if_pos h]

end Waits

/-- Settles O44: UPDATE is the service of the one live slot, and there the timeout comes first. -/
theorem aTimeoutTellsThePeer : Obligations.ATimeoutTellsThePeer := by
  refine ⟨fun s now i x limit hx hw => ⟨fun hle => ?within, fun hlt => ?beyond⟩, fun s now h => ?none⟩
  case within => exact computes_same (exec_update_only hx) (serviceSlot_of_within hw hle)
  case beyond =>
    have hch := changed_abortSession s i x .timeout (x.mode != .bam)
    rw [Bool.and_self] at hch
    exact completes_of_run (exec_update_only hx) (serviceSlot_of_timedOut (timedOut_iff.mpr ⟨limit, hw, hlt⟩)) hch
  case none => exact computes_same (i := .update now) (r := serviceSlots now (liveSlots s) s) rfl (by rw [liveSlots_none h]; rfl)

/-! ### Which events are aborts -/

/-- An Aborted event. -/
def Event.isAborted : Event → Bool
  | .aborted .. => true
  | .delivered .. | .txCompleted .. | .passthrough .. => false

/-- The Aborted events so far. -/
def State.aborts (s : State) : List Event := s.events.filter Event.isAborted

section Aborts
variable {now : Millis} {i : Nat} {x : Session} {s t : State}

@[simp] theorem State.setSlot_aborts (y : Option Session) : (s.setSlot i y).aborts = s.aborts := rfl

@[simp] theorem State.send_aborts (ch : Channel) (id : Word) (d : List Byte) : (s.send ch id d).aborts = s.aborts := rfl

theorem complete_aborts (h : complete i x s = .ok t) : t.aborts = s.aborts := by
  rcases complete_eq_ok h with ⟨-, p, -, rfl⟩ | ⟨-, rfl⟩ <;> simp [State.aborts, Event.isAborted]

theorem offer_aborts {k : Control} (h : offer now i x k s = .ok t) : t.aborts = s.aborts := by
  cases ha : s.driverAccepts with
  | false => rw [offer_refused ha] at h; cases h; simp
  | true =>
    rw [offer_accepted ha] at h
    cases k with
    | eoma => exact (complete_aborts h).trans rfl
    | rts | cts | dpo | announce => cases h; simp

theorem txBurstLoop_aborts : ∀ {n : Nat} {x : Session} {s : State}, txBurstLoop now i n x s = .ok t → t.aborts = s.aborts := by
  intro n
  induction n with
  | zero =>
    intro x s h
    cases h
    rw [burstDone]; split <;> rfl
  | succ n ih =>
    intro x s h
    simp only [txBurstLoop] at h
    split at h
    · cases h
    · split at h
      · exact (ih h).trans rfl
      · cases h; rfl

theorem bamPace_aborts (h : bamPace now i x s = .ok t) : t.aborts = s.aborts := by
  simp only [bamPace] at h
  split at h
  · split at h
    · cases h
    · split at h
      · split at h
        · exact (complete_aborts h).trans rfl
        · cases h; rfl
      · cases h; rfl
  · cases h; rfl

theorem serviceWork_aborts (h : serviceWork now i x s = .ok t) : t.aborts = s.aborts := by
  simp only [serviceWork] at h
  split at h
  · exact (txBurstLoop_aborts h).trans rfl
  · split at h
    · cases h
    · rename_i u hu
      rw [← offer_aborts hu]
      split at h
      · split at h
        · exact txBurstLoop_aborts h
        · cases h; rfl
      · cases h; rfl
  · exact txBurstLoop_aborts h
  · exact txBurstLoop_aborts h
  · exact bamPace_aborts h
  · exact bamPace_aborts h
  · cases h; rfl

/-- The event of a session that times out (42_session_engine.md R204, R207). -/
def Session.timeoutEvent (c : Config) (x : Session) : Event := .aborted x.channel x.mode x.dir x.pgn x.src x.dst c.codes.timeout

/-- The service of a slot aborts its session exactly where that has timed out. -/
theorem serviceSlot_aborts (h : serviceSlot now i x s = .ok t) :
    t.aborts = s.aborts ++ if x.timedOut s.cfg now then [x.timeoutEvent s.cfg] else [] := by
  by_cases hto : x.timedOut s.cfg now = true
  · rw [serviceSlot_of_timedOut hto] at h
    cases h
    simp [State.aborts, Event.isAborted, hto, Session.timeoutEvent, reasonCode]
  · simp only [hto, Bool.false_eq_true, if_false, List.append_nil]
    simp only [serviceSlot, hto, Bool.false_eq_true, if_false] at h
    split at h
    · exact serviceWork_aborts h
    · split at h
      · cases h
      · rename_i u hu
        rw [← offer_aborts hu]
        split at h
        · split at h
          · exact serviceWork_aborts h
          · cases h; rfl
        · cases h; rfl

end Aborts

/-! ### The slots one after another -/

section Slots
variable {now : Millis} {i : Nat} {x : Session} {t : State}

/-- A slot that is not served is left as it is. -/
theorem serviceSlots_slot_of_not_mem : ∀ {l : List Nat} {s : State}, serviceSlots now l s = .ok t → i ∉ l → t.slot i = s.slot i := by
  intro l
  induction l with
  | nil => intro s h _; cases h; rfl
  | cons j l ih =>
    intro s h hi
    simp only [List.mem_cons, not_or] at hi
    obtain ⟨hij, hil⟩ := hi
    simp only [serviceSlots] at h
    split at h
    · exact ih h hil
    · rename_i y hy
      split at h
      · cases h
      · rename_i u hu
        rw [ih h hil, (serviceSlot_serves hy hu).others i hij]

/-- A slot that is served holds its session until its turn, and after it what its service left. -/
theorem serviceSlots_slot_of_mem : ∀ {l : List Nat} {s : State}, serviceSlots now l s = .ok t → l.Nodup → i ∈ l → s.slot i = some x →
    ∃ u v, u.cfg = s.cfg ∧ u.slot i = some x ∧ serviceSlot now i x u = .ok v ∧ t.slot i = v.slot i := by
  intro l
  induction l with
  | nil => intro s _ _ hi; cases hi
  | cons j l ih =>
    intro s h hl hi hx
    obtain ⟨hjl, hl⟩ := List.nodup_cons.mp hl
    by_cases hij : i = j
    · subst hij
      simp only [serviceSlots, hx] at h
      split at h
      · cases h
      · rename_i v hv
        exact ⟨s, v, rfl, hx, hv, serviceSlots_slot_of_not_mem h hjl⟩
    · have hi := (List.mem_cons.mp hi).resolve_left hij
      simp only [serviceSlots] at h
      split at h
      · exact ih h hl hi hx
      · rename_i y hy
        split at h
        · cases h
        · rename_i w hw
          have serves := serviceSlot_serves hy hw
          obtain ⟨u, v, hc, hu, hv, ht⟩ := ih h hl hi ((serves.others i hij).trans hx)
          exact ⟨u, v, hc.trans serves.cfg, hu, hv, ht⟩

/-- The events of the sessions that have timed out, of some slots in their order. -/
def State.timeouts (s : State) (now : Millis) (l : List Nat) : List Event :=
  ((l.filterMap s.slot).filter (·.timedOut s.cfg now)).map (·.timeoutEvent s.cfg)

theorem State.timeouts_congr {s t : State} {l : List Nat} (hc : t.cfg = s.cfg) (h : ∀ j ∈ l, t.slot j = s.slot j) :
    t.timeouts now l = s.timeouts now l := by
  rw [State.timeouts, State.timeouts, hc, List.filterMap_congr h]

/-- The sessions of the served slots that have timed out are those that are aborted. -/
theorem serviceSlots_aborts : ∀ {l : List Nat} {s : State}, serviceSlots now l s = .ok t → l.Nodup →
    ∃ es, t.events = s.events ++ es ∧ es.filter Event.isAborted = s.timeouts now l := by
  intro l
  induction l with
  | nil => intro s h _; cases h; exact ⟨[], by simp, rfl⟩
  | cons j l ih =>
    intro s h hl
    obtain ⟨hjl, hl⟩ := List.nodup_cons.mp hl
    simp only [serviceSlots] at h
    split at h
    · rename_i hj
      obtain ⟨es, h1, h2⟩ := ih h hl
      exact ⟨es, h1, by rw [h2]; simp [State.timeouts, hj]⟩
    · rename_i y hy
      split at h
      · cases h
      · rename_i u hu
        have serves := serviceSlot_serves hy hu
        obtain ⟨ds, d1, -⟩ := serves.events
        have d2 : ds.filter Event.isAborted = if y.timedOut s.cfg now then [y.timeoutEvent s.cfg] else [] := by
          have := serviceSlot_aborts hu
          rwa [State.aborts, State.aborts, d1, List.filter_append, List.append_cancel_left_eq] at this
        obtain ⟨es, h1, h2⟩ := ih h hl
        refine ⟨ds ++ es, by rw [h1, d1, List.append_assoc], ?_⟩
        rw [List.filter_append, d2, h2, State.timeouts_congr serves.cfg fun k hk => serves.others k (by rintro rfl; exact hjl hk)]
        by_cases hto : y.timedOut s.cfg now = true <;> simp [State.timeouts, hy, hto]

end Slots

theorem mem_timeouts {s : State} {now : Millis} {e : Event} : e ∈ s.timeouts now (liveSlots s) ↔
    ∃ j y, s.slot j = some y ∧ y.timedOut s.cfg now = true ∧ y.timeoutEvent s.cfg = e := by
  simp only [State.timeouts, List.mem_map, List.mem_filter, List.mem_filterMap, mem_liveSlots]
  constructor
  · rintro ⟨y, ⟨⟨j, -, hy⟩, hto⟩, he⟩
    exact ⟨j, y, hy, hto, he⟩
  · rintro ⟨j, y, hy, hto, he⟩
    exact ⟨y, ⟨⟨j, ⟨y, hy⟩, hy⟩, hto⟩, he⟩

/-- An Aborted event names one session, since no two share a key (10_state.md R30). -/
theorem timeoutEvent_unique {s : State} (hs : s.keysUnique) {i j : Nat} {x y : Session} (hx : s.slot i = some x)
    (hy : s.slot j = some y) {code : Byte}
    (h : y.timeoutEvent s.cfg = .aborted x.channel x.mode x.dir x.pgn x.src x.dst code) : y = x ∧ code = s.cfg.codes.timeout := by
  simp only [Session.timeoutEvent, Event.aborted.injEq] at h
  obtain ⟨hch, -, hdir, -, hsrc, hdst, hcode⟩ := h
  have found := State.findSlot_of_holds hs ⟨hx, Session.hasKey_iff.mpr ⟨rfl, rfl, rfl, rfl⟩⟩
  have := found.symm.trans (State.findSlot_of_holds hs ⟨hy, Session.hasKey_iff.mpr ⟨hch, hsrc, hdst, hdir⟩⟩)
  simp only [Option.some.injEq, Prod.mk.injEq] at this
  exact ⟨this.2.symm, hcode.symm⟩

/-- Settles O43: each live slot is served once, its session untouched before its turn; and the Aborted events are those of the sessions that have timed out. -/
theorem updateEndsTheTimedOutSessions : Obligations.UpdateEndsTheTimedOutSessions := by
  intro s now hs
  obtain ⟨t, ht, -⟩ := serviceSlots_answersGood (now := now) (l := liveSlots s) hs
  have hn := liveSlots_nodup s
  refine ⟨_, (congrArg finish ht : exec (.update now) s = finish (.ok t)), rfl, fun i x hx => ?_⟩
  obtain ⟨u, v, hc, hu, hv, hslot⟩ := serviceSlots_slot_of_mem ht hn (mem_liveSlots.mpr ⟨x, hx⟩) hx
  obtain ⟨es, hes, haborts⟩ := serviceSlots_aborts ht hn
  have aborted {code : Byte} : Event.aborted x.channel x.mode x.dir x.pgn x.src x.dst code ∈ t.events.drop s.events.length ↔
      ∃ j y, s.slot j = some y ∧ y.timedOut s.cfg now = true ∧
        y.timeoutEvent s.cfg = .aborted x.channel x.mode x.dir x.pgn x.src x.dst code := by
    rw [← mem_timeouts, ← haborts, List.mem_filter, hes, List.drop_left]
    exact (and_iff_left rfl).symm
  refine ⟨fun limit hw hle => ?within, fun limit hw hlt => ?beyond, ⟨?only, ?event⟩, ?code⟩
  case within =>
    rw [serviceSlot_of_within (hc ▸ hw) hle] at hv
    cases hv; exact hslot.trans hu
  case beyond =>
    rw [serviceSlot_of_timedOut (timedOut_iff.mpr ⟨limit, hc ▸ hw, hlt⟩)] at hv
    cases hv; exact hslot.trans (abortSession_slot _ _)
  case only =>
    rintro ⟨code, he⟩
    obtain ⟨j, y, hy, hto, heq⟩ := aborted.mp he
    obtain ⟨rfl, -⟩ := timeoutEvent_unique hs.2.2.2 hx hy heq
    exact timedOut_iff.mp hto
  case event => exact fun h => ⟨_, aborted.mpr ⟨i, x, hx, timedOut_iff.mpr h, rfl⟩⟩
  case code =>
    intro code he
    obtain ⟨j, y, hy, -, heq⟩ := aborted.mp he
    exact (timeoutEvent_unique hs.2.2.2 hx hy heq).2

end Sys2Proof.Machine
end

section
/-! PROOFS. The arbiter of UPDATE: what a slot does in its turn depends on the slots below it only through the driver's answers and the message ids they left (42_session_engine.md R208). -/

namespace Sys2Proof.Machine

/-! ### One slot in any block -/

/-- Writing into a slot what it holds changes nothing. -/
theorem State.set_slot_self (s : State) (i : Nat) : s.slots.set i (s.slot i) = s.slots := by
  refine List.ext_getElem (by simp) fun j h1 h2 => ?_
  rw [List.getElem_set]
  split
  · rename_i hij; subst hij; simp [State.slot, h2]
  · rfl

/-- One slot served if it is valid (42_session_engine.md R208). -/
def serveSlot (now : Millis) (i : Nat) (s : State) : Except Fault State :=
  match s.slot i with
  | none => .ok s
  | some x => serviceSlot now i x s

/-- Slot `i` in its turn, with nothing offered or reported yet. -/
def State.alone (s : State) (i n m : Nat) : State := { s.turn i n m with offered := [], events := [] }

/-- A block in which the turn of slot `i` of `s` has come: the slot holds what it held, and the slots below have left the driver's answers and the message ids from the `n`-th offer and the `m`-th delivery on. -/
structure State.AtTurn (s w : State) (i n m : Nat) : Prop where
  cfg       : w.cfg = s.cfg
  slot      : w.slot i = s.slot i
  nextMsgId : w.nextMsgId = s.nextMsgId + BitVec.ofNat 64 m
  driverIn  : w.driverIn = s.driverIn.drop n
  draws     : w.draws = s.draws + n
  lt        : i < w.slots.length

section Turns
variable {s w : State} {i n m : Nat} {now : Millis}

theorem State.atTurn_turn (hi : i < s.slots.length) : s.AtTurn (s.turn i n m) i n m :=
  ⟨rfl, State.turn_slot_self hi, rfl, rfl, rfl, by simpa using hi⟩

theorem State.alone_slot (hi : i < s.slots.length) : (s.alone i n m).slot i = s.slot i := State.turn_slot_self (n := n) (m := m) hi

/-- A block in which the turn of a slot has come is that slot alone, seen beside the others. -/
theorem State.AtTurn.eq_beside (h : s.AtTurn w i n m) (hi : i < s.slots.length) : w = State.beside i w (s.alone i n m) := by
  have slots : w.slots.set i ((s.alone i n m).slot i) = w.slots := by
    rw [State.alone_slot hi, ← h.slot, State.set_slot_self]
  simp only [State.beside, slots]
  cases w
  simp only [State.mk.injEq, true_and]
  exact ⟨h.cfg, h.nextMsgId, h.driverIn, h.draws, by simp [State.alone], by simp [State.alone]⟩

/-- What the service of slot `i` alone in its turn leaves. -/
def State.served (s : State) (now : Millis) (i n m : Nat) : State :=
  match serveSlot now i (s.alone i n m) with
  | .ok t => t
  | .error _ => s.alone i n m

variable (hs : s.wf) (hi : i < s.slots.length)
include hs hi

/-- From a good state a slot alone in its turn is served, and nothing else is. -/
theorem State.served_spec (now : Millis) (n m : Nat) :
    serveSlot now i (s.alone i n m) = .ok (s.served now i n m) ∧ Serves i (s.alone i n m) (s.served now i n m) := by
  have alone := State.alone_slot (n := n) (m := m) hi
  cases hx : s.slot i with
  | none =>
    have : serveSlot now i (s.alone i n m) = .ok (s.alone i n m) := by simp only [serveSlot, alone, hx]
    rw [State.served, this]
    exact ⟨rfl, .refl i _⟩
  | some x =>
    rw [hx] at alone
    obtain ⟨t, ht, serves, -⟩ := serviceSlot_keeps (now := now) alone (State.wf_session hs hx)
    have : serveSlot now i (s.alone i n m) = .ok t := by simp only [serveSlot, alone, ht]
    rw [State.served, this]
    exact ⟨rfl, serves⟩

/-- In a block in which its turn has come, a slot does what it does alone. -/
theorem State.AtTurn.serveSlot (h : s.AtTurn w i n m) :
    serveSlot now i w = .ok (State.beside i w (s.served now i n m)) := by
  obtain ⟨run, -⟩ := State.served_spec hs hi now n m
  have alone := State.alone_slot (n := n) (m := m) hi
  rw [Machine.serveSlot, h.slot]
  rw [Machine.serveSlot, alone] at run
  cases hx : s.slot i with
  | none =>
    simp only [hx] at run
    rw [← Except.ok.inj run]
    exact congrArg _ (h.eq_beside hi)
  | some x =>
    simp only [hx] at run
    have := serviceSlot_beside (now := now) (w := w) h.lt (alone.trans hx)
    rw [run, ← h.eq_beside hi] at this
    exact this

/-- What the turn of a slot changes in a block, its slot apart, does not depend on the block. -/
theorem State.AtTurn.changed (h : s.AtTurn w i n m) : w.changed (State.beside i w (s.served now i n m))
    { slots := w.slots.set i ((s.served now i n m).slot i), messages := deliveries (s.served now i n m).events
      offers := (s.served now i n m).offered, events := (s.served now i n m).events } ∧
    (State.beside i w (s.served now i n m)).draws = w.draws + (s.served now i n m).offered.length := by
  obtain ⟨-, serves⟩ := State.served_spec hs hi now n m
  obtain ⟨os, offered, driverIn, draws, -⟩ := serves.offered
  obtain ⟨es, events, nextMsgId⟩ := serves.events
  rw [show (s.alone i n m).offered = [] from rfl, List.nil_append] at offered
  rw [show (s.alone i n m).events = [] from rfl, List.nil_append] at events
  subst offered events
  refine ⟨⟨serves.cfg.trans h.cfg.symm, rfl, rfl, rfl, by simp, ?_, ?_, rfl, rfl⟩, ?_⟩
  · rw [h.nextMsgId]; exact nextMsgId
  · rw [h.driverIn]; exact driverIn
  · rw [h.draws]; exact draws

end Turns

/-! ### The turns one after another -/

/-- How many frames the slots below `k` have offered and how many messages they have delivered when the turn of slot `k` comes. -/
def State.before (s : State) (now : Millis) : Nat → Nat × Nat
  | 0 => (0, 0)
  | k + 1 =>
    let t := s.served now k (s.before now k).1 (s.before now k).2
    ((s.before now k).1 + t.offered.length, (s.before now k).2 + deliveries t.events)

/-- What slot `k` leaves in its turn. -/
def State.servedInTurn (s : State) (now : Millis) (k : Nat) : State := s.served now k (s.before now k).1 (s.before now k).2

/-- What the turn of slot `k` changes. -/
def State.part (s : State) (now : Millis) (k : Nat) : Change where
  slots    := (s.turn k (s.before now k).1 (s.before now k).2).slots.set k ((s.servedInTurn now k).slot k)
  messages := deliveries (s.servedInTurn now k).events
  offers   := (s.servedInTurn now k).offered
  events   := (s.servedInTurn now k).events

section Arbiter
variable {s : State} {now : Millis}

theorem State.part_slot {k : Nat} (hk : k < s.slots.length) : (s.part now k).slots.getD k none = (s.servedInTurn now k).slot k := by
  simp [State.part, hk]

/-- The counts at a slot's turn are those of the parts below it. -/
theorem State.before_eq (s : State) (now : Millis) (k : Nat) : s.before now k =
    (((List.range k).flatMap fun j => (s.part now j).offers).length, ((List.range k).map fun j => (s.part now j).messages).sum) := by
  induction k with
  | zero => rfl
  | succ k ih =>
    rw [State.before, List.range_succ, List.flatMap_append, List.map_append, List.length_append, List.sum_append]
    simp only [ih, List.flatMap_cons, List.flatMap_nil, List.append_nil, List.map_cons, List.map_nil, List.sum_cons, List.sum_nil, Nat.add_zero]
    simp only [State.part, State.servedInTurn, ih]

/-- An UPDATE of a slot's turn changes what the turn does. -/
theorem update_turn (hs : s.wf) {k : Nat} (hk : k < s.slots.length) :
    completes (.update now) (s.turn k (s.before now k).1 (s.before now k).2) (s.part now k) fun _ => True := by
  have at_turn := State.atTurn_turn (n := (s.before now k).1) (m := (s.before now k).2) hk
  have run : exec (.update now) (s.turn k (s.before now k).1 (s.before now k).2) =
      finish (serveSlot now k (s.turn k (s.before now k).1 (s.before now k).2)) := by
    rw [serveSlot, at_turn.slot]
    cases hx : s.slot k with
    | none =>
      have free (j : Nat) : (s.turn k (s.before now k).1 (s.before now k).2).slot j = none := by
        by_cases hj : j = k
        · subst hj; exact at_turn.slot.trans hx
        · exact State.turn_slot_ne hj
      exact congrArg (fun l => finish (serviceSlots now l _)) (liveSlots_none free)
    | some x => exact exec_update_only (State.turn_only hx)
  exact completes_of_run run (at_turn.serveSlot hs hk) (at_turn.changed hs hk).1

theorem serviceSlots_append {l l' : List Nat} : ∀ {s u : State}, serviceSlots now l s = .ok u →
    serviceSlots now (l ++ l') s = serviceSlots now l' u := by
  induction l with
  | nil => intro s u h; cases h; rfl
  | cons i l ih =>
    intro s u h
    simp only [serviceSlots, List.cons_append] at h ⊢
    split at h
    · exact ih h
    · split at h
      · cases h
      · exact ih h

/-- After the turns of the slots below `k` the state is changed by their parts, and the turn of slot `k` has come. -/
structure State.ServedBelow (s : State) (now : Millis) (k : Nat) (u : State) : Prop where
  run     : serviceSlots now ((List.range k).filter fun i => (s.slot i).isSome) s = .ok u
  changed : s.changed u
    { slots := u.slots, messages := ((List.range k).map fun j => (s.part now j).messages).sum
      offers := (List.range k).flatMap fun j => (s.part now j).offers
      events := (List.range k).flatMap fun j => (s.part now j).events }
  draws   : u.draws = s.draws + (s.before now k).1
  length  : u.slots.length = s.slots.length
  below   : ∀ j, j < k → u.slot j = (s.part now j).slots.getD j none
  above   : ∀ j, k ≤ j → u.slot j = s.slot j

theorem State.ServedBelow.zero (s : State) (now : Millis) : s.ServedBelow now 0 s where
  run := rfl
  changed := ⟨rfl, rfl, rfl, rfl, by simp, by simp, by simp, by simp, by simp⟩
  draws := rfl
  length := rfl
  below j hj := absurd hj (Nat.not_lt_zero j)
  above _ _ := rfl

theorem State.ServedBelow.succ {k : Nat} {u : State} (hs : s.wf) (hk : k < s.slots.length) (h : s.ServedBelow now k u) :
    s.ServedBelow now (k + 1) (State.beside k u (s.servedInTurn now k)) := by
  have at_turn : s.AtTurn u k (s.before now k).1 (s.before now k).2 := by
    refine ⟨h.changed.cfg, h.above k (Nat.le_refl k), ?_, ?_, h.draws, h.length ▸ hk⟩
    · rw [h.changed.nextMsgId, s.before_eq]
    · rw [h.changed.driverIn, s.before_eq]
  obtain ⟨changed, draws⟩ := at_turn.changed (now := now) hs hk
  refine ⟨?run, ?changed, ?draws, by simp [h.length], fun j hj => ?below, fun j hj => ?above⟩
  case run =>
    rw [List.range_succ, List.filter_append, serviceSlots_append h.run]
    have : serveSlot now k u = .ok (State.beside k u (s.servedInTurn now k)) := at_turn.serveSlot hs hk
    rw [serveSlot, at_turn.slot] at this
    cases hx : s.slot k with
    | none =>
      rw [hx] at this
      simpa [hx, serviceSlots] using this
    | some x =>
      rw [hx] at this
      simp only [List.filter_cons, hx, Option.isSome_some, if_true, List.filter_nil, serviceSlots, at_turn.slot, this]
  case changed =>
    simpa [List.range_succ, State.part, State.servedInTurn] using h.changed.trans changed
  case draws => rw [State.before, ← Nat.add_assoc, ← h.draws]; exact draws
  case below =>
    by_cases hjk : j = k
    · subst hjk; rw [State.beside_slot_self at_turn.lt, State.part_slot hk]
    · rw [State.beside_slot_ne hjk, h.below j (by omega)]
  case above => rw [State.beside_slot_ne (by omega), h.above j (by omega)]

theorem State.servedBelow (hs : s.wf) (now : Millis) : ∀ k, k ≤ s.slots.length → ∃ u, s.ServedBelow now k u := by
  intro k
  induction k with
  | zero => exact fun _ => ⟨s, .zero s now⟩
  | succ k ih =>
    intro hk
    obtain ⟨u, hu⟩ := ih (by omega)
    exact ⟨_, hu.succ hs hk⟩

/-- UPDATE changes the sum of the parts. -/
theorem update_parts (hs : s.wf) : completes (.update now) s
    { slots := (List.range s.slots.length).map fun i => (s.part now i).slots.getD i none
      messages := ((List.range s.slots.length).map fun j => (s.part now j).messages).sum
      offers := (List.range s.slots.length).flatMap fun j => (s.part now j).offers
      events := (List.range s.slots.length).flatMap fun j => (s.part now j).events } fun _ => True := by
  obtain ⟨u, hu⟩ := s.servedBelow hs now s.slots.length (Nat.le_refl _)
  have slots : u.slots = (List.range s.slots.length).map fun i => (s.part now i).slots.getD i none := by
    refine List.ext_getElem (by simp [hu.length]) fun j h1 h2 => ?_
    rw [List.getElem_map, List.getElem_range, ← hu.below j (hu.length ▸ h1)]
    simp [State.slot, h1]
  rw [← slots]
  exact completes_of_run (i := .update now) rfl hu.run hu.changed

end Arbiter

end Sys2Proof.Machine
end

section
/-! PROOFS. What UPDATE makes a sender send, where its session is the only one live: a grant back to back, an ETP grant behind its DPO, a BAM packet (42_session_engine.md R216, R217, R224, R238). -/

namespace Sys2Proof.Machine

/-! ### A burst -/

/-- A session at the end of an UPDATE in which `m` packets of its grant have gone out, field by field (42_session_engine.md R216, R217). -/
theorem Session.sent_afterBurst {x : Session} {m : Nat} (h : x.nextPkt.toNat + m ≤ x.totalPkts.toNat + 1) (now : Millis) (n : Nat) :
    (x.sent now m).afterBurst (decide (m = n)) = { x with
      nextPkt := BitVec.ofNat 32 (x.nextPkt.toNat + m), burstLeft := BitVec.ofNat 8 (x.burstLeft.toNat - m)
      lastActivity := if m = 0 then x.lastActivity else now
      state := if m = n then (if x.totalPkts.toNat < x.nextPkt.toNat + m then .waitingForEndAck else .requestedToSend) else x.state
      hold := if m = n ∧ ¬x.totalPkts.toNat < x.nextPkt.toNat + m then false else x.hold } := by
  have ht := x.totalPkts.isLt
  have next : (x.sent now m).nextPkt.toNat = x.nextPkt.toNat + m := by
    simp only [Session.sent, BitVec.toNat_ofNat]; omega
  have total : (x.sent now m).totalPkts = x.totalPkts := rfl
  simp only [Session.afterBurst, next, total]
  by_cases hm : m = n
  · by_cases hlast : x.totalPkts.toNat < x.nextPkt.toNat + m <;> simp [hm ▸ hlast, Session.sent, hm]
  · simp [hm, Session.sent]

section Burst
variable {s : State} {now : Millis} {i : Nat} {x : Session}

/-- A session waits only in the states of the timeout table (42_session_engine.md R209). -/
theorem not_timedOut_of_state {c : Config} (h : x.state = .sending ∨ x.state = .clearToSendReceived ∨ x.state = .announced) :
    x.timedOut c now = false := by
  rw [Bool.eq_false_iff, ne_eq, timedOut_iff]
  rintro ⟨l, ⟨-, hw⟩, -⟩
  rcases h with h | h | h <;> simp [h] at hw

/-- A session that owes no frame and has not timed out does its work. -/
theorem serviceSlot_work (hp : x.pending = none)
    (h : x.state = .sending ∨ x.state = .clearToSendReceived ∨ x.state = .announced) : serviceSlot now i x s = serviceWork now i x s := by
  have fresh : ¬x.timedOut s.cfg now = true := Bool.not_eq_true _ ▸ not_timedOut_of_state h
  simp only [serviceSlot, hp, if_neg fresh]

/-- The service of a TP or ETP sender with a grant is the burst of its session in the state `sending`. -/
theorem serviceSlot_burst (hx : s.slot i = some x) (hm : x.mode ≠ .bam) (hd : x.dir = .tx) (hp : x.pending = none)
    (hst : x.state = .sending ∨ (x.mode = .tp ∧ x.state = .clearToSendReceived)) : serviceSlot now i x s =
      txBurst now i { x with state := .sending } (s.setSlot i (some { x with state := .sending })) := by
  rw [serviceSlot_work hp (by tauto)]
  rcases hst with hst | ⟨htp, hst⟩
  · have same : ({ x with state := .sending } : Session) = x := by rw [← hst]
    have write : s.setSlot i (some x) = s := by rw [State.setSlot, State.set_slot hx]
    rw [same, write]
    cases hm' : x.mode with
    | tp | etp => simp only [serviceWork, hm', hd, hst]
    | bam => exact absurd hm' hm
  · simp only [serviceWork, htp, hd, hst]

end Burst

/-- Settles O46: each slot in its turn does what it does alone, and the turns add up; one live sender's turn is its burst. -/
theorem aGrantIsSentBackToBack : Obligations.AGrantIsSentBackToBack := by
  refine ⟨fun s now hs => ⟨s.part now, fun k hk => ?turn, update_parts hs⟩, ?burst⟩
  case turn =>
    have := update_turn (now := now) hs hk
    rwa [s.before_eq] at this
  case burst =>
    intro s now i x m packet hs hx hm hd hp hst hmn ha hr hpk done last
    have good := State.wf_session hs hx.1
    have grant := good.grant (by rcases hst with h | ⟨-, h⟩ <;> simp [Session.holdsGrant, hm, h])
    obtain ⟨t, ht, hch⟩ := txBurstLoop_eq (now := now) (x := { x with state := .sending }) rfl
      (s.slot_setSlot_self (State.lt_of_slot hx.1) _) hm good.nextPos grant good.count
      (fun he : x.mode = .etp => (good.offset he hd (hst.resolve_right fun h => by simp [he] at h)).1) hmn ha hr hpk
    have := hch.of_setSlot rfl
    rw [Session.sent_afterBurst (by show x.nextPkt.toNat + m ≤ x.totalPkts.toNat + 1; omega)] at this
    exact completes_of_run (exec_update_only hx) ((serviceSlot_burst hx.1 hm hd hp hst).trans ht) this

/-! ### An ETP grant -/

/-- An ETP sender whose DPO was accepted: its burst is open (42_session_engine.md R224). -/
def Session.afterDpo (x : Session) (now : Millis) : Session :=
  { x with pending := none, lastActivity := now, dpoOffset := (x.nextPkt - 1#32).setWidth 24, state := .sending }

section Dpo
variable {s t : State} {now : Millis} {i : Nat} {x y : Session}

/-- Behind an owed frame comes the work, where the frame was accepted (42_session_engine.md R207). -/
theorem serviceSlot_pending {k : Control} (hp : x.pending = some k) (ho : offer now i x k s = .ok t) (ht : t.slot i = some y) :
    serviceSlot now i x s = if y.pending = none then serviceWork now i y t else .ok t := by
  simp only [serviceSlot, hp, ho, ht]

/-- Behind the DPO of a grant comes its burst, where the DPO was accepted (42_session_engine.md R207). -/
theorem serviceWork_dpo (hm : x.mode = .etp) (hd : x.dir = .tx) (hst : x.state = .clearToSendReceived)
    (ho : offer now i x .dpo s = .ok t) (ht : t.slot i = some y) :
    serviceWork now i x s = if y.state = .sending then txBurst now i y t else .ok t := by
  simp only [serviceWork, hm, hd, hst, ho, ht]

/-- What the DPO gives as the offset, and from where the sequence numbers count. -/
theorem Session.afterDpo_dpoOffset {c : Config} (h : x.Good c) :
    (x.afterDpo now).dpoOffset = BitVec.ofNat 24 (x.nextPkt.toNat - 1) ∧ (x.afterDpo now).dpoOffset.toNat = x.nextPkt.toNat - 1 := by
  have total := x.totalPkts.isLt
  have h1 := h.nextPos
  have hn := h.nextMax
  have offset : (x.afterDpo now).dpoOffset = BitVec.ofNat 24 (x.nextPkt.toNat - 1) := by
    apply BitVec.eq_of_toNat_eq
    have : (x.nextPkt - 1#32).toNat = x.nextPkt.toNat - 1 := by bv_omega
    simp only [Session.afterDpo, BitVec.toNat_setWidth, BitVec.toNat_ofNat, this]
  refine ⟨offset, ?_⟩
  rw [offset, BitVec.toNat_ofNat]; omega

/-- The frames of an ETP burst are numbered from 1 (42_session_engine.md R216, R224). -/
theorem burst_afterDpo {c : Config} (h : x.Good c) (hm : x.mode = .etp) (m : Nat) (packet : Nat → List Byte) :
    (s.sendControl x .dpo).burst (x.afterDpo now) m packet = (List.range (min (m + 1) x.burstLeft.toNat)).map fun k =>
      s.frame (k + 1) x.channel 0xC700 x.dst x.src (packetData (k + 1) (packet k)) := by
  have offset := (Session.afterDpo_dpoOffset (now := now) h).2
  have h1 := h.nextPos
  refine List.map_congr_left fun k _ => ?_
  have etp : (x.afterDpo now).mode = .etp := hm
  have seq : x.nextPkt.toNat + k - (x.nextPkt.toNat - 1) = k + 1 := by omega
  rw [State.sendControl_frame, etp, if_pos rfl, offset]
  show s.frame (k + 1) x.channel 0xC700 x.dst x.src (packetData (x.nextPkt.toNat + k - (x.nextPkt.toNat - 1)) (packet k)) = _
  rw [seq]

variable (hx : s.slot i = some x) (hm : x.mode = .etp) (hd : x.dir = .tx)
  (hp : x.pending = some .dpo ∨ (x.pending = none ∧ x.state = .clearToSendReceived))
include hx hm hd hp

/-- A DPO refused stays owed, and the service ends. -/
theorem serviceSlot_dpo_refused (ha : s.driverAccepts = false) :
    serviceSlot now i x s = .ok ((s.sendControl x .dpo).setSlot i (some { x with pending := some .dpo })) := by
  have ht := (s.sendControl x .dpo).slot_setSlot_self (State.lt_of_slot hx) (some { x with pending := some .dpo })
  rcases hp with hp | ⟨hp, hst⟩
  · rw [serviceSlot_pending hp (offer_refused ha) ht]
    rfl
  · rw [serviceSlot_work hp (.inr (.inl hst)), serviceWork_dpo hm hd hst (offer_refused ha) ht]
    exact if_neg (by simp [hst])

/-- A DPO accepted is followed by the burst it announces. -/
theorem serviceSlot_dpo_accepted (ha : s.driverAccepts = true) :
    serviceSlot now i x s = txBurst now i (x.afterDpo now) ((s.sendControl x .dpo).setSlot i (some (x.afterDpo now))) := by
  have sent : offer now i x .dpo s = .ok ((s.sendControl x .dpo).setSlot i (some (x.afterDpo now))) := (offer_accepted ha).trans rfl
  have ht := (s.sendControl x .dpo).slot_setSlot_self (State.lt_of_slot hx) (some (x.afterDpo now))
  rcases hp with hp | ⟨hp, hst⟩
  · rw [serviceSlot_pending hp sent ht, if_pos (by rfl)]
    simp only [serviceWork, Session.afterDpo, hm, hd]
  · rw [serviceSlot_work hp (.inr (.inl hst)), serviceWork_dpo hm hd hst sent ht]
    exact if_pos rfl

end Dpo

/-- Settles O47: the DPO is the frame the session owes, and the burst behind it starts at the offset the DPO gives. -/
theorem anEtpGrantIsSentBehindADpo : Obligations.AnEtpGrantIsSentBehindADpo := by
  intro s now i x m packet hs hx hm hd hp
  have good := State.wf_session hs hx.1
  have run := exec_update_only (now := now) hx
  have dpo := changed_sendControl (s := s) (i := i) (x := x) (k := .dpo) (by simp) (fun _ => good.nextPos)
  refine ⟨fun ha => completes_of_run run (serviceSlot_dpo_refused hx.1 hm hd hp ha) (dpo _), fun h0 hmn ha hr hpk => ?_⟩
  intro done last
  have grant := good.grant (by rcases hp with h | ⟨-, h⟩ <;> simp [Session.holdsGrant, hm, h])
  have h1 := good.nextPos
  obtain ⟨offset, offset_toNat⟩ := Session.afterDpo_dpoOffset (now := now) good
  obtain ⟨t, ht, hch⟩ := txBurstLoop_eq (now := now) (x := x.afterDpo now) (m := m) (packet := packet)
    (s := (s.sendControl x .dpo).setSlot i (some (x.afterDpo now))) rfl
    (State.slot_setSlot_self _ (State.lt_of_slot hx.1) _) (by simp [Session.afterDpo, hm]) good.nextPos grant good.count
    (fun _ => by rw [offset_toNat]; show _ < x.nextPkt.toNat; omega) hmn
    (fun k hk => (s.sendControl_answer x .dpo k).trans (ha k hk)) (fun hk => (s.sendControl_answer x .dpo m).trans (hr hk)) hpk
  have burst : ((s.sendControl x .dpo).setSlot i (some (x.afterDpo now))).burst (x.afterDpo now) m packet = _ :=
    burst_afterDpo (s := s) (now := now) good hm m packet
  have := (dpo _).trans hch
  rw [Session.sent_afterBurst (by show x.nextPkt.toNat + m ≤ x.totalPkts.toNat + 1; omega), offset, burst] at this
  refine completes_of_run run ((serviceSlot_dpo_accepted hx.1 hm hd hp h0).trans ht) ?_
  have time : (x.afterDpo now).lastActivity = now := rfl
  simp only [State.setSlot_slots, List.set_set, time, ite_self] at this
  exact this

/-! ### A BAM packet -/

section Pace
variable {s : State} {now : Millis} {i : Nat} {x : Session} {c : Config}

/-- What a data frame offered changes. -/
theorem changed_data (s : State) (x : Session) (d : List Byte) : s.changed (s.send x.channel (dataId s.cfg x) d)
    { slots := s.slots, offers := [s.frame 0 x.channel x.mode.dt x.dst x.src d] } :=
  ⟨rfl, rfl, rfl, rfl, by simp, by simp, by simp,
    by simp [State.frame, State.emitted, dataId, transportId, State.answer_zero], by simp⟩

/-- A BAM sender that owes nothing has announced its message. -/
theorem Session.Good.bam_state (h : x.Good c) (hm : x.mode = .bam) (hd : x.dir = .tx) (hp : x.pending = none) :
    x.state = .announced ∨ x.state = .sending := by
  have legal := h.state
  have pending := h.pending
  cases hst : x.state <;> simp_all [Session.legalState, Session.legalPending]

/-- The service of a BAM sender is its pacing. -/
theorem serviceSlot_bam (h : x.Good c) (hm : x.mode = .bam) (hd : x.dir = .tx) (hp : x.pending = none) :
    serviceSlot now i x s = bamPace now i x s := by
  have hst := h.bam_state hm hd hp
  rw [serviceSlot_work hp (by tauto)]
  rcases hst with hst | hst <;> simp only [serviceWork, hm, hd, hst]

/-- A BAM sender whose packet was accepted (42_session_engine.md R238). -/
def Session.afterPacket (x : Session) (now : Millis) : Session :=
  { x with lastActivity := now, nextPkt := x.nextPkt + 1, state := .sending }

theorem bamPace_within (h : ¬s.cfg.bamInterval.toNat ≤ (now - x.lastActivity).toNat) : bamPace now i x s = .ok s := if_neg h

variable (due : s.cfg.bamInterval.toNat ≤ (now - x.lastActivity).toNat) {d : List Byte}
include due

theorem bamPace_refused (hdata : dataFrame x x.nextPkt x.nextPkt = .ok d) (ha : s.driverAccepts = false) :
    bamPace now i x s = .ok (s.send x.channel (dataId s.cfg x) d) := by
  rw [bamPace, Session.elapsed, if_pos due, hdata]
  simp only [ha, Bool.false_eq_true, if_false]

/-- A packet accepted is the last or is followed by the next. -/
theorem bamPace_accepted (hdata : dataFrame x x.nextPkt x.nextPkt = .ok d) (ha : s.driverAccepts = true)
    (hn : x.nextPkt.toNat ≤ x.totalPkts.toNat) : bamPace now i x s =
      if x.nextPkt.toNat = x.totalPkts.toNat then
        complete i (x.afterPacket now) ((s.send x.channel (dataId s.cfg x) d).setSlot i (some (x.afterPacket now)))
      else .ok ((s.send x.channel (dataId s.cfg x) d).setSlot i (some (x.afterPacket now))) := by
  have total := x.totalPkts.isLt
  have all : (x.afterPacket now).allPackets = true ↔ x.nextPkt.toNat = x.totalPkts.toNat := by
    have e : (x.nextPkt + 1).toNat = x.nextPkt.toNat + 1 := by bv_omega
    rw [Session.allPackets_iff]
    show x.totalPkts.toNat < (x.nextPkt + 1).toNat ↔ _
    omega
  rw [bamPace, Session.elapsed, if_pos due, hdata]
  simp only [ha, if_true, ← all]
  rfl

end Pace

/-- Settles O48: the service of the one live slot is the pacing of its session, whose next packet is read from the buffer. -/
theorem aBamPacketGoesOutWhenItsIntervalHasPassed : Obligations.ABamPacketGoesOutWhenItsIntervalHasPassed := by
  intro s now i x bytes hs hx hm hd hp hpk frame due
  have good := State.wf_session hs hx.1
  have hdst : x.dst = 0xFF := good.global.mp hm
  have hn := good.bam hm
  have run := (exec_update_only (now := now) hx).trans (congrArg finish (serviceSlot_bam good hm hd hp))
  have data := dataFrame_eq (seq := x.nextPkt) hpk good.nextPos hn good.count
  have sent := changed_data s x (packetData x.nextPkt.toNat bytes)
  rw [hm, hdst] at sent
  refine ⟨fun h => ?within, fun h ha => ?refused, fun h ha hlt => ?next, fun h ha hlast => ?last⟩
  case within => exact computes_same run (bamPace_within h)
  case refused => exact completes_of_run run (bamPace_refused h data ha) sent
  case next =>
    refine completes_of_run run ((bamPace_accepted h data ha hn).trans (if_neg (by omega))) ?_
    simpa [frame, Mode.dt, Session.afterPacket] using sent.trans (changed_setSlot _ i (some (x.afterPacket now)))
  case last =>
    obtain ⟨t, ht, hch⟩ := changed_complete_tx (i := i) (x := x.afterPacket now)
      ((s.send x.channel (dataId s.cfg x) (packetData x.nextPkt.toNat bytes)).setSlot i (some (x.afterPacket now))) hd
    refine completes_of_run run ((bamPace_accepted h data ha hn).trans ((if_pos hlast).trans ht)) ?_
    simpa [frame, Mode.dt, Session.afterPacket, hm, hdst] using sent.trans (hch.of_setSlot rfl)

end Sys2Proof.Machine
end

section
/-! PROOFS. STATUS and RESET, the one frame of a short message, and the frames that never reach the engine (43_block_commands.md R303, R309 to R311, R315, R316). -/

namespace Sys2Proof.Machine

/-! ### STATUS and RESET -/

/-- The 8-bit `active` port holds the number of valid slots where there are fewer than 256 (log 15). -/
theorem activePort_toNat {s : State} (h : (s.slots.filter Option.isSome).length < 2 ^ 8) :
    (BitVec.ofNat 8 s.activeCount).toNat = (s.slots.filter Option.isSome).length := by
  rw [State.activeCount, List.countP_eq_length_filter, BitVec.toNat_ofNat, Nat.mod_eq_of_lt h]

/-- Settles O20: STATUS writes its three ports and is done, the state it leaves being the one it read. -/
theorem statusReadsTheCounters : Obligations.StatusReadsTheCounters :=
  fun s => computes_of_done (s := s) rfl ⟨rfl, rfl, activePort_toNat⟩

/-- Settles O21: RESET replies from the reset block, and a reply keeps every field but the ports. -/
theorem resetFreesEverySlotSilently : Obligations.ResetFreesEverySlotSilently := by
  intro s
  refine ⟨s.resetBlock.reply fun p => { p with status := .ok }, rfl, rfl, ?_⟩
  simp

/-! ### A message of one frame -/

/-- What an offer of any frame changes. -/
theorem changed_send (s : State) (ch : Channel) (id : Word) (d : List Byte) :
    s.changed (s.send ch id d) { slots := s.slots, offers := [⟨s.emitted ch id d, s.driverAccepts⟩] } :=
  ⟨rfl, rfl, rfl, rfl, by simp, by simp, by simp, by simp, by simp⟩

/-- A short message that may be sent goes by a single frame, to a peer or to no destination. -/
theorem sendMessage_single {s : State} {q : SendRequest} (h : sendAllowed s q.channel q.src q.dst = true)
    (hlen : q.len.toNat ≤ 8) : sendMessage q s = .ok (singleFrame q s) := by
  have single : selectMode q.len.toNat (q.dst == globalAddr) = .single := if_pos hlen
  rw [sendMessage, if_pos h, single]

/-- Settles O23: the message selects the single frame, whose length is that of the payload and whose answer is the result. -/
theorem shortMessagesAreOneFrame : Obligations.ShortMessagesAreOneFrame := by
  intro s q hp hc hi hd hlen
  rw [← hp]
  exact completes_txSend hc (sendMessage_single (sendAllowed_iff.mpr ⟨hi, hd⟩) hlen) (changed_send s _ _ _)

/-! ### Frames that never reach the engine -/

/-- What an event changes. -/
theorem changed_emit (s : State) (e : Event) : s.changed (s.emit e) { slots := s.slots, events := [e] } :=
  ⟨rfl, rfl, rfl, rfl, by simp, by simp, by simp, by simp, by simp⟩

/-- A frame that no check of 30_encoding.md R84 turns away is routed. -/
theorem exec_rxFrame_legal {s : State} {f : Frame} (hc : f.channel.toNat < s.cfg.numChannels) (hl : f.length.toNat ≤ 8)
    (hd : f.length.toNat = f.data.length) : exec (.rxFrame f) s = finish (routeFrame f s) := by
  have legal : ¬frameIllegal s.cfg f = true := by rw [frameIllegal_iff]; omega
  exact if_neg legal

/-- An identifier with a bit above 28 has a nonzero reserved field. -/
theorem reserved_ne_zero {raw : Word} (h : 2 ^ 29 ≤ raw.toNat) : raw.extractLsb' 29 3 ≠ 0#3 := by
  rw [ne_eq, ← BitVec.toNat_inj, toNat_extractLsb', bitField, BitVec.toNat_ofNat]
  omega

section Route
variable {f : Frame} (s : State)

/-- A Standard frame passes through (R310). -/
theorem routeFrame_standard (h : f.extended = false) : routeFrame f s = .ok (s.emit (.passthrough f)) := if_pos h

/-- An identifier of more than 29 bits is dropped (R309). -/
theorem routeFrame_invalid (he : f.extended = true) (h : 2 ^ 29 ≤ f.identifier.toNat) :
    routeFrame f s = .ok (s.dropFrame .invalidIdentifier) := by
  rw [routeFrame, if_neg (by simp [he]), if_pos (reserved_ne_zero h)]

/-- A 29-bit identifier of no transport PGN passes through (R311). -/
theorem routeFrame_foreign (he : f.extended = true) (h : f.identifier.toNat < 2 ^ 29)
    (hg : ¬isTransportPgn (idDecode f.identifier).pgn = true) : routeFrame f s = .ok (s.emit (.passthrough f)) := by
  rw [routeFrame, if_neg (by simp [he]), if_neg (not_not.mpr (reserved_zero h)), if_neg hg]

end Route

/-- Settles O27: a legal frame is routed, and the three cases are the branches of the routing before the engine. -/
theorem otherFramesPassThrough : Obligations.OtherFramesPassThrough := by
  intro s f hc hl hd
  have run := exec_rxFrame_legal hc hl hd
  refine ⟨fun he => ?standard, fun he h => ?invalid, fun he h hg => ?foreign⟩
  case standard => exact completes_of_run run (routeFrame_standard s he) (changed_emit s _)
  case invalid => exact completes_drop run .invalidIdentifier (routeFrame_invalid s he h)
  case foreign =>
    exact completes_of_run run (routeFrame_foreign s he h (mt isTransportPgn_iff.mp hg)) (changed_emit s _)

end Sys2Proof.Machine
end

section
/-! PROOFS. The six causes of a rejected TX_SEND: each alone turns the message away, and without them it is sent (43_block_commands.md R301 to R306, 60_exceptions.md R354). -/

namespace Sys2Proof.Machine

/-- Nothing has changed. -/
theorem State.changed.refl (s : State) : s.changed s { slots := s.slots } :=
  ⟨rfl, rfl, rfl, rfl, by simp, by simp, rfl, by simp, by simp⟩

section Rejected
variable {s : State} {q : SendRequest}

/-! ### Each cause alone -/

/-- The causes of R354 in its order, but for the sixth, the driver's refusal of a single frame: the parties, the mode Reject, the capacity rule, the BAM rule, the buffer. -/
def sendRejected (s : State) (q : SendRequest) : Prop :=
  (s.isInternal q.channel q.src = false ∨ q.dst ≠ 0xFF ∧ s.reachable q.channel q.dst = false) ∨
  (117440505 < q.len.toNat ∨ q.dst = 0xFF ∧ 1785 < q.len.toNat) ∨
  (8 < q.len.toNat ∧ q.dst ≠ 0xFF ∧ (¬s.keyFree q.channel q.src q.dst .tx ∨ s.full)) ∨
  (8 < q.len.toNat ∧ q.dst = 0xFF ∧ (s.bamTxActive q.channel = true ∨ s.full)) ∨
  (8 < q.len.toNat ∧ s.canAllocate q.len.toNat = false)

theorem sendAllowed_eq_false_iff : sendAllowed s q.channel q.src q.dst = false ↔
    s.isInternal q.channel q.src = false ∨ q.dst ≠ 0xFF ∧ s.reachable q.channel q.dst = false := by
  rw [← Bool.not_eq_true, sendAllowed_iff, not_and_or, not_or, Bool.not_eq_true, Bool.not_eq_true]

theorem sendMessage_notAllowed (h : sendAllowed s q.channel q.src q.dst = false) : sendMessage q s = .ok (false, s) := by
  rw [sendMessage, if_neg (Bool.eq_false_iff.mp h)]

theorem selectMode_reject (h : 117440505 < q.len.toNat ∨ q.dst = 0xFF ∧ 1785 < q.len.toNat) :
    selectMode q.len.toNat (q.dst == globalAddr) = .reject := by
  have long : ¬q.len.toNat ≤ sfMaxLen := by simp only [sfMaxLen]; omega
  have noTp : ¬q.len.toNat ≤ tpMaxLen := by simp only [tpMaxLen]; omega
  rw [selectMode, if_neg long, if_neg noTp]
  rcases h with tooLong | ⟨absent, -⟩
  · exact if_neg (Nat.not_le.mpr tooLong)
  · simp [absent, globalAddr]

/-- A long message is turned away where neither a peer's session nor a broadcast opens. -/
theorem sendMessage_of_noSession (hl : 8 < q.len.toNat) (peer : q.dst ≠ 0xFF → ∀ m, openPeer q m s = .ok (false, s))
    (bam : q.dst = 0xFF → openBam q s = .ok (false, s)) : sendMessage q s = .ok (false, s) := by
  have long : ¬q.len.toNat ≤ sfMaxLen := Nat.not_le.mpr hl
  rw [sendMessage, selectMode, if_neg long]
  by_cases hd : q.dst = 0xFF
  · have absent : (q.dst == globalAddr) = true := by rw [hd]; rfl
    simp only [absent, if_true]
    split_ifs <;> simp [bam hd]
  · have present : (q.dst == globalAddr) = false := beq_false_of_ne hd
    simp only [present, Bool.false_eq_true, if_false]
    split_ifs <;> simp [peer hd]

theorem openTx_noRoom (h : s.full ∨ s.canAllocate q.len.toNat = false) (m : Mode) (dst : Addr) (k : Control) :
    openTx q m dst k s = .ok (false, s) := by
  rw [openTx]
  cases hi : s.freeSlot with
  | none => rfl
  | some i =>
    have := h.resolve_left fun hf => by simp [State.freeSlot_eq_none.mpr hf] at hi
    simp [this]

theorem openPeer_rejected (h : ¬s.keyFree q.channel q.src q.dst .tx ∨ s.full ∨ s.canAllocate q.len.toNat = false) (m : Mode) :
    openPeer q m s = .ok (false, s) := by
  rw [openPeer]
  split_ifs with taken
  · rfl
  · have free : s.keyFree q.channel q.src q.dst .tx := State.findSlot_eq_none.mp (by simpa using taken)
    exact openTx_noRoom (h.resolve_left (not_not_intro free)) ..

theorem openBam_rejected (h : s.bamTxActive q.channel = true ∨ s.full ∨ s.canAllocate q.len.toNat = false) :
    openBam q s = .ok (false, s) := by
  rw [openBam]
  split_ifs with active
  · rfl
  · exact openTx_noRoom (h.resolve_left active) ..

/-- Each cause turns the message away with the block as it was. -/
theorem sendMessage_rejected (h : sendRejected s q) : sendMessage q s = .ok (false, s) := by
  rcases h with parties | mode | ⟨hl, hd, capacity⟩ | ⟨hl, hd, busy⟩ | ⟨hl, buffer⟩
  · exact sendMessage_notAllowed (sendAllowed_eq_false_iff.mpr parties)
  · rw [sendMessage, selectMode_reject mode, ite_self]
  · exact sendMessage_of_noSession hl (fun _ => openPeer_rejected (capacity.imp_right .inl)) fun h => absurd h hd
  · exact sendMessage_of_noSession hl (fun h => absurd hd h) fun _ => openBam_rejected (busy.imp_right .inl)
  · exact sendMessage_of_noSession hl (fun _ => openPeer_rejected (.inr (.inr buffer))) fun _ => openBam_rejected (.inr (.inr buffer))

/-! ### None of them -/

theorem exists_lowestFree (h : ¬s.full) : ∃ i, s.lowestFree i := by
  obtain ⟨i, hi⟩ := Option.ne_none_iff_exists'.mp (mt State.freeSlot_eq_none.mp h)
  exact ⟨i, State.freeSlot_eq_some.mp hi⟩

/-- A long message that no cause turns away opens a session, in the lowest free slot, and is accepted. -/
theorem sendMessage_opens (hp : q.payload.length = q.len.toNat) (hl : 8 < q.len.toNat) (h : ¬sendRejected s q) :
    ∃ t c, sendMessage q s = .ok (true, t) ∧ s.changed t c := by
  simp only [sendRejected, not_or, not_and, not_not, Bool.not_eq_false] at h
  obtain ⟨⟨internal, reachable⟩, ⟨fits, noLongBam⟩, capacity, idle, buffer⟩ := h
  by_cases hd : q.dst = 0xFF
  · obtain ⟨notActive, room⟩ := idle hl hd
    obtain ⟨i, hi⟩ := exists_lowestFree room
    obtain ⟨t, ht, hch⟩ := openTx_opens (m := .bam) (dst := globalAddr) hp hi (buffer hl) (.inr ⟨rfl, rfl⟩)
    have mode := sendMessage_broadcast internal hd hl (Nat.not_lt.mp (noLongBam hd)) (Bool.eq_false_iff.mpr notActive)
    exact ⟨t, _, mode.trans ht, hch⟩
  · obtain ⟨free, room⟩ := capacity hl hd
    obtain ⟨i, hi⟩ := exists_lowestFree room
    obtain ⟨t, ht, hch⟩ := openTx_opens (m := if q.len.toNat ≤ 1785 then .tp else .etp) (dst := q.dst) hp hi (buffer hl) (.inl ⟨rfl, rfl⟩)
    have mode := sendMessage_peer internal hd (reachable hd) hl (Nat.not_lt.mp fits) free
    exact ⟨t, _, mode.trans ht, hch⟩

/-- No cause, no party that is not allowed. -/
theorem sendAllowed_of_not_rejected (h : ¬sendRejected s q) : sendAllowed s q.channel q.src q.dst = true :=
  Bool.eq_true_of_not_eq_false fun hf => h (.inl (sendAllowed_eq_false_iff.mp hf))

/-- The six causes are the five and the driver's refusal. -/
theorem sixCauses_iff :
    ((s.isInternal q.channel q.src = false ∨ q.dst ≠ 0xFF ∧ s.reachable q.channel q.dst = false) ∨
      (117440505 < q.len.toNat ∨ q.dst = 0xFF ∧ 1785 < q.len.toNat) ∨
      (8 < q.len.toNat ∧ q.dst ≠ 0xFF ∧ (¬s.keyFree q.channel q.src q.dst .tx ∨ s.full)) ∨
      (8 < q.len.toNat ∧ q.dst = 0xFF ∧ (s.bamTxActive q.channel = true ∨ s.full)) ∨
      (8 < q.len.toNat ∧ s.canAllocate q.len.toNat = false) ∨
      (q.len.toNat ≤ 8 ∧ s.driverAccepts = false)) ↔
    sendRejected s q ∨ q.len.toNat ≤ 8 ∧ s.driverAccepts = false := by
  simp only [sendRejected, or_assoc]

end Rejected

/-- Settles O26: a cause but the driver's turns the message away untouched; without one, a short message is the single frame, answered by the driver, and a long one opens its session. -/
theorem sendsAreRejectedForSixCauses : Obligations.SendsAreRejectedForSixCauses := by
  intro s q hp hc single
  simp only [sixCauses_iff]
  by_cases hr : sendRejected s q
  · obtain ⟨t, ht, hch, hok, hacc⟩ := completes_txSend hc (sendMessage_rejected hr) (.refl s)
    exact ⟨t, ht, hok, iff_of_true hacc (.inl hr), fun _ => ⟨[], hch, fun _ => rfl⟩⟩
  have allowed := sendAllowed_of_not_rejected hr
  by_cases hl : q.len.toNat ≤ 8
  · obtain ⟨t, ht, hch, hok, hacc⟩ := completes_txSend hc (sendMessage_single allowed hl) (changed_send s _ _ _)
    refine ⟨t, ht, hok, by simp [hacc, hr, hl], fun _ => ⟨_, hch, fun notSingle => absurd ⟨hl, sendAllowed_iff.mp allowed⟩ notSingle⟩⟩
  · obtain ⟨u, c, hu, hchu⟩ := sendMessage_opens hp (Nat.not_le.mp hl) hr
    obtain ⟨t, ht, -, hok, hacc⟩ := completes_txSend hc hu hchu
    exact ⟨t, ht, hok, by simp [hacc, hr, hl], by simp [hacc]⟩

end Sys2Proof.Machine
end

section
/-! PROOFS. Records and steps (30_encoding.md R80, R81, R106; 20_memory.md R67, R69): what each reader does with the operands of its command as they are written, how many bytes each reader takes, and which command a step runs. -/

namespace Sys2Proof

/-! ### Every record decodes to its command -/

/-- A record whose reader gives the command back decodes to the command. -/
theorem decode_encode_of_read {i : Instr} {read : List Byte → Option Instr} (hop : recordReader (opcode i) = some read)
    (hread : read (operandBytes i) = some i) : decode (encode i) = .ok i := by
  simp only [decode, encode, hop, hread]

@[simp] theorem readNameRecord_leBytes (k : NameWord → Instr) (n : NameWord) : readNameRecord k (leBytes 8 n) = some (k n) := by
  simp [readNameRecord, atEnd]

@[simp] theorem readSetRecord_leBytes (k : NameWord → Word → Instr) (n : NameWord) (v : Word) :
    readSetRecord k (leBytes 8 n ++ leBytes 4 v) = some (k n v) := by
  simp [readSetRecord, atEnd]

/-- NAME_MATCH reads as many filters as its count says, which is as many as a well-formed one has. -/
theorem readNameMatch_operandBytes {count : Byte} {fs : List Filter} (h : fs.length = count.toNat) (n : NameWord) :
    readNameMatch (operandBytes (.nameMatch n count fs)) = some (.nameMatch n count fs) := by
  have filters : readFilters count.toNat (fs.flatMap filterBytes) = some (fs, []) := by
    simpa [h] using readFilters_filterBytes fs []
  simp [operandBytes, readNameMatch, readByte, atEnd, filters]

/-- TX_SEND takes what is left as its payload, which is as long as a well-formed one says. -/
theorem readTxSend_operandBytes {q : SendRequest} (h : q.payload.length = q.len.toNat) :
    readTxSend (operandBytes (.txSend q)) = some (.txSend q) := by
  simp [operandBytes, readTxSend, readByte, h]

/-- Settles O1: the opcode selects the command's reader, and each operand reads back as it was written. -/
theorem decodingARecordGivesItsCommand : Obligations.DecodingARecordGivesItsCommand := by
  intro i hi
  cases i with
  | nameMatch n count fs => exact decode_encode_of_read rfl (readNameMatch_operandBytes (by simpa [Instr.wf] using hi) n)
  | txSend q => exact decode_encode_of_read rfl (readTxSend_operandBytes (by simpa [Instr.wf] using hi))
  | idEncode ty prio pgn da sa => exact decode_encode_of_read rfl (by simp [operandBytes, readIdEncode, readByte, atEnd])
  | idDecode ty raw => exact decode_encode_of_read rfl (by simp [operandBytes, readIdDecode, readByte, atEnd])
  | nameEncode f => exact decode_encode_of_read rfl (by simp [operandBytes, readNameEncode, readByte, atEnd])
  | nameCmp a b => exact decode_encode_of_read rfl (by simp [operandBytes, readNameCmp, atEnd])
  | rxFrame f => exact decode_encode_of_read rfl (by simp [operandBytes, readRxFrame, readByte])
  | update now => exact decode_encode_of_read rfl (by simp [operandBytes, readUpdate, atEnd])
  | sessionAbort now ch src dst dir => exact decode_encode_of_read rfl (by simp [operandBytes, readSessionAbort, readByte, atEnd])
  | status | reset => rfl
  | nameDecode | nameGetIdentity | nameGetManufacturer | nameGetEcuInstance | nameGetFunctionInstance | nameGetFunction
  | nameGetDeviceClass | nameGetDeviceClassInstance | nameGetIndustryGroup | nameGetAac =>
    exact decode_encode_of_read rfl (readNameRecord_leBytes _ _)
  | nameSetIdentity | nameSetManufacturer | nameSetEcuInstance | nameSetFunctionInstance | nameSetFunction
  | nameSetDeviceClass | nameSetDeviceClassInstance | nameSetIndustryGroup | nameSetAac =>
    exact decode_encode_of_read rfl (readSetRecord_leBytes _ _ _)

/-! ### How many bytes an operand takes -/

theorem readByte_length {r r' : List Byte} {b : Byte} (h : readByte r = some (b, r')) : r.length = r'.length + 1 := by
  cases r with
  | nil => cases h
  | cons c r => cases h; rfl

theorem readWord_length {r r' : List Byte} {v : Word} (h : readWord r = some (v, r')) : r.length = r'.length + 4 := by
  match r, h with
  | _ :: _ :: _ :: _ :: _, rfl => rfl

theorem readName_length {r r' : List Byte} {v : NameWord} (h : readName r = some (v, r')) : r.length = r'.length + 8 := by
  simp only [readName, bind, Option.bind_eq_some_iff, Prod.exists] at h
  obtain ⟨lo, r1, h1, hi, r2, h2, h3⟩ := h
  cases h3
  rw [readWord_length h1, readWord_length h2]

/-- Each filter takes five bytes. -/
theorem readFilters_length {n : Nat} : ∀ {r r' : List Byte} {fs : List Filter}, readFilters n r = some (fs, r') →
    fs.length = n ∧ r.length = r'.length + 5 * n := by
  induction n with
  | zero => intro r r' fs h; cases h; exact ⟨rfl, rfl⟩
  | succ n ih =>
    intro r r' fs h
    simp only [readFilters, bind, Option.bind_eq_some_iff, Prod.exists] at h
    obtain ⟨f, r1, h1, v, r2, h2, fs', r3, h3, h4⟩ := h
    cases h4
    obtain ⟨hn, h3⟩ := ih h3
    have h1 := readByte_length h1
    have h2 := readWord_length h2
    exact ⟨congrArg (· + 1) hn, by omega⟩

theorem filterBytes_length (fs : List Filter) : (fs.flatMap filterBytes).length = 5 * fs.length := by
  induction fs with
  | nil => rfl
  | cons f fs ih => rw [List.flatMap_cons, List.length_append, ih]; simp [filterBytes, Machine.leBytes_length]; omega

theorem atEnd_eq_some {i j : Instr} {r : List Byte} : atEnd i r = some j ↔ r = [] ∧ i = j := by
  cases r <;> simp [atEnd]

/-! ### What each reader answers -/

/-- A reader of an opcode's operand record answers well-formed commands of that opcode, of as many operand bytes as it read. -/
def Reads (op : Byte) (read : List Byte → Option Instr) : Prop :=
  ∀ r i, read r = some i → opcode i = op ∧ i.wf = true ∧ r.length = (operandBytes i).length

theorem reads_atEnd {i : Instr} (hw : i.wf = true) (hn : operandBytes i = []) : Reads (opcode i) (atEnd i) := by
  intro r j h
  obtain ⟨rfl, rfl⟩ := atEnd_eq_some.mp h
  exact ⟨rfl, hw, by rw [hn]⟩

theorem reads_nameRecord {op : Byte} {k : NameWord → Instr} (hop : ∀ n, opcode (k n) = op) (hw : ∀ n, (k n).wf = true)
    (hb : ∀ n, operandBytes (k n) = leBytes 8 n) : Reads op (readNameRecord k) := by
  intro r i h
  simp only [readNameRecord, bind, Option.bind_eq_some_iff, Prod.exists, atEnd_eq_some] at h
  obtain ⟨n, _, h, rfl, rfl⟩ := h
  exact ⟨hop n, hw n, by rw [hb, readName_length h, Machine.leBytes_length]; rfl⟩

theorem reads_setRecord {op : Byte} {k : NameWord → Word → Instr} (hop : ∀ n v, opcode (k n v) = op) (hw : ∀ n v, (k n v).wf = true)
    (hb : ∀ n v, operandBytes (k n v) = leBytes 8 n ++ leBytes 4 v) : Reads op (readSetRecord k) := by
  intro r i h
  simp only [readSetRecord, bind, Option.bind_eq_some_iff, Prod.exists, atEnd_eq_some] at h
  obtain ⟨n, _, h1, v, _, h2, rfl, rfl⟩ := h
  exact ⟨hop n v, hw n v, by rw [hb, readName_length h1, readWord_length h2]; simp [Machine.leBytes_length]⟩

theorem reads_idEncode : Reads 0x01 readIdEncode := by
  intro r i h
  simp only [readIdEncode, bind, Option.bind_eq_some_iff, Prod.exists, atEnd_eq_some] at h
  obtain ⟨ty, _, h1, prio, _, h2, pgn, _, h3, da, _, h4, sa, _, h5, rfl, rfl⟩ := h
  exact ⟨rfl, rfl, by
    rw [readByte_length h1, readWord_length h2, readWord_length h3, readByte_length h4, readByte_length h5]; rfl⟩

theorem reads_idDecode : Reads 0x02 readIdDecode := by
  intro r i h
  simp only [readIdDecode, bind, Option.bind_eq_some_iff, Prod.exists, atEnd_eq_some] at h
  obtain ⟨ty, _, h1, raw, _, h2, rfl, rfl⟩ := h
  exact ⟨rfl, rfl, by rw [readByte_length h1, readWord_length h2]; rfl⟩

theorem reads_nameEncode : Reads 0x10 readNameEncode := by
  intro r i h
  simp only [readNameEncode, bind, Option.bind_eq_some_iff, Prod.exists, atEnd_eq_some] at h
  obtain ⟨_, _, h0, _, _, h1, _, _, h2, _, _, h3, _, _, h4, _, _, h5, _, _, h6, _, _, h7, _, _, h8, _, _, h9, rfl, rfl⟩ := h
  exact ⟨rfl, rfl, by
    rw [readWord_length h0, readWord_length h1, readWord_length h2, readWord_length h3, readWord_length h4, readWord_length h5,
      readWord_length h6, readWord_length h7, readWord_length h8, readByte_length h9]; rfl⟩

theorem reads_nameCmp : Reads 0x12 readNameCmp := by
  intro r i h
  simp only [readNameCmp, bind, Option.bind_eq_some_iff, Prod.exists, atEnd_eq_some] at h
  obtain ⟨a, _, h1, b, _, h2, rfl, rfl⟩ := h
  exact ⟨rfl, rfl, by rw [readName_length h1, readName_length h2]; rfl⟩

theorem reads_nameMatch : Reads 0x13 readNameMatch := by
  intro r i h
  simp only [readNameMatch, bind, Option.bind_eq_some_iff, Prod.exists, atEnd_eq_some] at h
  obtain ⟨n, _, h1, count, _, h2, fs, _, h3, rfl, rfl⟩ := h
  obtain ⟨hn, h3⟩ := readFilters_length h3
  refine ⟨rfl, decide_eq_true hn, ?_⟩
  rw [readName_length h1, readByte_length h2, h3, operandBytes, List.length_append, List.length_append, filterBytes_length,
    Machine.leBytes_length, hn]
  simp; omega

theorem reads_txSend : Reads 0x40 readTxSend := by
  intro r i h
  simp only [readTxSend, bind, Option.bind_eq_some_iff, Prod.exists] at h
  obtain ⟨now, _, h1, channel, _, h2, pgn, _, h3, prio, _, h4, src, _, h5, dst, _, h6, len, payload, h7, h8⟩ := h
  split at h8
  · rename_i hlen
    cases h8
    refine ⟨rfl, decide_eq_true hlen, ?_⟩
    rw [readWord_length h1, readWord_length h2, readWord_length h3, readByte_length h4, readByte_length h5, readByte_length h6,
      readWord_length h7]
    simp [operandBytes, Machine.leBytes_length]; omega
  · cases h8

theorem reads_rxFrame : Reads 0x41 readRxFrame := by
  intro r i h
  simp only [readRxFrame, bind, Option.bind_eq_some_iff, Prod.exists] at h
  obtain ⟨channel, _, h1, identifier, _, h2, length, _, h3, extended, _, h4, timestamp, data, h5, h6⟩ := h
  cases h6
  refine ⟨rfl, rfl, ?_⟩
  rw [readWord_length h1, readWord_length h2, readByte_length h3, readByte_length h4, readWord_length h5]
  simp [operandBytes, Machine.leBytes_length]; omega

theorem reads_update : Reads 0x42 readUpdate := by
  intro r i h
  simp only [readUpdate, bind, Option.bind_eq_some_iff, Prod.exists, atEnd_eq_some] at h
  obtain ⟨now, _, h1, rfl, rfl⟩ := h
  exact ⟨rfl, rfl, by rw [readWord_length h1]; rfl⟩

theorem reads_sessionAbort : Reads 0x43 readSessionAbort := by
  intro r i h
  simp only [readSessionAbort, bind, Option.bind_eq_some_iff, Prod.exists, atEnd_eq_some] at h
  obtain ⟨now, _, h1, ch, _, h2, src, _, h3, dst, _, h4, dir, _, h5, rfl, rfl⟩ := h
  exact ⟨rfl, rfl, by
    rw [readWord_length h1, readWord_length h2, readByte_length h3, readByte_length h4, readByte_length h5]; rfl⟩

/-- Every reader of the opcode map (30_encoding.md R81), arm by arm. -/
theorem recordReader_reads {op : Byte} {read : List Byte → Option Instr} (h : recordReader op = some read) : Reads op read := by
  unfold recordReader at h
  split at h
  case h_31 => cases h
  all_goals
    rename_i hop
    cases h
    replace hop := congrArg (BitVec.ofNat 8) hop
    rw [BitVec.ofNat_toNat, BitVec.setWidth_eq] at hop
    subst hop
  case h_1 => exact reads_idEncode
  case h_2 => exact reads_idDecode
  case h_3 => exact reads_nameEncode
  case h_5 => exact reads_nameCmp
  case h_6 => exact reads_nameMatch
  case h_25 => exact reads_txSend
  case h_26 => exact reads_rxFrame
  case h_27 => exact reads_update
  case h_28 => exact reads_sessionAbort
  case h_29 | h_30 => exact reads_atEnd rfl rfl
  case h_4 | h_7 | h_8 | h_9 | h_10 | h_11 | h_12 | h_13 | h_14 | h_15 =>
    exact reads_nameRecord (fun _ => rfl) (fun _ => rfl) fun _ => rfl
  all_goals exact reads_setRecord (fun _ _ => rfl) (fun _ _ => rfl) fun _ _ => rfl

/-- A record that decodes was read by the reader of its opcode. -/
theorem decode_eq_ok {record : List Byte} {i : Instr} (h : decode record = .ok i) :
    ∃ op r read, record = op :: r ∧ recordReader op = some read ∧ read r = some i := by
  cases record with
  | nil => cases h
  | cons op r =>
    simp only [decode] at h
    split at h
    · cases h
    · rename_i read hread
      split at h
      · rename_i j hj
        cases h
        exact ⟨op, r, read, rfl, hread, hj⟩
      · cases h

/-- Settles O2: the reader of the record's opcode answers only well-formed commands of that opcode and of as many bytes as it read. -/
theorem aRecordsLengthFollowsFromItsOpcode : Obligations.ARecordsLengthFollowsFromItsOpcode := by
  intro record i h
  obtain ⟨op, r, read, rfl, hread, hr⟩ := decode_eq_ok h
  obtain ⟨hop, hw, hlen⟩ := recordReader_reads hread r i hr
  exact ⟨hw, by rw [hop]; rfl, congrArg (· + 1) hlen⟩

/-- Settles O3: each word is read byte by byte. -/
theorem opcodeWordsReadAsTheirCommands : Obligations.OpcodeWordsReadAsTheirCommands := by
  unfold Obligations.OpcodeWordsReadAsTheirCommands
  decide

end Sys2Proof

namespace Sys2Proof.Machine

/-! ### Steps -/

theorem State.take_cons {s : State} {record : List Byte} {reg : Registry} {rest : List Command}
    (h : s.inbox = ⟨record, reg⟩ :: rest) : s.take = some (record, { s with inbox := rest, registry := reg }) := by
  simp only [State.take, h]

/-- Settles O4: the oldest command is taken and its record decoded. -/
theorem aStepRunsTheDecodedCommand : Obligations.AStepRunsTheDecodedCommand := by
  intro s record reg rest i hin hdec
  simp only [step, State.take_cons hin, hdec]

/-- Settles O5: without a command nothing is taken, and a record that is no operand record has no command. -/
theorem aStepWithoutACommandChangesNothing : Obligations.AStepWithoutACommandChangesNothing := by
  refine ⟨fun s hin => ?idle, fun s record reg rest hin hdec => ?malformed⟩
  case idle => simp only [step, State.take, hin]
  case malformed => rcases hdec with hdec | ⟨op, hdec⟩ <;> simp only [step, State.take_cons hin, hdec]

end Sys2Proof.Machine
end

section
/-! PROOFS. Good states (Safety.lean): every command answers from one, and answers one. The handlers and the service of the slots each do (SUPPORT above); here they are put together by the routing of a frame, the modes of a message, and the commands. -/

namespace Sys2Proof.Machine

/-! ### RX_FRAME -/

section Frames
variable {f : Frame} {s : State} (hs : s.wf)
include hs

/-- A control frame answers a good state; an RTS is only for one address. -/
theorem rxControl_answersGood {m : Mode} {kind : Option ControlKind} {sa da : Addr} (hm : m ≠ .bam)
    (hc : f.channel.toNat < s.cfg.numChannels) (hda : kind = some .rts → da ≠ globalAddr) :
    AnswersGood (rxControl f m kind sa da s) := by
  cases kind with
  | none => exact dropFrame_answersGood hs _
  | some kind =>
    cases kind with
    | rts => exact rxRts_answersGood hs hm hc (hda rfl)
    | cts => exact ⟨_, rfl, rxCts_wf hs hm⟩
    | eoma => exact rxEoma_answersGood hs
    | dpo => exact ⟨_, rfl, rxDpo_wf hs⟩
    | announce => exact ⟨_, rfl, rxAnnounce_wf hs hc⟩
    | abort => exact ⟨_, rfl, rxAbort_wf hs⟩

variable (hlegal : ¬frameIllegal s.cfg f = true)
include hlegal

theorem tseRx_answersGood : AnswersGood (tseRx f s) := by
  rw [frameIllegal_iff] at hlegal
  have hc : f.channel.toNat < s.cfg.numChannels := by omega
  simp only [tseRx]
  split
  · exact dropFrame_answersGood hs _
  have hdata : f.data.length = 8 := by omega
  split
  · exact ⟨s, rfl, hs⟩
  split
  · exact dropFrame_answersGood hs _
  rename_i hbad
  have hbad := Bool.eq_false_iff.mpr hbad
  split
  · rename_i hg
    exact rxControl_answersGood hs (by decide) hc fun hk => not_global_of_rts hbad (.inl ⟨hg, hk⟩)
  split
  · rename_i hg
    exact rxControl_answersGood hs (by decide) hc fun _ => not_global_of_rts hbad (.inr hg)
  split
  · split
    · exact rxBamData_answersGood hs hdata
    · exact rxData_answersGood hs (by decide) hdata
  · exact rxData_answersGood hs (by decide) hdata

theorem routeFrame_answersGood : AnswersGood (routeFrame f s) := by
  have passed : AnswersGood (.ok (s.emit (.passthrough f))) := ⟨_, rfl, State.wf_congr hs rfl rfl⟩
  simp only [routeFrame]
  split
  · exact passed
  split
  · exact dropFrame_answersGood hs _
  split
  · exact tseRx_answersGood hs hlegal
  · exact passed

end Frames

/-! ### TX_SEND, SESSION_ABORT and RESET -/

/-- The length of a message sent in a mode is within the mode's (43_block_commands.md R302). -/
theorem selectMode_length {len : Nat} {absent : Bool} {m : Mode}
    (h : (m = .tp ∧ selectMode len absent = .tp) ∨ (m = .bam ∧ selectMode len absent = .bam) ∨ (m = .etp ∧ selectMode len absent = .etp)) :
    9 ≤ len ∧ len ≤ m.maxLen := by
  simp only [selectMode, sfMaxLen, tpMaxLen, etpMaxLen] at h
  by_cases h1 : len ≤ 8
  · simp [h1] at h
  by_cases h2 : len ≤ 1785
  · cases absent <;> simp [h1, h2] at h <;> subst h <;> simp only [Mode.maxLen, tpMaxLen] <;> omega
  by_cases h3 : len ≤ 117440505
  · cases absent <;> simp [h1, h2, h3] at h
    subst h; simp only [Mode.maxLen, etpMaxLen]; omega
  · simp [h1, h2, h3] at h

section Send
variable {q : SendRequest} {s : State} (hs : s.wf) (hc : q.channel.toNat < s.cfg.numChannels) (hp : q.payload.length = q.len.toNat)
include hs hc hp

theorem openPeer_answersGood {m : Mode} (hm : m ≠ .bam) (hd : q.dst ≠ globalAddr) (hl : 9 ≤ q.len.toNat ∧ q.len.toNat ≤ m.maxLen) :
    ∃ b t, openPeer q m s = .ok (b, t) ∧ t.wf := by
  simp only [openPeer]
  split
  · exact ⟨_, _, rfl, hs⟩
  · rename_i hkey
    exact openTx_answersGood hs hc hp (iff_of_false hm hd) (by omega) hl.2 (.inl ⟨hm, rfl⟩)
      (State.findSlot_eq_none.mp (by simpa using hkey)) fun hb => absurd hb hm

theorem openBam_answersGood (hl : 9 ≤ q.len.toNat ∧ q.len.toNat ≤ Mode.maxLen .bam) : ∃ b t, openBam q s = .ok (b, t) ∧ t.wf := by
  have keyed : s.Keyed := ⟨hs.2.2.2, State.globalIsBam_iff.mpr fun _ _ hx => (State.wf_session hs hx).global⟩
  simp only [openBam]
  split
  · exact ⟨_, _, rfl, hs⟩
  · rename_i hidle
    have hidle := Bool.eq_false_iff.mpr hidle
    exact openTx_answersGood hs hc hp (iff_of_true rfl rfl) (by omega) hl.2 (.inr ⟨rfl, rfl⟩) (keyed.globalKeyFree hidle q.src)
      fun _ => hidle

theorem sendMessage_answersGood : ∃ b t, sendMessage q s = .ok (b, t) ∧ t.wf := by
  simp only [sendMessage]
  split
  · split
    · exact ⟨_, _, rfl, hs⟩
    · exact ⟨_, _, rfl, State.wf_congr hs rfl rfl⟩
    · rename_i hm
      exact openPeer_answersGood hs hc hp (by decide) (by simpa using not_absent_of_selectMode (.inl hm)) (selectMode_length (.inl ⟨rfl, hm⟩))
    · rename_i hm
      exact openBam_answersGood hs hc hp (selectMode_length (.inr (.inl ⟨rfl, hm⟩)))
    · rename_i hm
      exact openPeer_answersGood hs hc hp (by decide) (by simpa using not_absent_of_selectMode (.inr hm))
        (selectMode_length (.inr (.inr ⟨rfl, hm⟩)))
  · exact ⟨_, _, rfl, hs⟩

end Send

theorem appAbort_wf {s : State} (hs : s.wf) (ch : Channel) (src dst : Addr) (dir : Dir) : (appAbort ch src dst dir s).2.wf := by
  simp only [appAbort]
  split
  · rename_i i x hf
    obtain ⟨t, ht, hw⟩ := (abortSession_keeps (State.findSlot_eq_some hf).1 .appAbort (x.mode != .bam)).wf hs
    cases ht; exact hw
  · exact hs

theorem resetBlock_wf {s : State} (hs : s.wf) : s.resetBlock.wf := State.wf_of_slots_free hs.1 rfl

/-! ### Commands and steps -/

/-- A transport command whose work answers a good state answers one. -/
theorem finish_good {r : Except Fault State} (h : AnswersGood r) : ∃ t, finish r = .next t ∧ t.wf := by
  obtain ⟨t, rfl, hw⟩ := h
  exact ⟨_, rfl, State.wf_congr hw rfl rfl⟩

/-- TX_SEND on a channel of the block is done with what its body answered. -/
theorem exec_txSend_legal {q : SendRequest} {s t : State} {b : Bool} (hc : ¬channelIllegal s.cfg q.channel = true)
    (h : sendMessage q s = .ok (b, t)) : exec (.txSend q) s = t.done fun p => { p with accepted := b } := by
  simp only [exec, execTxSend, if_neg hc, h]

/-- From a good state every well-formed command answers a good state. -/
theorem exec_good {s : State} {i : Instr} (hs : s.wf) (hi : i.wf = true) : ∃ t, exec i s = .next t ∧ t.wf := by
  have replied (w : Ports → Ports) : (s.reply w).wf := State.wf_congr hs rfl rfl
  by_cases hcodec : isCodec i = true
  · obtain ⟨w, hw⟩ := exec_codec_reply hcodec s
    exact ⟨_, hw, replied w⟩
  cases i with
  | txSend q =>
    by_cases hc : channelIllegal s.cfg q.channel = true
    · exact ⟨_, exec_txSend_illegal hc, replied _⟩
    · obtain ⟨b, t, ht, hw⟩ := sendMessage_answersGood hs (Nat.lt_of_not_le (mt channelIllegal_iff.mpr hc)) (of_decide_eq_true hi)
      exact ⟨_, exec_txSend_legal hc ht, State.wf_congr hw rfl rfl⟩
  | rxFrame f =>
    by_cases hl : frameIllegal s.cfg f = true
    · exact ⟨_, exec_rxFrame_illegal hl, replied _⟩
    · simp only [exec, execRxFrame, if_neg hl]
      exact finish_good (routeFrame_answersGood hs hl)
  | update now => exact finish_good (serviceSlots_answersGood hs)
  | sessionAbort now ch src dst dir =>
    by_cases hc : channelIllegal s.cfg ch = true
    · exact ⟨_, exec_sessionAbort_illegal hc now src dst dir, replied _⟩
    · simp only [exec, execSessionAbort, if_neg hc]
      exact ⟨_, rfl, State.wf_congr (appAbort_wf hs ch src dst dir) rfl rfl⟩
  | status => exact ⟨_, rfl, replied _⟩
  | reset => exact ⟨_, rfl, State.wf_congr (resetBlock_wf hs) rfl rfl⟩
  | _ => exact absurd rfl hcodec

/-- A command run from a good state leaves a good one. -/
theorem exec_wf {s t : State} {i : Instr} (hs : s.wf) (hi : i.wf = true) (h : exec i s = .next t) : t.wf := by
  obtain ⟨u, hu, hw⟩ := exec_good hs hi
  rw [h] at hu; cases hu; exact hw

/-- Taking a command leaves the block as it is: only the queue and the registry's answers move. -/
theorem State.take_cfg {s u : State} {record : List Byte} (h : s.take = some (record, u)) : u.cfg = s.cfg := by
  simp only [State.take] at h
  split at h <;> cases h
  rfl

/-- Settles O53: each command's work answers from a good state, since every buffer access of a good session is within its bound. -/
theorem goodStatesNeverStop : Obligations.GoodStatesNeverStop := by
  intro s i hs hi
  obtain ⟨t, ht, -⟩ := exec_good hs hi
  exact ⟨t, ht⟩

/-- Settles O52: a record that decodes gives a well-formed command, and each command's work leaves good sessions with unique keys. -/
theorem goodStatesStayGood : Obligations.GoodStatesStayGood := by
  intro s t hs h
  obtain rfl | ⟨record, u, hu, hrun⟩ := step_eq_next h
  · exact hs
  have taken : u.wf := State.wf_congr hs (State.take_cfg hu) (State.take_slots hu)
  obtain ⟨op, -, hill⟩ | ⟨i, hdec, hex⟩ := hrun
  · cases hill; exact State.wf_congr taken rfl rfl
  · obtain ⟨hwf, -, -⟩ := aRecordsLengthFollowsFromItsOpcode record i hdec
    exact exec_wf taken hwf hex

end Sys2Proof.Machine
end

section
/-! PROOFS. What a command appends (60_exceptions.md R353, R355; 10_state.md R26): the frames it offers, its events, and among these the deliveries under the message ids in order. Each operation is walked through once for all three; for one session's work the frames are those of that session. -/

namespace Sys2Proof.Machine

/-! ### Appending to the outputs -/

/-- `n` message ids in order, the first `first`, modulo 2^64. -/
def messageIds (first : BitVec 64) (n : Nat) : List (BitVec 64) := (List.range n).map fun k => first + BitVec.ofNat 64 k

theorem messageIds_add (first : BitVec 64) (m n : Nat) :
    messageIds first (m + n) = messageIds first m ++ messageIds (first + BitVec.ofNat 64 m) n := by
  simp [messageIds, List.range_add, BitVec.ofNat_add, BitVec.add_assoc]

theorem deliveredIds_append (es fs : List Event) : deliveredIds (es ++ fs) = deliveredIds es ++ deliveredIds fs := by
  induction es with
  | nil => rfl
  | cons e es ih => cases e <;> simp [deliveredIds, ih]

/-- From `s` to `t` the outputs have grown: frames of which `P` holds were offered, and each delivery took the next message id. -/
structure Grows (P : Config → Offer → Prop) (s t : State) : Prop where
  cfg     : t.cfg = s.cfg
  offered : ∃ os, t.offered = s.offered ++ os ∧ ∀ o ∈ os, P s.cfg o
  events  : ∃ es n, t.events = s.events ++ es ∧ deliveredIds es = messageIds s.nextMsgId n ∧
              t.nextMsgId = s.nextMsgId + BitVec.ofNat 64 n

namespace Grows
variable {P Q : Config → Offer → Prop} {s t u : State}

/-- Work that leaves the outputs and the message id as they are. -/
theorem quiet (hc : t.cfg = s.cfg) (ho : t.offered = s.offered) (he : t.events = s.events) (hn : t.nextMsgId = s.nextMsgId) :
    Grows P s t :=
  ⟨hc, ⟨[], by simp [ho], by simp⟩, ⟨[], 0, by simp [he], rfl, by simp [hn]⟩⟩

theorem refl (s : State) : Grows P s s := .quiet rfl rfl rfl rfl

theorem trans (h : Grows P s t) (k : Grows P t u) : Grows P s u := by
  obtain ⟨os, ho, hP⟩ := h.offered
  obtain ⟨os', ho', hP'⟩ := k.offered
  obtain ⟨es, m, he, hid, hn⟩ := h.events
  obtain ⟨fs, n, he', hid', hn'⟩ := k.events
  refine ⟨k.cfg.trans h.cfg, ⟨os ++ os', by rw [ho', ho, List.append_assoc], fun o hmem => ?_⟩, es ++ fs, m + n, ?_, ?_, ?_⟩
  · exact (List.mem_append.mp hmem).elim (hP o) fun ho => h.cfg ▸ hP' o ho
  · rw [he', he, List.append_assoc]
  · rw [deliveredIds_append, hid, hid', hn, messageIds_add]
  · rw [hn', hn, BitVec.add_assoc, BitVec.ofNat_add]

theorem mono (h : Grows P s t) (hPQ : ∀ c o, P c o → Q c o) : Grows Q s t := by
  obtain ⟨hc, ⟨os, ho, hP⟩, he⟩ := h
  exact ⟨hc, ⟨os, ho, fun o hmem => hPQ _ o (hP o hmem)⟩, he⟩

theorem send {ch : Channel} {id : Word} {d : List Byte} (h : P s.cfg ⟨s.emitted ch id d, s.driverAccepts⟩) : Grows P s (s.send ch id d) :=
  ⟨rfl, ⟨[_], rfl, by simpa using h⟩, ⟨[], 0, by simp, rfl, by simp⟩⟩

theorem emit {e : Event} (h : deliveredIds [e] = []) : Grows P s (s.emit e) :=
  ⟨rfl, ⟨[], by simp, by simp⟩, ⟨[e], 0, rfl, h, by simp⟩⟩

/-- Work on a slot just written. -/
theorem of_setSlot {i : Nat} {y : Option Session} (h : Grows P (s.setSlot i y) t) : Grows P s t :=
  .trans (t := s.setSlot i y) (.quiet rfl rfl rfl rfl) h

/-- The drawing of the ports at a command's end. -/
theorem reply (h : Grows P s t) (w : Ports → Ports) : Grows P s (t.reply w) := h.trans (.quiet rfl rfl rfl rfl)

/-- The outputs of a session that completes: a receiver's message goes out under the next message id. -/
theorem complete {i : Nat} {x : Session} (h : complete i x s = .ok t) : Grows P s t := by
  rcases complete_eq_ok h with ⟨-, p, -, rfl⟩ | ⟨-, rfl⟩
  · exact ⟨rfl, ⟨[], by simp, by simp⟩, ⟨[_], 1, rfl, by simp [deliveredIds, messageIds], rfl⟩⟩
  · exact .trans (.emit rfl) (.quiet rfl rfl rfl rfl)

end Grows

/-! ### The frames of one session -/

/-- An engine frame that session `x` sends: on its channel, a data frame of a sender or a connection-management frame. -/
structure Session.Sends (x : Session) (c : Config) (o : Offer) : Prop where
  engine  : engineOffer c o
  channel : o.frame.channel = x.channel
  kind    : (x.dir = .tx ∧ o.frame.identifier = dataId c x) ∨
              ∃ g ∈ [pgnTpCm, pgnEtpCm], ∃ da sa, o.frame.identifier = transportId c g da sa

theorem Session.Kin.sends {x y : Session} (h : x.Kin y) {c : Config} {o : Offer} (ho : y.Sends c o) : x.Sends c o where
  engine := ho.engine
  channel := ho.channel.trans h.channel
  kind := by
    have same : dataId c y = dataId c x := by rw [dataId, dataId, h.mode, h.dst, h.src]
    rw [← h.dir, ← same]; exact ho.kind

/-- The frames of a later stage of a session are the session's. -/
theorem Grows.of_kin {x y : Session} {s t : State} (hk : x.Kin y) (h : Grows y.Sends s t) : Grows x.Sends s t :=
  h.mono fun _ _ => hk.sends

theorem cmPgn_mem_control (m : Mode) : cmPgn m ∈ [pgnTpCm, pgnEtpCm] := by cases m <;> decide

/-- A control frame's identifier is that of a connection-management frame. -/
theorem build_control (c : Config) (x : Session) (k : Control) :
    ∃ g ∈ [pgnTpCm, pgnEtpCm], ∃ da sa, (build c x k).1 = transportId c g da sa := by
  cases k with
  | rts | cts | eoma => exact ⟨_, cmPgn_mem_control x.mode, _, _, rfl⟩
  | dpo => exact ⟨pgnEtpCm, by decide, _, _, rfl⟩
  | announce => exact ⟨pgnTpCm, by decide, _, _, rfl⟩

section Work
variable {i : Nat} {x : Session} {s t : State} {now : Millis}

theorem sendControl_grows (k : Control) : Grows x.Sends s (s.sendControl x k) :=
  .send ⟨(build_engineFrame s.cfg x k).offer s x.channel, rfl, .inr (build_control s.cfg x k)⟩

theorem sendData_grows {d : List Byte} (hd : x.dir = .tx) (h : d.length = 8) : Grows x.Sends s (s.send x.channel (dataId s.cfg x) d) :=
  .send ⟨(dataId_engineFrame s.cfg x h).offer s x.channel, rfl, .inl ⟨hd, rfl⟩⟩

theorem abortSession_grows (i : Nat) (x : Session) (r : AbortReason) (n : Bool) (s : State) : Grows x.Sends s (abortSession i x r n s) := by
  have ended (u : State) (c : Byte) : Grows x.Sends u ((u.emit (.aborted x.channel x.mode x.dir x.pgn x.src x.dst c)).free i) :=
    .trans (.emit rfl) (.quiet rfl rfl rfl rfl)
  simp only [abortSession]
  split
  · refine .of_setSlot (.trans (.send ?_) (ended _ _))
    exact ⟨engineFrame.offer ⟨abortData_length _ _, _, cmPgn_mem _, _, _, rfl⟩ _ _, rfl, .inr ⟨_, cmPgn_mem_control _, _, _, rfl⟩⟩
  · exact .of_setSlot (ended _ _)

theorem offer_grows {k : Control} (h : offer now i x k s = .ok t) : Grows x.Sends s t := by
  have sent := sendControl_grows (s := s) (x := x) k
  cases ha : s.driverAccepts with
  | false =>
    rw [offer_refused ha] at h; cases h
    exact sent.trans (.quiet rfl rfl rfl rfl)
  | true =>
    rw [offer_accepted ha] at h
    refine sent.trans ?_
    cases k with
    | eoma => exact .complete h
    | rts | cts | dpo | announce => cases h; exact .quiet rfl rfl rfl rfl

theorem txBurstLoop_grows : ∀ {n : Nat} {x : Session} {s : State}, x.dir = .tx → txBurstLoop now i n x s = .ok t → Grows x.Sends s t := by
  intro n
  induction n with
  | zero =>
    intro x s _ h
    cases h
    simp only [burstDone]
    split <;> exact .quiet rfl rfl rfl rfl
  | succ n ih =>
    intro x s hd h
    simp only [txBurstLoop] at h
    split at h
    · cases h
    · rename_i d hdata
      have sent := sendData_grows (s := s) hd (dataFrame_length hdata)
      split at h
      · have next : x.Kin { x with lastActivity := now, nextPkt := x.nextPkt + 1#32, burstLeft := x.burstLeft - 1#8 } :=
          ⟨rfl, rfl, rfl, rfl, rfl, rfl, rfl, rfl, rfl, fun _ => rfl⟩
        exact sent.trans (.of_setSlot (.of_kin next (ih hd h)))
      · cases h; exact sent

theorem bamPace_grows (hd : x.dir = .tx) (h : bamPace now i x s = .ok t) : Grows x.Sends s t := by
  simp only [bamPace] at h
  split at h
  · split at h
    · cases h
    · rename_i d hdata
      have sent := sendData_grows (s := s) hd (dataFrame_length hdata)
      split at h
      · split at h
        · exact sent.trans (.of_setSlot (.complete h))
        · cases h; exact sent.trans (.of_setSlot (.refl _))
      · cases h; exact sent
  · cases h; exact .refl s

theorem serviceWork_grows (hx : s.slot i = some x) (h : serviceWork now i x s = .ok t) : Grows x.Sends s t := by
  simp only [serviceWork] at h
  split at h
  · rename_i hd _
    have sending : x.Kin { x with state := .sending } := ⟨rfl, rfl, rfl, rfl, rfl, rfl, rfl, rfl, rfl, fun _ => rfl⟩
    exact .of_setSlot (.of_kin sending (txBurstLoop_grows hd h))
  · rename_i hd _
    split at h
    · cases h
    · rename_i u hu
      have offered := offer_grows hu
      split at h
      · rename_i y hy
        obtain ⟨z, hz, kin⟩ := (offer_serves hx hu).kin y hy
        obtain rfl : x = z := Option.some.inj (hx.symm.trans hz)
        split at h
        · exact offered.trans (.of_kin kin (txBurstLoop_grows (kin.dir.trans hd) h))
        · cases h; exact offered
      · cases h; exact offered
  · rename_i hd _; exact txBurstLoop_grows hd h
  · rename_i hd _; exact txBurstLoop_grows hd h
  · rename_i hd _; exact bamPace_grows hd h
  · rename_i hd _; exact bamPace_grows hd h
  · cases h; exact .refl s

/-- The service of a slot offers frames of its session alone. -/
theorem serviceSlot_grows (hx : s.slot i = some x) (h : serviceSlot now i x s = .ok t) : Grows x.Sends s t := by
  simp only [serviceSlot] at h
  split at h
  · split at h
    · cases h; exact abortSession_grows i x _ _ s
    · exact serviceWork_grows hx h
  · split at h
    · cases h
    · rename_i u hu
      have offered := offer_grows hu
      split at h
      · rename_i y hy
        obtain ⟨z, hz, kin⟩ := (offer_serves hx hu).kin y hy
        obtain rfl : x = z := Option.some.inj (hx.symm.trans hz)
        split at h
        · exact offered.trans (.of_kin kin (serviceWork_grows hy h))
        · cases h; exact offered
      · cases h; exact offered

end Work

/-! ### UPDATE and the broadcast packets (42_session_engine.md R238, 70_reset_and_hazards.md R385) -/

/-- No field of a transport frame's identifier is lost: its PGN is PDU1 with PS = 0 (30_encoding.md R90). -/
theorem idDecode_transport {g : Pgn} (hg : g ∈ [pgnTpCm, pgnTpDt, pgnEtpCm, pgnEtpDt]) (p : BitVec 3) (da sa : Addr) :
    idDecode (idEncode p g da sa) = ⟨p, g, da, sa⟩ := by
  have pdu1 : bitField g.toNat 8 8 < 0xF0 ∧ g.toNat % 2 ^ 8 = 0 := by
    simp only [List.mem_cons, List.not_mem_nil, or_false] at hg
    rcases hg with rfl | rfl | rfl | rfl <;> decide
  exact idDecode_idEncode (fun _ => pdu1.2) fun h => absurd pdu1.1 (Nat.not_lt.mpr h)

/-- A broadcast data frame of a source is sent by a BAM sender with that source, since the global destination is BAM's alone. -/
theorem Session.Sends.broadcast {c : Config} {y : Session} {o : Offer} {src : Addr} (h : y.Sends c o) (good : y.Good c)
    (hid : o.frame.identifier = idEncode c.tpPriority 0xEB00 0xFF src) : y.dir = .tx ∧ y.mode = .bam := by
  have broadcast := idDecode_transport (g := pgnTpDt) (by decide) c.tpPriority 0xFF src
  rcases h.kind with ⟨hd, hdata⟩ | ⟨g, hg, da, sa, hcm⟩
  · have sent := idDecode_transport (dtPgn_mem y.mode) c.tpPriority y.dst y.src
    have same : idEncode c.tpPriority (dtPgn y.mode) y.dst y.src = idEncode c.tpPriority pgnTpDt 0xFF src := hdata.symm.trans hid
    rw [same, broadcast] at sent
    exact ⟨hd, good.global.mpr (IdFields.mk.inj sent).2.2.1.symm⟩
  · have sent := idDecode_transport (g := g) (by revert hg; simp; tauto) c.tpPriority da sa
    have same : idEncode c.tpPriority g da sa = idEncode c.tpPriority pgnTpDt 0xFF src := hcm.symm.trans hid
    rw [same, broadcast] at sent
    have : pgnTpDt = g := (IdFields.mk.inj sent).2.1
    simp [← this, pgnTpCm, pgnTpDt, pgnEtpCm] at hg

/-- A broadcast data frame of this source on this channel. -/
def isBroadcast (ch : Channel) (src : Addr) (c : Config) (o : Offer) : Prop :=
  o.frame.channel = ch ∧ o.frame.identifier = idEncode c.tpPriority 0xEB00 0xFF src

section Interval
variable {now : Millis} {i : Nat} {x : Session} {t : State} (hm : x.mode = .bam) (hd : x.dir = .tx)
include hm hd

/-- Another session of a good state offers no broadcast packet on the channel of a BAM sender, which is the only one there. -/
theorem Session.Sends.not_broadcast {s : State} (hs : s.wf) (hx : s.slot i = some x) {j : Nat} (hij : j ≠ i) {y : Session}
    (hy : s.slot j = some y) {o : Offer} (ho : y.Sends s.cfg o) : ¬isBroadcast x.channel x.src s.cfg o := by
  rintro ⟨hch, hid⟩
  obtain ⟨hyd, hym⟩ := ho.broadcast (State.wf_session hs hy) hid
  have same : y.channel = x.channel := ho.channel.symm.trans hch
  rcases Nat.lt_or_gt_of_ne hij with h | h
  · have := hs.2.2.2.not_clash hy hx h
    simp [clash, same, hm, hd, hym, hyd] at this
  · have := hs.2.2.2.not_clash hx hy h
    simp [clash, same, hm, hd, hym, hyd] at this

/-- While a BAM sender is within its interval the service of the slots leaves it, and offers no broadcast packet of its source. -/
theorem serviceSlots_within_interval (hp : x.pending = none) : ∀ {l : List Nat} {s : State}, s.wf → s.slot i = some x →
    (now - x.lastActivity).toNat < s.cfg.bamInterval.toNat → serviceSlots now l s = .ok t →
    t.slot i = some x ∧ Grows (fun c o => ¬isBroadcast x.channel x.src c o) s t := by
  intro l
  induction l with
  | nil => intro s _ hx _ h; cases h; exact ⟨hx, .refl _⟩
  | cons j l ih =>
    intro s hs hx hwithin h
    simp only [serviceSlots] at h
    split at h
    · exact ih hs hx hwithin h
    rename_i y hy
    obtain ⟨u, hu, serves, good⟩ := serviceSlot_keeps (now := now) hy (State.wf_session hs hy)
    rw [hu] at h
    by_cases hji : j = i
    · subst hji
      obtain rfl : x = y := Option.some.inj (hx.symm.trans hy)
      have idle : serviceSlot now j x s = .ok s := by
        rw [serviceSlot_bam (State.wf_session hs hx) hm hd hp, bamPace_within (Nat.not_le.mpr hwithin)]
      obtain rfl : s = u := Except.ok.inj (idle.symm.trans hu)
      exact ih hs hx hwithin h
    · have others := (serviceSlot_grows hy hu).mono (Q := fun c o => c = s.cfg → ¬isBroadcast x.channel x.src c o) fun c o ho hc => by
        subst hc; exact ho.not_broadcast hm hd hs hx hji hy
      obtain ⟨hslot, rest⟩ := ih (serves.wf hs good) ((serves.others i (Ne.symm hji)).trans hx) (serves.cfg ▸ hwithin) h
      obtain ⟨hc, ⟨os, ho, hos⟩, he⟩ := others
      exact ⟨hslot, .trans ⟨hc, ⟨os, ho, fun o hmem => hos o hmem rfl⟩, he⟩ rest⟩

end Interval

/-- Settles O49: the sender's own service does nothing within its interval, and no other session is a BAM sender on its channel. -/
theorem bamFramesKeepTheirInterval : Obligations.BamFramesKeepTheirInterval := by
  intro s t now i x hs hx hm hd hp hwithin h
  obtain ⟨u, w, hu, rfl⟩ := finish_eq_next h
  obtain ⟨hslot, grows⟩ := serviceSlots_within_interval hm hd hp hs hx hwithin hu
  obtain ⟨os, ho, hos⟩ := grows.offered
  refine ⟨hslot, fun o hmem => ?_⟩
  rw [State.reply_offered, ho, List.drop_left] at hmem
  exact hos o hmem

end Sys2Proof.Machine
end

section
/-! PROOFS. What every command but RESET appends to the outputs, handler by handler (42_session_engine.md sections 2 to 6), and from it the history of frames, events and message ids. -/

namespace Sys2Proof.Machine

/-- A session's frames are engine frames. -/
theorem Grows.engine {x : Session} {s t : State} (h : Grows x.Sends s t) : Grows engineOffer s t := h.mono fun _ _ ho => ho.engine

/-- A session that ends, its peer told or not. -/
theorem abortSession_engine (i : Nat) (x : Session) (r : AbortReason) (n : Bool) (s : State) :
    Grows engineOffer s (abortSession i x r n s) := (abortSession_grows i x r n s).engine

/-- A received frame dropped. -/
theorem dropFrame_engine (s : State) (c : DropCause) : Grows engineOffer s (s.dropFrame c) := .quiet rfl rfl rfl rfl

/-! ### RX_FRAME: the sender's side -/

section Frames
variable {f : Frame} {m : Mode} {sa da : Addr} {s t : State}

theorem grantCts_grows (f : Frame) (i : Nat) (x : Session) (s : State) : Grows engineOffer s (grantCts f i x s) := by
  simp only [grantCts]
  split
  · exact .of_setSlot (.refl _)
  split
  · exact abortSession_engine i x _ _ s
  · exact .of_setSlot (.refl _)

theorem rxCts_grows (f : Frame) (m : Mode) (sa da : Addr) (s : State) : Grows engineOffer s (rxCts f m sa da s) := by
  simp only [rxCts]
  split
  · exact dropFrame_engine s _
  rename_i i x _
  split
  · exact grantCts_grows f i x s
  · exact grantCts_grows f i x s
  · exact grantCts_grows f i x s
  · exact abortSession_engine i x _ _ s
  · exact dropFrame_engine s _

theorem rxEoma_grows (h : rxEoma f m sa da s = .ok t) : Grows engineOffer s t := by
  simp only [rxEoma] at h
  split at h
  · cases h; exact dropFrame_engine s _
  split at h
  · exact .complete h
  · cases h; exact dropFrame_engine s _

theorem endCandidate_grows (f : Frame) (c : Option (Nat × Session)) (s : State) : Grows engineOffer s (endCandidate f c s) := by
  cases c with
  | none => exact .refl s
  | some c => exact abortSession_engine c.1 c.2 _ _ s

theorem rxAbort_grows (f : Frame) (m : Mode) (sa da : Addr) (s : State) : Grows engineOffer s (rxAbort f m sa da s) := by
  simp only [rxAbort]
  split
  · exact dropFrame_engine s _
  · exact (endCandidate_grows f _ s).trans (endCandidate_grows f _ _)

/-! ### RX_FRAME: the receiver's side -/

theorem rxRts_grows (h : rxRts f m sa da s = .ok t) : Grows engineOffer s t := by
  have rejected (r : AbortReason) : Grows engineOffer s (sendAbort f.channel m sa da r f.pgnField s) :=
    .send (engineFrame.offer ⟨abortData_length _ _, _, cmPgn_mem _, _, _, rfl⟩ s _)
  simp only [rxRts] at h
  split at h
  · cases h; exact rejected _
  split at h
  · cases h; exact rejected _
  split at h
  · cases h; exact rejected _
  split at h
  · exact .of_setSlot (offer_grows h).engine
  · cases h; exact rejected _

theorem acceptData_grows {i : Nat} {x : Session} (h : acceptData f i x s = .ok t) : Grows engineOffer s t := by
  simp only [acceptData] at h
  split at h
  · split at h
    · cases h
    split at h
    · exact .of_setSlot (offer_grows h).engine
    split at h
    · exact .of_setSlot (offer_grows h).engine
    · cases h; exact .of_setSlot (.refl _)
  · cases h; exact abortSession_engine i x _ _ s

theorem rxData_grows (h : rxData f m sa da s = .ok t) : Grows engineOffer s t := by
  simp only [rxData] at h
  split at h
  · cases h; exact dropFrame_engine s _
  rename_i i x _
  split at h
  · cases h; exact dropFrame_engine s _
  split at h
  · cases h; exact abortSession_engine i x _ _ s
  · exact acceptData_grows h

theorem rxDpo_grows (f : Frame) (sa da : Addr) (s : State) : Grows engineOffer s (rxDpo f sa da s) := by
  simp only [rxDpo]
  split
  · exact dropFrame_engine s _
  rename_i i x _
  split
  · exact dropFrame_engine s _
  split
  · exact dropFrame_engine s _
  split
  · exact abortSession_engine i x _ _ s
  split
  · exact abortSession_engine i x _ _ s
  split
  · exact abortSession_engine i x _ _ s
  · exact .of_setSlot (.refl _)

theorem endOldReceiver_grows (f : Frame) (sa : Addr) (s : State) : Grows engineOffer s (endOldReceiver f sa s) := by
  simp only [endOldReceiver]
  split
  · exact abortSession_engine _ _ _ _ s
  · exact .refl s

theorem rxAnnounce_grows (f : Frame) (sa : Addr) (s : State) : Grows engineOffer s (rxAnnounce f sa s) := by
  have ended := endOldReceiver_grows f sa s
  simp only [rxAnnounce]
  split
  · exact dropFrame_engine s _
  split
  · exact ended.trans (dropFrame_engine _ _)
  split
  · exact ended.trans (.of_setSlot (.refl _))
  · exact ended.trans (dropFrame_engine _ _)

theorem rxBamData_grows (h : rxBamData f sa s = .ok t) : Grows engineOffer s t := by
  simp only [rxBamData] at h
  split at h
  · cases h; exact dropFrame_engine s _
  rename_i i x _
  split at h
  · split at h
    · cases h
    split at h
    · exact .of_setSlot (.complete h)
    · cases h; exact .of_setSlot (.refl _)
  · cases h; exact abortSession_engine i x _ _ s

/-! ### RX_FRAME: routing -/

theorem rxControl_grows {kind : Option ControlKind} (h : rxControl f m kind sa da s = .ok t) : Grows engineOffer s t := by
  cases kind with
  | none => cases h; exact dropFrame_engine s _
  | some kind =>
    cases kind with
    | rts => exact rxRts_grows h
    | cts => cases h; exact rxCts_grows f m sa da s
    | eoma => exact rxEoma_grows h
    | dpo => cases h; exact rxDpo_grows f sa da s
    | announce => cases h; exact rxAnnounce_grows f sa s
    | abort => cases h; exact rxAbort_grows f m sa da s

theorem tseRx_grows (h : tseRx f s = .ok t) : Grows engineOffer s t := by
  simp only [tseRx] at h
  split at h
  · cases h; exact dropFrame_engine s _
  split at h
  · cases h; exact .refl _
  split at h
  · cases h; exact dropFrame_engine s _
  split at h
  · exact rxControl_grows h
  split at h
  · exact rxControl_grows h
  split at h
  · split at h
    · exact rxBamData_grows h
    · exact rxData_grows h
  · exact rxData_grows h

theorem routeFrame_grows (h : routeFrame f s = .ok t) : Grows engineOffer s t := by
  simp only [routeFrame] at h
  split at h
  · cases h; exact .emit rfl
  split at h
  · cases h; exact dropFrame_engine s _
  split at h
  · exact tseRx_grows h
  · cases h; exact .emit rfl

end Frames

/-! ### UPDATE, TX_SEND and SESSION_ABORT -/

theorem serviceSlots_grows {now : Millis} : ∀ {l : List Nat} {s t : State}, serviceSlots now l s = .ok t → Grows engineOffer s t := by
  intro l
  induction l with
  | nil => intro s t h; cases h; exact .refl _
  | cons i l ih =>
    intro s t h
    simp only [serviceSlots] at h
    split at h
    · exact ih h
    rename_i x hx
    split at h
    · cases h
    rename_i u hu
    exact (serviceSlot_grows hx hu).engine.trans (ih h)

section Send
variable {q : SendRequest} {s t : State} {b : Bool}

theorem openTx_grows {m : Mode} {dst : Addr} {k : Control} (h : openTx q m dst k s = .ok (b, t)) : Grows engineOffer s t := by
  simp only [openTx] at h
  split at h
  · cases h; exact .refl _
  split at h
  · split at h
    · rename_i u hu
      cases h
      simp only [openSession] at hu
      split at hu
      · cases hu
      · exact .of_setSlot (offer_grows hu).engine
    · cases h
  · cases h; exact .refl _

theorem openPeer_grows {m : Mode} (h : openPeer q m s = .ok (b, t)) : Grows engineOffer s t := by
  simp only [openPeer] at h
  split at h
  · cases h; exact .refl _
  · exact openTx_grows h

theorem openBam_grows (h : openBam q s = .ok (b, t)) : Grows engineOffer s t := by
  simp only [openBam] at h
  split at h
  · cases h; exact .refl _
  · exact openTx_grows h

/-- A message of more than eight bytes goes by the engine; only a short one is a frame of its own. -/
theorem sendMessage_grows (h : sendMessage q s = .ok (b, t)) : Grows (fun c o => 8 < q.len.toNat → engineOffer c o) s t := by
  have engine {u : State} (hu : Grows engineOffer s u) : Grows (fun c o => 8 < q.len.toNat → engineOffer c o) s u :=
    hu.mono fun _ _ ho _ => ho
  simp only [sendMessage] at h
  split at h
  · split at h
    · cases h; exact .refl _
    · rename_i hmode
      cases h
      refine .send fun hlen => ?_
      have long : ¬q.len.toNat ≤ sfMaxLen := Nat.not_le.mpr hlen
      simp only [selectMode, if_neg long] at hmode
      (repeat' split at hmode) <;> cases hmode
    · exact engine (openPeer_grows h)
    · exact engine (openBam_grows h)
    · exact engine (openPeer_grows h)
  · cases h; exact .refl _

end Send

theorem appAbort_grows (ch : Channel) (src dst : Addr) (dir : Dir) (s : State) : Grows engineOffer s (appAbort ch src dst dir s).2 := by
  simp only [appAbort]
  split
  · exact abortSession_engine _ _ _ _ s
  · exact .refl s

/-! ### Commands and steps -/

/-- The frames a command may offer: engine frames, but for the single frame of a short message. -/
def Instr.offers (i : Instr) (c : Config) (o : Offer) : Prop := (∀ q, i = .txSend q → 8 < q.len.toNat) → engineOffer c o

/-- Every command but RESET appends to the outputs, and takes the message ids in order. -/
theorem exec_grows {i : Instr} {s t : State} (hi : i ≠ .reset) (h : exec i s = .next t) : Grows (Instr.offers i) s t := by
  have engine {u : State} (hu : Grows engineOffer s u) : Grows (Instr.offers i) s u := hu.mono fun _ _ ho _ => ho
  have replied (w : Ports → Ports) : Grows (Instr.offers i) s (s.reply w) := Grows.reply (.refl s) w
  by_cases hcodec : isCodec i = true
  · obtain ⟨w, hw⟩ := exec_codec_reply hcodec s
    rw [hw] at h; cases h; exact replied w
  cases i with
  | txSend q =>
    by_cases hc : channelIllegal s.cfg q.channel = true
    · rw [exec_txSend_illegal hc] at h; cases h; exact replied _
    · simp only [exec, execTxSend, if_neg hc] at h
      split at h
      · rename_i b u hu
        cases h
        exact .reply ((sendMessage_grows hu).mono fun _ _ ho hlen => ho (hlen q rfl)) _
      · cases h
  | rxFrame f =>
    by_cases hl : frameIllegal s.cfg f = true
    · rw [exec_rxFrame_illegal hl] at h; cases h; exact replied _
    · simp only [exec, execRxFrame, if_neg hl] at h
      obtain ⟨u, w, hu, rfl⟩ := finish_eq_next h
      exact .reply (engine (routeFrame_grows hu)) w
  | update now =>
    obtain ⟨u, w, hu, rfl⟩ := finish_eq_next h
    exact .reply (engine (serviceSlots_grows hu)) w
  | sessionAbort now ch src dst dir =>
    by_cases hc : channelIllegal s.cfg ch = true
    · rw [exec_sessionAbort_illegal hc] at h; cases h; exact replied _
    · simp only [exec, execSessionAbort, if_neg hc] at h
      cases h; exact .reply (engine (appAbort_grows ch src dst dir s)) _
  | status => cases h; exact replied _
  | reset => exact absurd rfl hi
  | _ => exact absurd rfl hcodec

/-- Settles O57: every delivery takes the id the register holds and moves it on by one, and nothing else moves it. -/
theorem messageIdsCountDeliveries : Obligations.MessageIdsCountDeliveries := by
  intro s t i hi h
  obtain ⟨es, n, he, hids, hn⟩ := (exec_grows hi h).events
  exact ⟨n, by rw [he, List.drop_left, hids, messageIds], hn⟩

/-- Settles O56: RESET offers nothing, and every frame of another command is the work of a session or the rejection of an RTS. -/
theorem engineFramesHaveEightBytes : Obligations.EngineFramesHaveEightBytes := by
  intro s t i h hlong o ho
  by_cases hi : i = .reset
  · subst hi; cases h; simp at ho
  obtain ⟨os, hos, hP⟩ := (exec_grows hi h).offered
  rw [hos, List.drop_left] at ho
  obtain ⟨⟨hdata, hid⟩, hlen, hext⟩ := hP o ho hlong
  exact ⟨hdata, hlen, hext, hid⟩

/-- A command keeps the configuration, and what it offers and reports stands behind what was there. -/
theorem exec_history {i : Instr} {s t : State} (h : exec i s = .next t) :
    t.cfg = s.cfg ∧ (∃ offers, t.offered = s.offered ++ offers) ∧ ∃ events, t.events = s.events ++ events := by
  by_cases hi : i = .reset
  · subst hi; cases h; exact ⟨rfl, ⟨[], by simp⟩, [], by simp⟩
  obtain ⟨hc, ⟨os, ho, -⟩, es, -, he, -⟩ := exec_grows hi h
  exact ⟨hc, ⟨os, ho⟩, es, he⟩

/-- Taking a command leaves the outputs. -/
theorem State.take_outputs {s u : State} {record : List Byte} (h : s.take = some (record, u)) :
    u.offered = s.offered ∧ u.events = s.events := by
  simp only [State.take] at h
  split at h <;> cases h
  exact ⟨rfl, rfl⟩

/-- Settles O55: taking a command touches neither, and the command appends. -/
theorem configurationAndHistoryAreNeverRewritten : Obligations.ConfigurationAndHistoryAreNeverRewritten := by
  intro s t h
  obtain rfl | ⟨record, u, hu, hrun⟩ := step_eq_next h
  · exact ⟨rfl, ⟨[], by simp⟩, [], by simp⟩
  obtain ⟨ho, he⟩ := State.take_outputs hu
  rw [← State.take_cfg hu, ← ho, ← he]
  obtain ⟨op, -, hill⟩ | ⟨i, -, hex⟩ := hrun
  · cases hill; exact ⟨rfl, ⟨[], by simp⟩, [], by simp⟩
  · exact exec_history hex

end Sys2Proof.Machine
end

section
/-! PROOFS. Which sessions a command reaches (10_state.md R30, 20_memory.md R64): a slot keeps its session, or was free, or held a session the command may touch; and a sender that stays keeps its message. -/

namespace Sys2Proof.Machine

/-! ### What becomes of a slot -/

/-- A slot that held `before` and holds `after`: it was left alone, or was free, or held a session of which `K` holds, whose message, if it is a sender's, is kept while it stays. -/
def Touched (K : Session → Prop) (before after : Option Session) : Prop :=
  after = before ∨ before = none ∨ ∃ x, before = some x ∧ K x ∧ (x.dir = .tx → ∀ y, after = some y → x.Kin y)

/-- From `s` to `t` no valid slot but those whose session meets `K` was touched. -/
def Reaches (K : Session → Prop) (s t : State) : Prop := ∀ j, Touched K (s.slot j) (t.slot j)

section Reach
variable {K : Session → Prop} {s t : State} {i : Nat} {x : Session}

theorem Touched.freed {before : Option Session} (h : before = some x) (hK : K x) : Touched K before none :=
  .inr (.inr ⟨x, h, hK, fun _ y hy => by cases hy⟩)

/-- A session that `K` leaves out is left alone. -/
theorem Reaches.untouched (h : Reaches K s t) (hx : s.slot i = some x) (hK : ¬K x) : t.slot i = some x := by
  rcases h i with h | h | ⟨y, hy, hKy, -⟩
  · exact h.trans hx
  · rw [hx] at h; cases h
  · obtain rfl : x = y := Option.some.inj (hx.symm.trans hy)
    exact absurd hKy hK

/-- A sender that stays keeps its message. -/
theorem Reaches.sender (h : Reaches K s t) (hx : s.slot i = some x) (hd : x.dir = .tx) {y : Session} (hy : t.slot i = some y) :
    x.Kin y := by
  rcases h i with h | h | ⟨z, hz, -, kin⟩
  · obtain rfl : y = x := Option.some.inj (hy.symm.trans (h.trans hx))
    exact .refl y
  · rw [hx] at h; cases h
  · obtain rfl : x = z := Option.some.inj (hx.symm.trans hz)
    exact kin hd y hy

theorem Reaches.of_slots (h : t.slots = s.slots) : Reaches K s t := fun j => .inl (by rw [State.slot, h]; rfl)

/-- Work on one slot whose session meets `K`. -/
theorem Serves.reaches (h : Serves i s t) (hx : s.slot i = some x) (hK : K x) : Reaches K s t := by
  intro j
  by_cases hj : j = i
  · subst hj
    refine .inr (.inr ⟨x, hx, hK, fun _ y hy => ?_⟩)
    obtain ⟨z, hz, kin⟩ := h.kin y hy
    obtain rfl : x = z := Option.some.inj (hx.symm.trans hz)
    exact kin
  · exact .inl (h.others j hj)

theorem Handles.reaches {ch : Channel} {src dst : Addr} {dir : Dir} (h : Handles s t ch src dst dir)
    (hK : ∀ x : Session, x.hasKey ch src dst dir = true → K x) : Reaches K s t := by
  obtain ⟨c, rfl⟩ | ⟨i, x, hx, h⟩ := h
  · exact .of_slots rfl
  · exact h.reaches hx.1 (hK x hx.2)

/-- A session opened in a free slot touches no other. -/
theorem Opens.reaches (h : Opens x s t) : Reaches K s t := by
  obtain ⟨i, buf, hi, h⟩ := h
  intro j
  by_cases hj : j = i
  · subst hj; exact .inr (.inl hi.2.1)
  · exact .inl ((h.others j hj).trans (s.slot_setSlot_ne (Ne.symm hj) _))

end Reach

/-! ### RX_FRAME -/

/-- A session of the two parties of a frame: the sender to the frame's source, or the receiver from it (42_session_engine.md section 2). -/
def Session.isParty (ch : Channel) (da sa : Addr) (x : Session) : Prop :=
  x.hasKey ch da sa .tx = true ∨ x.hasKey ch sa da .rx = true

section Frames
variable {f : Frame} {m : Mode} {sa da : Addr} {s t : State}

/-- The end of a candidate frees its slot alone. -/
theorem endCandidate_slot (f : Frame) (c : Option (Nat × Session)) (s : State) (j : Nat) :
    (endCandidate f c s).slot j = s.slot j ∨ ((endCandidate f c s).slot j = none ∧ ∃ x, c = some (j, x)) := by
  cases c with
  | none => exact .inl rfl
  | some c =>
    obtain ⟨i, x⟩ := c
    by_cases hj : j = i
    · subst hj; exact .inr ⟨abortSession_slot _ _, x, rfl⟩
    · left
      rw [endCandidate, State.slot, abortSession_slots]
      exact s.slot_free_ne (Ne.symm hj)

theorem rxAbort_reaches (f : Frame) (m : Mode) (sa da : Addr) (s : State) :
    Reaches (Session.isParty f.channel da sa) s (rxAbort f m sa da s) := by
  simp only [rxAbort]
  split
  · exact .of_slots rfl
  intro j
  have ended {src dst : Addr} {dir : Dir} {x : Session} (h : abortCandidate f m src dst dir s = some (j, x))
      (hK : x.hasKey f.channel src dst dir = true → x.isParty f.channel da sa) :
      Touched (Session.isParty f.channel da sa) (s.slot j) none := by
    obtain ⟨hx, hkey⟩ := abortCandidate_holds h
    exact .freed hx (hK hkey)
  rcases endCandidate_slot f (abortCandidate f m sa da .rx s) (endCandidate f (abortCandidate f m da sa .tx s) s) j with h | ⟨h, x, hx⟩
  · rw [h]
    rcases endCandidate_slot f (abortCandidate f m da sa .tx s) s j with h | ⟨h, x, hx⟩
    · exact .inl h
    · rw [h]; exact ended hx .inl
  · rw [h]; exact ended hx .inr

theorem rxRts_reaches {K : Session → Prop} (h : rxRts f m sa da s = .ok t) : Reaches K s t := by
  obtain ⟨r, rfl⟩ | ⟨-, h⟩ := rxRts_cases h
  · exact .of_slots rfl
  · exact h.reaches

/-- The old session of the peer is its receiver from us; only that one ends. -/
theorem endOldReceiver_slot (f : Frame) (sa : Addr) (s : State) (j : Nat) : (endOldReceiver f sa s).slot j = s.slot j ∨
    ∃ x, s.slot j = some x ∧ x.hasKey f.channel sa globalAddr .rx = true := by
  simp only [endOldReceiver]
  split
  · rename_i o x hf
    obtain ⟨hx, hkey⟩ := State.findSlot_eq_some hf
    by_cases hj : j = o
    · subst hj; exact .inr ⟨x, hx, hkey⟩
    · exact .inl ((abortSession_serves o .anyOther false hx).others j hj)
  · exact .inl rfl

theorem rxAnnounce_reaches (f : Frame) (sa : Addr) (s : State) :
    Reaches (Session.isParty f.channel globalAddr sa) s (rxAnnounce f sa s) := by
  have after {u : State} (h : Reaches (Session.isParty f.channel globalAddr sa) (endOldReceiver f sa s) u) :
      Reaches (Session.isParty f.channel globalAddr sa) s u := by
    intro j
    rcases endOldReceiver_slot f sa s j with hold | ⟨x, hx, hkey⟩
    · rw [← hold]; exact h j
    · refine .inr (.inr ⟨x, hx, .inr hkey, fun hd => ?_⟩)
      have := (Session.hasKey_iff.mp hkey).2.2.2
      rw [hd] at this; cases this
  obtain ⟨c, h⟩ | ⟨c, h⟩ | h := rxAnnounce_cases f sa s
  · rw [h]; exact .of_slots rfl
  · rw [h]; exact after (.of_slots rfl)
  · exact after h.reaches

theorem rxControl_reaches {kind : Option ControlKind} (hda : kind = some .announce → da = globalAddr)
    (h : rxControl f m kind sa da s = .ok t) : Reaches (Session.isParty f.channel da sa) s t := by
  cases kind with
  | none => cases h; exact .of_slots rfl
  | some kind =>
    cases kind with
    | rts => exact rxRts_reaches h
    | cts => cases h; exact (rxCts_handles f m sa da s).reaches fun _ => .inl
    | eoma => exact (rxEoma_handles h).reaches fun _ => .inl
    | dpo => cases h; exact (rxDpo_handles f sa da s).reaches fun _ => .inr
    | announce => cases h; rw [hda rfl]; exact rxAnnounce_reaches f sa s
    | abort => cases h; exact rxAbort_reaches f m sa da s

/-- An announce that is not dropped is to the global address (42_session_engine.md R213). -/
theorem global_of_announce (h : badDestination f pgnTpCm da = false) (hk : tpControlKind (f.byte 0) = some .announce) :
    da = globalAddr := by
  by_contra hda
  simp [badDestination, hk, hda] at h

theorem etpControlKind_ne_announce (b : Byte) : etpControlKind b ≠ some .announce := by
  simp only [etpControlKind]
  (repeat' split) <;> simp

theorem tseRx_reaches (h : tseRx f s = .ok t) :
    Reaches (Session.isParty f.channel (idDecode f.identifier).da (idDecode f.identifier).sa) s t := by
  simp only [tseRx] at h
  split at h
  · cases h; exact .of_slots rfl
  split at h
  · cases h; exact .of_slots rfl
  split at h
  · cases h; exact .of_slots rfl
  rename_i hbad
  have hbad := Bool.eq_false_iff.mpr hbad
  split at h
  · rename_i hg
    rw [hg] at hbad
    exact rxControl_reaches (global_of_announce hbad) h
  split at h
  · exact rxControl_reaches (fun hk => absurd hk (etpControlKind_ne_announce _)) h
  split at h
  · split at h
    · rename_i hda
      rw [hda]; exact (rxBamData_handles h).reaches fun _ => .inr
    · exact (rxData_handles h).reaches fun _ => .inr
  · exact (rxData_handles h).reaches fun _ => .inr

theorem routeFrame_reaches (h : routeFrame f s = .ok t) :
    Reaches (Session.isParty f.channel (idDecode f.identifier).da (idDecode f.identifier).sa) s t := by
  simp only [routeFrame] at h
  split at h
  · cases h; exact .of_slots rfl
  split at h
  · cases h; exact .of_slots rfl
  split at h
  · exact tseRx_reaches h
  · cases h; exact .of_slots rfl

theorem exec_rxFrame_reaches (h : exec (.rxFrame f) s = .next t) :
    Reaches (Session.isParty f.channel (idDecode f.identifier).da (idDecode f.identifier).sa) s t := by
  by_cases hl : frameIllegal s.cfg f = true
  · rw [exec_rxFrame_illegal hl] at h; cases h; exact .of_slots rfl
  · simp only [exec, execRxFrame, if_neg hl] at h
    obtain ⟨u, w, hu, rfl⟩ := finish_eq_next h
    exact fun j => routeFrame_reaches hu j

end Frames

/-- Settles O59: the session of neither party's key is none that the frame's handler touches. -/
theorem aFrameReachesOnlyItsPartiesSessions : Obligations.AFrameReachesOnlyItsPartiesSessions := by
  intro s t f j x h hx da sa htx hrx
  refine (exec_rxFrame_reaches h).untouched hx ?_
  rintro (h | h)
  · rw [htx] at h; cases h
  · rw [hrx] at h; cases h

/-! ### UPDATE, TX_SEND and SESSION_ABORT -/

/-- The service of the slots leaves in each a later stage of its session, or none. -/
theorem serviceSlots_kin {now : Millis} : ∀ {l : List Nat} {s t : State}, serviceSlots now l s = .ok t →
    ∀ {j : Nat} {y : Session}, t.slot j = some y → ∃ x, s.slot j = some x ∧ x.Kin y := by
  intro l
  induction l with
  | nil => intro s t h j y hy; cases h; exact ⟨y, hy, .refl y⟩
  | cons i l ih =>
    intro s t h j y hy
    simp only [serviceSlots] at h
    split at h
    · exact ih h hy
    rename_i x hx
    split at h
    · cases h
    rename_i u hu
    obtain ⟨z, hz, later⟩ := ih h hy
    have serves := serviceSlot_serves hx hu
    by_cases hj : j = i
    · subst hj
      obtain ⟨w, hw, kin⟩ := serves.kin z hz
      exact ⟨w, hw, kin.trans later⟩
    · exact ⟨z, serves.others j hj ▸ hz, later⟩

theorem serviceSlots_reaches {now : Millis} {l : List Nat} {s t : State} (h : serviceSlots now l s = .ok t) :
    Reaches (fun _ => True) s t := by
  intro j
  cases hx : s.slot j with
  | none => exact .inr (.inl rfl)
  | some x =>
    refine .inr (.inr ⟨x, rfl, trivial, fun _ y hy => ?_⟩)
    obtain ⟨z, hz, kin⟩ := serviceSlots_kin h hy
    obtain rfl : x = z := Option.some.inj (hx.symm.trans hz)
    exact kin

theorem sendMessage_reaches {q : SendRequest} {s t : State} {b : Bool} {K : Session → Prop} (h : sendMessage q s = .ok (b, t)) :
    Reaches K s t := by
  have opened {m : Mode} {dst : Addr} {k : Control} (h : openTx q m dst k s = .ok (b, t)) : Reaches K s t := by
    obtain rfl | ho := openTx_cases h
    · exact .of_slots rfl
    · exact ho.reaches
  have peer {m : Mode} (h : openPeer q m s = .ok (b, t)) : Reaches K s t := by
    simp only [openPeer] at h
    split at h
    · cases h; exact .of_slots rfl
    · exact opened h
  simp only [sendMessage] at h
  split at h
  · split at h
    · cases h; exact .of_slots rfl
    · cases h; exact .of_slots rfl
    · exact peer h
    · simp only [openBam] at h
      split at h
      · cases h; exact .of_slots rfl
      · exact opened h
    · exact peer h
  · cases h; exact .of_slots rfl

theorem appAbort_reaches (ch : Channel) (src dst : Addr) (dir : Dir) (s : State) :
    Reaches (fun _ => True) s (appAbort ch src dst dir s).2 := by
  simp only [appAbort]
  split
  · rename_i i x hf
    have hx := (State.findSlot_eq_some hf).1
    exact (abortSession_serves i .appAbort (x.mode != .bam) hx).reaches hx trivial
  · exact .of_slots rfl

/-! ### Commands and steps -/

/-- A sender's slot that a command leaves valid holds a later stage of the sender's session. -/
theorem exec_sender {i : Instr} {s t : State} (h : exec i s = .next t) {j : Nat} {x y : Session} (hx : s.slot j = some x)
    (hd : x.dir = .tx) (hy : t.slot j = some y) : x.Kin y := by
  have same {u : State} (hu : u.slots = s.slots) (hut : u.slot j = some y) : x.Kin y :=
    Reaches.sender (K := fun _ => True) (.of_slots hu) hx hd hut
  by_cases hcodec : isCodec i = true
  · obtain ⟨w, hw⟩ := exec_codec_reply hcodec s
    rw [hw] at h; cases h; exact same rfl hy
  cases i with
  | txSend q =>
    by_cases hc : channelIllegal s.cfg q.channel = true
    · rw [exec_txSend_illegal hc] at h; cases h; exact same rfl hy
    · simp only [exec, execTxSend, if_neg hc] at h
      split at h
      · rename_i b u hu
        cases h
        exact (sendMessage_reaches (K := fun _ => True) hu).sender hx hd hy
      · cases h
  | rxFrame f => exact (exec_rxFrame_reaches h).sender hx hd hy
  | update now =>
    obtain ⟨u, w, hu, rfl⟩ := finish_eq_next h
    exact (serviceSlots_reaches hu).sender hx hd hy
  | sessionAbort now ch src dst dir =>
    by_cases hc : channelIllegal s.cfg ch = true
    · rw [exec_sessionAbort_illegal hc] at h; cases h; exact same rfl hy
    · simp only [exec, execSessionAbort, if_neg hc] at h
      cases h
      exact (appAbort_reaches ch src dst dir s).sender hx hd hy
  | status => cases h; exact same rfl hy
  | reset =>
    cases h
    have free := State.slot_of_replicate_none (s := s.resetBlock) rfl j
    rw [State.reply_slot, free] at hy; cases hy
  | _ => exact absurd rfl hcodec

/-- Settles O58: what a later stage of a sender's session keeps is the sender's message. -/
theorem aSendersMessageNeverChanges : Obligations.ASendersMessageNeverChanges := by
  intro s t i x y h hx hd hy
  have kin : x.Kin y := by
    obtain rfl | ⟨record, u, hu, hrun⟩ := step_eq_next h
    · obtain rfl : x = y := Option.some.inj (hx.symm.trans hy)
      exact .refl x
    have hux : u.slot i = some x := by rw [State.slot, State.take_slots hu]; exact hx
    obtain ⟨op, -, hill⟩ | ⟨j, -, hex⟩ := hrun
    · cases hill
      obtain rfl : x = y := Option.some.inj (hux.symm.trans hy)
      exact .refl x
    · exact exec_sender hex hux hd hy
  exact ⟨kin.channel, kin.mode, kin.dir.trans hd, kin.src, kin.dst, kin.pgn, kin.totalLen, kin.totalPkts, kin.buf hd, kin.bufDraw⟩

end Sys2Proof.Machine
end

section
/-! PROOFS. The codec commands read their operands and the configuration alone (40_identifier_codec.md R130, 41_name_codec.md R150); the reset state (70_reset_and_hazards.md R380); and control bytes that name no frame (30_encoding.md R91). -/

namespace Sys2Proof.Machine

/-! ### The codec commands -/

/-- What a codec command writes to the ports depends on its operands and the configuration: in every state it replies by one function of the configuration. -/
theorem exec_codec_write {i : Instr} (hi : isCodec i = true) :
    ∃ write : Config → Ports → Ports, ∀ s : State, exec i s = .next (s.reply (write s.cfg)) := by
  cases i with
  | idEncode ty => cases ty <;> exact ⟨fun _ => _, fun _ => rfl⟩
  | idDecode ty raw =>
    cases ty with
    | standard => exact ⟨fun _ => _, fun _ => rfl⟩
    | extended =>
      exact ⟨fun c p => { p with prio := (idDecode raw).prio, pgn := (idDecode raw).pgn, da := (idDecode raw).da
                                 sa := (idDecode raw).sa, valid := idValid c raw, status := .ok }, fun _ => rfl⟩
  | nameMatch n count fs =>
    refine ⟨fun c => if nameMatchIllegal c count fs then fun p => { p with status := .illegal }
      else fun p => { p with matched := nameMatches n fs, status := .ok }, fun s => ?_⟩
    beta_reduce
    by_cases hill : nameMatchIllegal s.cfg count fs = true
    · rw [if_pos hill]; exact exec_nameMatch_illegal hill n
    · rw [if_neg hill]; exact if_neg hill
  | txSend | rxFrame | update | sessionAbort | status | reset => cases hi
  | _ => exact ⟨fun _ => _, fun _ => rfl⟩

/-- Settles O19: both states reply by the same function of the same configuration, from the same unspecified ports. -/
theorem codecCommandsChangeNoState : Obligations.CodecCommandsChangeNoState := by
  intro i s u hi hcfg hdraws
  obtain ⟨write, hw⟩ := exec_codec_write hi
  exact ⟨_, _, hw s, hw u, by simp only [State.reply_out, hcfg, hdraws], changed_reply s _⟩

/-! ### The reset state -/

/-- Settles O22: every slot of the reset state is free, so none holds a BAM sender. -/
theorem theResetStateIsEmpty : Obligations.TheResetStateIsEmpty := by
  intro c
  have free : ∀ i, (State.resetWith c).slot i = none := State.slot_of_replicate_none (n := c.maxSessions) rfl
  refine ⟨rfl, List.length_replicate, free, rfl, rfl, fun ch => Bool.eq_false_iff.mpr fun h => ?_⟩
  obtain ⟨i, x, hx, -⟩ := State.bamTxActive_iff.mp h
  rw [free i] at hx; cases hx

/-! ### Unknown control bytes -/

theorem tpControlKind_unknown {b : Byte} (h : b ∉ ([0x10, 0x11, 0x13, 0x20, 0xFF] : List Byte)) : tpControlKind b = none := by
  simp only [List.mem_cons, List.not_mem_nil, or_false, not_or] at h
  obtain ⟨rts, cts, eoma, announce, abort⟩ := h
  simp only [tpControlKind, if_neg rts, if_neg cts, if_neg eoma, if_neg announce, if_neg abort]

theorem etpControlKind_unknown {b : Byte} (h : b ∉ ([0x14, 0x15, 0x16, 0x17, 0xFF] : List Byte)) : etpControlKind b = none := by
  simp only [List.mem_cons, List.not_mem_nil, or_false, not_or] at h
  obtain ⟨rts, cts, dpo, eoma, abort⟩ := h
  simp only [etpControlKind, if_neg rts, if_neg cts, if_neg dpo, if_neg eoma, if_neg abort]

/-- Settles O29: the frame reaches the handler of control frames, and its control byte selects no kind. -/
theorem unknownControlBytesAreDropped : Obligations.UnknownControlBytesAreDropped := by
  intro s f da sa hi
  refine ⟨fun hr hb => ?tp, fun hr hb => ?etp⟩
  case tp =>
    have announce : f.byte 0 ≠ 0x20 := fun h => hb (by simp [h])
    refine completes_drop (Received.control (m := .tp) (by decide) hr hi fun _ => announce) .unknownControl ?_
    rw [if_neg (by decide), tpControlKind_unknown hb]; rfl
  case etp =>
    refine completes_drop (Received.control (m := .etp) (by decide) hr hi (by simp)) .unknownControl ?_
    rw [if_pos rfl, etpControlKind_unknown hb]; rfl

end Sys2Proof.Machine
end

section
/-! PROOFS. The control frame a session owes, offered again by UPDATE (42_session_engine.md R206, R207): refused it stays owed; accepted its transition follows, and behind an announce the session's pacing. -/

namespace Sys2Proof.Machine

section Owed
variable {s t : State} {now : Millis} {i : Nat} {x y : Session} {k : Control}

/-- Behind an owed frame whose acceptance ends the session comes nothing. -/
theorem serviceSlot_pending_freed (hp : x.pending = some k) (ho : offer now i x k s = .ok t) (ht : t.slot i = none) :
    serviceSlot now i x s = .ok t := by
  simp only [serviceSlot, hp, ho, ht]

/-- A session that waits for the peer's answer to its RTS or its CTS has no work to do. -/
theorem serviceWork_waiting (h : x.state = .requestedToSend ∨ x.state = .clearToSendSent) : serviceWork now i x s = .ok s := by
  rcases h with h | h <;> simp [serviceWork, h]

/-- Which sessions owe an announce: BAM senders (10_state.md R25). -/
theorem Session.Good.owes_announce {c : Config} (h : x.Good c) (hp : x.pending = some .announce) : x.mode = .bam ∧ x.dir = .tx := by
  have pending := h.pending
  cases hd : x.dir <;> cases hst : x.state <;> simp_all [Session.legalPending]

/-- Which sessions owe an EOMA: receivers with every packet (10_state.md R25). -/
theorem Session.Good.owes_eoma {c : Config} (h : x.Good c) (hp : x.pending = some .eoma) : x.dir = .rx ∧ x.allPackets = true := by
  have pending := h.pending
  cases hd : x.dir <;> cases hst : x.state <;> simp_all [Session.legalPending]

/-- A frame refused is owed as it was. -/
theorem serviceSlot_refused (hx : s.slot i = some x) (hp : x.pending = some k) (ha : s.driverAccepts = false) :
    serviceSlot now i x s = .ok ((s.sendControl x k).setSlot i (some x)) := by
  have same : ({ x with pending := some k } : Session) = x := by rw [← hp]
  have refused : offer now i x k s = .ok ((s.sendControl x k).setSlot i (some x)) := by rw [offer_refused ha, same]; rfl
  rw [serviceSlot_pending hp refused (State.slot_setSlot_self _ (State.lt_of_slot hx) _), if_neg (by simp [hp])]

/-- A BAM sender whose announce was accepted at time `now` (42_session_engine.md R237). -/
def Session.afterAnnounce (x : Session) (now : Millis) : Session :=
  { x with pending := none, lastActivity := now, state := .announced }

/-- What an announce offered and a slot then written change. -/
theorem changed_announce (y : Option Session) :
    s.changed ((s.sendControl x .announce).setSlot i y) { slots := s.slots.set i y, offers := [s.owed x .announce] } :=
  changed_sendControl (by simp) (by simp) y

/-- Behind an accepted announce UPDATE does what it does to the session as it then stands, in a block that is good and where it is the only one live. -/
theorem update_announced (hs : s.wf) (hx : s.only i x) (hp : x.pending = some .announce) (ha : s.driverAccepts = true) :
    ∃ u : State, u = (s.sendControl x .announce).setSlot i (some (x.afterAnnounce now)) ∧ u.wf ∧ u.only i (x.afterAnnounce now) ∧
      exec (.update now) s = exec (.update now) u := by
  refine ⟨_, rfl, ?_⟩
  have good := State.wf_session hs hx.1
  obtain ⟨hm, hd⟩ := good.owes_announce hp
  have sent : offer now i x .announce s = .ok ((s.sendControl x .announce).setSlot i (some (x.afterAnnounce now))) :=
    (offer_accepted ha).trans rfl
  have slot : ((s.sendControl x .announce).setSlot i (some (x.afterAnnounce now))).slot i = some (x.afterAnnounce now) :=
    State.slot_setSlot_self _ (State.lt_of_slot hx.1) _
  have wf : ((s.sendControl x .announce).setSlot i (some (x.afterAnnounce now))).wf := by
    obtain ⟨u, hu, hw⟩ := (offer_keeps (now := now) (k := .announce) hx.1 (by rw [← hp]; exact good)).wf hs
    cases sent.symm.trans hu; exact hw
  have only : ((s.sendControl x .announce).setSlot i (some (x.afterAnnounce now))).only i (x.afterAnnounce now) :=
    ⟨slot, fun j hj => (State.slot_setSlot_ne _ (Ne.symm hj) _).trans (hx.2 j hj)⟩
  refine ⟨wf, only, ?_⟩
  rw [exec_update_only hx, exec_update_only only, serviceSlot_pending hp sent slot,
    if_pos (show (x.afterAnnounce now).pending = none from rfl), serviceSlot_work rfl (.inr (.inr rfl))]

end Owed

/-- A command that does from `t` what it does from `s`, where `s` became `t` by a change. -/
theorem completes.after {i : Instr} {s t : State} {c d : Change} {ports : Ports → Prop} (h : completes i t d ports)
    (hrun : exec i s = exec i t) (hch : s.changed t c) : completes i s
      { slots := d.slots, drops := c.drops + d.drops, messages := c.messages + d.messages, offers := c.offers ++ d.offers
        events := c.events ++ d.events } ports := by
  obtain ⟨u, hu, hcu, hok, hports⟩ := h
  exact ⟨u, hrun.trans hu, hch.trans hcu, hok, hports⟩

section Announced
variable {s : State} {now : Millis} {i : Nat} {x : Session} (hs : s.wf) (hx : s.only i x) (hp : x.pending = some .announce)
  (ha : s.driverAccepts = true)
include hs hx hp ha

/-- Where `BAM_INTERVAL` is not 0, no packet follows an accepted announce. -/
theorem announced_waits (hpos : 0 < s.cfg.bamInterval.toNat) : completes (.update now) s
    { slots := s.slots.set i (some (x.afterAnnounce now)), offers := [s.owed x .announce] } fun _ => True := by
  obtain ⟨hm, hd⟩ := (State.wf_session hs hx.1).owes_announce hp
  obtain ⟨u, rfl, uwf, only, same⟩ := update_announced (now := now) hs hx hp ha
  have early : ¬s.cfg.bamInterval.toNat ≤ (now - (x.afterAnnounce now).lastActivity).toNat := by
    simp [Session.afterAnnounce]; omega
  have idle := computes_same (exec_update_only only) ((serviceSlot_bam (State.wf_session uwf only.1) hm hd rfl).trans (bamPace_within early))
  exact idle.after same (changed_announce _)

/-- Where `BAM_INTERVAL` is 0, an accepted announce is followed by the first packet. -/
theorem announced_paced {bytes : List Byte} (h0 : s.cfg.bamInterval.toNat = 0) (hpk : x.packet x.nextPkt.toNat bytes) :
    let y := x.afterAnnounce now
    let frames := [s.owed x .announce, s.frame 1 x.channel 0xEB00 0xFF x.src (packetData x.nextPkt.toNat bytes)]
    (s.answer 1 = false → completes (.update now) s { slots := s.slots.set i (some y), offers := frames } fun _ => True) ∧
    (s.answer 1 = true → x.nextPkt.toNat < x.totalPkts.toNat → completes (.update now) s
      { slots := s.slots.set i (some { y with nextPkt := x.nextPkt + 1, state := .sending }), offers := frames } fun _ => True) ∧
    (s.answer 1 = true → x.nextPkt.toNat = x.totalPkts.toNat → completes (.update now) s
      { slots := s.slots.set i none, offers := frames, events := [.txCompleted x.channel .bam x.pgn x.src 0xFF] } fun _ => True) := by
  obtain ⟨hm, hd⟩ := (State.wf_session hs hx.1).owes_announce hp
  obtain ⟨u, hu, uwf, only, same⟩ := update_announced (now := now) hs hx hp ha
  have announced : s.changed u { slots := s.slots.set i (some (x.afterAnnounce now)), offers := [s.owed x .announce] } := by
    rw [hu]; exact changed_announce _
  have frame (d : List Byte) : u.frame 0 x.channel 0xEB00 0xFF x.src d = s.frame 1 x.channel 0xEB00 0xFF x.src d := by
    rw [hu, State.setSlot_frame, State.sendControl_frame]
  have answer : u.answer 0 = s.answer 1 := by rw [hu, State.setSlot_answer, State.sendControl_answer]
  have due : u.cfg.bamInterval.toNat ≤ (now - (x.afterAnnounce now).lastActivity).toNat := by rw [announced.cfg, h0]; omega
  obtain ⟨-, refused, more, last⟩ :=
    aBamPacketGoesOutWhenItsIntervalHasPassed u now i (x.afterAnnounce now) bytes uwf only hm hd rfl hpk
  rw [answer, announced.slots] at refused
  rw [answer, announced.slots, List.set_set] at more last
  rw [← frame]
  exact ⟨fun h => (refused due h).after same announced, fun h hn => (more due h hn).after same announced,
    fun h hn => (last due h hn).after same announced⟩

end Announced

/-- Settles O45: UPDATE is the service of the one live slot, which offers the owed frame first; what follows is the frame's transition, and for an announce the pacing of O48. -/
theorem anOwedFrameIsOfferedAgain : Obligations.AnOwedFrameIsOfferedAgain := by
  intro s now i x k hs hx hp
  have good := State.wf_session hs hx.1
  have run := exec_update_only (now := now) hx
  have sent (y : Option Session) := changed_sendControl (s := s) (i := i) (x := x) (k := k) (fun _ => good.nextMax) (fun _ => good.nextPos) y
  have slot (y : Session) : ((s.sendControl x k).setSlot i (some y)).slot i = some y :=
    State.slot_setSlot_self _ (State.lt_of_slot hx.1) _
  refine ⟨fun ha => ?refused, fun ha => ⟨?rts, ?announce, ?cts, ?eoma⟩⟩
  case refused =>
    have := sent (some x)
    rw [State.set_slot hx.1] at this
    exact completes_of_run run (serviceSlot_refused hx.1 hp ha) this
  case rts =>
    rintro rfl
    refine completes_of_run run ?_ (sent _)
    rw [serviceSlot_pending hp ((offer_accepted ha).trans rfl) (slot _), if_pos rfl]
    exact serviceWork_waiting (.inl rfl)
  case announce =>
    rintro rfl y
    exact ⟨announced_waits hs hx hp ha, fun bytes h0 hpk => announced_paced hs hx hp ha h0 hpk⟩
  case cts =>
    rintro rfl
    obtain ⟨t, ht, hch⟩ := offer_cts now i s good.nextMax
    have hslot : t.slot i = some (s.afterCts x now) := by
      rw [State.slot, hch.slots]; exact s.slot_setSlot_self (State.lt_of_slot hx.1) _
    refine completes_of_run run ?_ hch
    rw [serviceSlot_pending hp ht hslot, if_pos (by simp [State.afterCts, ha])]
    exact serviceWork_waiting (.inr (by simp [State.afterCts, ha]))
  case eoma =>
    rintro rfl
    obtain ⟨hd, hall⟩ := good.owes_eoma hp
    obtain ⟨payload, hread, hmsg⟩ := message_of_filled (good.full hd hall)
    obtain ⟨t, ht, hch⟩ := offer_eoma_accepted now i s ha hd hread
    have hslot : t.slot i = none := by rw [State.slot, hch.slots]; exact s.slot_free_self i
    exact ⟨payload, hmsg, completes_of_run run (serviceSlot_pending_freed hp ht hslot) hch⟩

end Sys2Proof.Machine
end

section
/-! PROOFS. A TP message received in order, from its RTS to its delivery (42_session_engine.md R228 to R235, R245): what the receiving session holds after each of its packets. -/

namespace Sys2Proof.Machine

section Changed
variable {s u : State}

theorem State.changed.slot {c : Change} {i : Nat} {y : Option Session} (h : s.changed u c) (hc : c.slots = s.slots.set i y)
    (hi : i < s.slots.length) : u.slot i = y := by
  rw [State.slot, h.slots, hc]; exact State.slot_setSlot_self s hi y

theorem State.changed.isInternal {c : Change} (h : s.changed u c) (ch : Channel) (a : Addr) : u.isInternal ch a = s.isInternal ch a := by
  rw [State.isInternal, h.registry]; rfl

/-- The driver's answer behind the offers of a change. -/
theorem State.changed.answer {c : Change} (h : s.changed u c) (ha : s.driverIn[c.offers.length]? = some true) : u.answer 0 = true := by
  have : u.driverIn[0]? = some true := by rw [h.driverIn, List.getElem?_drop]; exact ha
  rw [State.answer, List.drop_zero, List.headD_eq_head?_getD, List.head?_eq_getElem?, this]; rfl

/-- `CTS_MAX_PACKETS` of a block is at least 1 (00_scope.md R7). -/
theorem ctsMax_pos (hs : s.wf) : 1 ≤ s.cfg.ctsMaxPackets.toNat := by
  have := hs.1
  simp only [Config.wf, Bool.and_eq_true, decide_eq_true_eq] at this
  exact this.2

/-- The most packets the sender answers a CTS with, as the block keeps it: at least one. -/
theorem rtsMax_pos {c : Prop} [Decidable c] (b : Byte) : 1 ≤ (if c ∧ b ≠ 0 then b else 0xFF : Byte).toNat := by
  split
  case isTrue h => exact Nat.pos_of_ne_zero fun h0 => h.2 (BitVec.eq_of_toNat_eq h0)
  case isFalse => decide

end Changed

/-- A run of commands behind another. -/
theorem runAll_append {is js : List Instr} {s t : State} (h : runAll is s = .next t) : runAll (is ++ js) s = runAll js t := by
  induction is generalizing s with
  | nil => cases h; rfl
  | cons i is ih =>
    cases hi : exec i s <;> simp only [List.cons_append, runAll, hi, reduceCtorEq] at h ⊢
    exact ih h

theorem runAll_concat {is : List Instr} {i : Instr} {s t u : State} (h : runAll is s = .next t) (hi : exec i t = .next u) :
    runAll (is ++ [i]) s = .next u := by
  rw [runAll_append h]; simp only [runAll, hi]

/-! ### The frames of a message -/

/-- A TP message as its sender puts it on a channel: the parties, the priority, the PGN, the most packets it answers a CTS with, the payload, and the times at which its frames arrive. -/
structure Incoming where
  channel : Channel
  da      : Addr
  sa      : Addr
  prio    : BitVec 3
  pgn     : Pgn
  most    : Byte
  payload : List Byte
  times   : Nat → Millis

namespace Incoming

/-- The packets of the message. -/
def count (p : Incoming) : Nat := (p.payload.length + 6) / 7

/-- The RTS of the message (30_encoding.md R91). -/
def rts (p : Incoming) : Frame :=
  ⟨p.channel, idEncode p.prio 0xEC00 p.da p.sa, [0x10] ++ littleEndian 2 p.payload.length ++
    [BitVec.ofNat 8 p.count, p.most] ++ littleEndian 3 p.pgn.toNat, 8, true, p.times 0⟩

/-- The data frame behind the first `k` of the message. -/
def data (p : Incoming) (k : Nat) : Frame :=
  ⟨p.channel, idEncode p.prio 0xEB00 p.da p.sa, packetData (k + 1) ((p.payload.drop (7 * k)).take 7), 8, true, p.times (k + 1)⟩

/-- The message has the length of a TP message. -/
def Short (p : Incoming) : Prop := 1 ≤ p.payload.length ∧ p.payload.length ≤ 1785

end Incoming

theorem packetData_length (n : Nat) {bytes : List Byte} (h : bytes.length ≤ 7) : (packetData n bytes).length = 8 := by
  simp [packetData]; omega

/-- Behind its sequence number a data frame holds the packet. -/
theorem packetData_getElem? (n : Nat) {bytes : List Byte} {j : Nat} (h : j < bytes.length) : (packetData n bytes)[j + 1]? = bytes[j]? := by
  simp [packetData, List.getElem?_append_left h]

theorem leNumber_littleEndian_two {n : Nat} (h : n < 2 ^ 16) {a b : Byte} (hab : littleEndian 2 n = [a, b]) : leNumber [a, b] = n := by
  cases hab; simp [leNumber]; omega

section Frames
variable {p : Incoming} {s : State} {k : Nat}

/-- An extended frame of eight bytes under the identifier of a transport PGN reaches the engine. -/
theorem Received.of_transport {f : Frame} {g : Pgn} {prio : BitVec 3} {da sa : Addr} (hg : g ∈ [pgnTpCm, pgnTpDt, pgnEtpCm, pgnEtpDt])
    (hid : f.identifier = idEncode prio g da sa) (hch : f.channel.toNat < s.cfg.numChannels) (hext : f.extended = true)
    (hlen : f.length = 8) (hdata : f.data.length = 8) : Received s f g da sa where
  channel := hch
  extended := hext
  length := hlen
  data := hdata
  reserved := hid ▸ idEncode_lt ..
  pgn := by rw [hid, idDecode_transport hg]
  da := by rw [hid, idDecode_transport hg]
  sa := by rw [hid, idDecode_transport hg]

theorem Incoming.data_received (h : p.channel.toNat < s.cfg.numChannels) : Received s (p.data k) 0xEB00 p.da p.sa :=
  .of_transport (by decide) rfl h rfl rfl (packetData_length _ (by simp))

theorem Incoming.rts_received (h : p.channel.toNat < s.cfg.numChannels) : Received s p.rts 0xEC00 p.da p.sa :=
  .of_transport (by decide) rfl h rfl rfl rfl

/-- The sequence numbers of a TP message fit their byte. -/
theorem Incoming.data_seq (hp : p.Short) (hk : k < p.count) : ((p.data k).byte 0).toNat = k + 1 := by
  have hn : k + 1 < 256 := by simp only [Incoming.count] at hk; have := hp.2; omega
  exact (BitVec.toNat_ofNat ..).trans (Nat.mod_eq_of_lt hn)

/-- The bytes of the message in its `k`-th packet. -/
theorem Incoming.data_byte {j : Nat} (h1 : 7 * k ≤ j) (h2 : j < 7 * (k + 1)) (h3 : j < p.payload.length) :
    (p.data k).data[j - 7 * k + 1]? = p.payload[j]? := by
  have inside : j - 7 * k < ((p.payload.drop (7 * k)).take 7).length := by simp; omega
  rw [Incoming.data, packetData_getElem? _ inside, List.getElem?_take_of_lt (by omega), List.getElem?_drop, Nat.add_sub_cancel' h1]

theorem Incoming.rts_len (hp : p.Short) : leNumber [p.rts.byte 1, p.rts.byte 2] = p.payload.length :=
  leNumber_littleEndian_two (Nat.lt_of_le_of_lt hp.2 (by decide)) rfl

theorem Incoming.rts_count (hp : p.Short) : (p.rts.byte 3).toNat = (p.payload.length + 6) / 7 :=
  (BitVec.toNat_ofNat ..).trans (Nat.mod_eq_of_lt (by have := hp.2; simp only [Incoming.count]; omega))

theorem Incoming.rts_pgn : BitVec.ofNat 18 (pgnNumber p.rts) = p.pgn := by
  have field : leNumber [p.rts.byte 5, p.rts.byte 6, p.rts.byte 7] = p.pgn.toNat := by
    have := p.pgn.isLt
    simp [Incoming.rts, Frame.byte, littleEndian, leNumber, List.range_succ]; omega
  rw [pgnNumber, field, Nat.mod_eq_of_lt p.pgn.isLt, BitVec.ofNat_toNat, BitVec.setWidth_eq]

end Frames

/-! ### The session that receives it -/

/-- Session `x` receives the message `p` and holds its first `k` packets. -/
structure Session.Receives (x : Session) (p : Incoming) (k : Nat) : Prop where
  key    : x.hasKey p.channel p.sa p.da .rx = true
  mode   : x.mode = .tp
  pgn    : x.pgn = p.pgn
  len    : x.totalLen = BitVec.ofNat 32 p.payload.length
  next   : x.nextPkt.toNat = k + 1
  rtsMax : 1 ≤ x.rtsMax.toNat
  bytes  : ∀ j, j < 7 * k → j < p.payload.length → x.buf.byte j = p.payload[j]?

section Receives
variable {x : Session} {p : Incoming} {k : Nat} {s : State} {now : Millis}

theorem Session.Receives.totalLen (h : x.Receives p k) (hp : p.Short) : x.totalLen.toNat = p.payload.length := by
  rw [h.len, BitVec.toNat_ofNat]; have := hp.2; omega

/-- A CTS moves the grant, and nothing of the message. -/
theorem Session.Receives.afterCts (h : x.Receives p k) : (s.afterCts x now).Receives p k := by
  rw [State.afterCts]; split <;> exact ⟨h.key, h.mode, h.pgn, h.len, h.next, h.rtsMax, h.bytes⟩

/-- An accepted CTS grants a packet at least, while one is left. -/
theorem State.afterCts_granted (hc : 1 ≤ s.cfg.ctsMaxPackets.toNat) (hm : x.mode = .tp) (hr : 1 ≤ x.rtsMax.toNat)
    (hn : x.nextPkt.toNat ≤ x.totalPkts.toNat) (ha : s.answer 0 = true) : (s.afterCts x now).granted := by
  have grant : (BitVec.ofNat 8 (x.grant s.cfg)).toNat = x.grant s.cfg := by
    have := x.rtsMax.isLt
    simp only [BitVec.toNat_ofNat, Session.grant]; omega
  have some : BitVec.ofNat 8 (x.grant s.cfg) ≠ 0 := by
    intro h0
    rw [h0] at grant
    simp [Session.grant] at grant; omega
  rw [State.afterCts, if_pos ha]
  exact ⟨.inl rfl, some, rfl, fun h => absurd (hm.symm.trans h) (by decide)⟩

/-- With its next packet stored the buffer holds the message up to that packet. -/
theorem Session.Receives.stored (h : x.Receives p k) (hp : p.Short) {buf : Memory} (hst : x.stores (p.data k) buf) {j : Nat}
    (hj : j < 7 * (k + 1)) (hl : j < p.payload.length) : buf.byte j = p.payload[j]? := by
  rw [hst.2, h.totalLen hp, h.next, Nat.add_sub_cancel]
  split
  case isTrue new => exact Incoming.data_byte new.1 hj hl
  case isFalse old => exact h.bytes j (by omega) hl

/-- With its last packet the session holds the message. -/
theorem Session.Receives.message (h : x.Receives p k) (hp : p.Short) {buf : Memory} (hst : x.stores (p.data k) buf) (hk : k + 1 = p.count)
    {payload : List Byte} (hm : buf.message x.totalLen.toNat payload) : payload = p.payload := by
  obtain ⟨len, bytes⟩ := hm
  rw [h.totalLen hp] at len bytes
  refine List.ext_getElem? fun j => ?_
  rcases Nat.lt_or_ge j p.payload.length with hj | hj
  · rw [← bytes j hj]
    exact h.stored hp hst (by simp only [Incoming.count] at hk; omega) hj
  · rw [List.getElem?_eq_none hj, List.getElem?_eq_none (len.trans_le hj)]

theorem Session.Receives.expected (h : x.Receives p k) : x.expected = k + 1 := by
  rw [Session.expected, if_neg (by rw [h.mode]; decide), h.next]

theorem Session.Receives.total (h : x.Receives p k) (hp : p.Short) {c : Config} (hg : x.Good c) : x.totalPkts.toNat = p.count := by
  rw [hg.count, h.totalLen hp, Incoming.count]

/-- The session after its next packet, more than which is to come. -/
theorem Session.Receives.afterData (h : x.Receives p k) (hp : p.Short) {buf : Memory} (hst : x.stores (p.data k) buf)
    (hn : x.nextPkt.toNat < x.totalPkts.toNat) : (x.afterData (p.data k) buf).Receives p (k + 1) where
  key := h.key
  mode := h.mode
  pgn := h.pgn
  len := h.len
  next := by
    show (x.nextPkt + 1).toNat = _
    have := x.totalPkts.isLt
    rw [← h.next, BitVec.toNat_add]; simp; omega
  rtsMax := h.rtsMax
  bytes := fun _ hj hl => h.stored hp hst hj hl

end Receives

/-! ### The block that receives it -/

/-- The next data frame of the message is the one the session expects. -/
structure Expects (p : Incoming) (k : Nat) (u : State) (i : Nat) (x : Session) : Prop where
  received : Received u (p.data k) x.mode.dt p.da p.sa
  internal : u.isInternal p.channel p.da = true
  holds    : u.holds i x p.channel p.sa p.da .rx
  seq      : ((p.data k).byte 0).toNat = x.expected
  total    : x.totalPkts.toNat = p.count
  peer     : x.mode ≠ .bam

/-- From `s` the block has come to `u` by the RTS of `p` and its first `k` packets: slot `i` holds the session `x`, which may receive on, and at most one frame was offered for each frame received. -/
structure Receiving (p : Incoming) (s : State) (i k : Nat) (u : State) (x : Session) : Prop where
  wf       : u.wf
  changed  : ∃ offers, offers.length ≤ k + 1 ∧ s.changed u { slots := s.slots.set i (some x), offers := offers }
  receives : x.Receives p k
  granted  : x.granted

section Block
variable {p : Incoming} {s u : State} {i k : Nat} {x : Session}
  (hp : p.Short) (hch : p.channel.toNat < s.cfg.numChannels) (hin : s.isInternal p.channel p.da = true)
  (hi : i < s.slots.length) (hacc : ∀ k, k ≤ p.payload.length → s.driverIn[k]? = some true)

include hacc in
theorem Receiving.answer (h : Receiving p s i k u x) (hk : k + 1 ≤ p.payload.length) : u.answer 0 = true := by
  obtain ⟨offers, hn, hc⟩ := h.changed
  exact hc.answer (hacc _ (by show offers.length ≤ _; omega))

include hp hch hin hacc in
/-- The RTS opens the session and its first packets are asked for. -/
theorem receiving_rts (hs : s.wf) (hk : s.keyFree p.channel p.sa p.da .rx) (hl : s.lowestFree i)
    (hal : s.canAllocate p.payload.length = true) : ∃ u x, exec (.rxFrame p.rts) s = .next u ∧ Receiving p s i 0 u x := by
  have len := Incoming.rts_len hp
  have opened := anAcceptedRtsOpensAReceiver s p.rts .tp p.da p.sa i (by decide) (Incoming.rts_received hch) hin rfl hk
  simp only [reduceCtorEq, if_false, len] at opened
  obtain ⟨u, run, hc, -, -⟩ := opened hp.1 hp.2 (fun _ => Incoming.rts_count hp) hl hal
  have accepted : s.answer 0 = true := (State.changed.refl s).answer (hacc 0 (Nat.zero_le _))
  refine ⟨u, _, run, exec_wf hs rfl run, ⟨_, le_refl _, hc⟩,
    Session.Receives.afterCts ⟨?_, rfl, Incoming.rts_pgn, rfl, rfl, rtsMax_pos _, nofun⟩,
    State.afterCts_granted (ctsMax_pos hs) rfl (rtsMax_pos _) ?_ accepted⟩
  · simp [Session.hasKey]; rfl
  · show 1 ≤ (BitVec.ofNat 24 _).toNat
    have := hp.1; have := hp.2
    rw [BitVec.toNat_ofNat]; omega

include hp hch hin hi in
theorem Receiving.expects (h : Receiving p s i k u x) (hk : k < p.count) : Expects p k u i x := by
  obtain ⟨offers, hn, hc⟩ := h.changed
  have slot : u.slot i = some x := hc.slot rfl hi
  have r := h.receives
  have tp := r.mode
  exact {
    received := by rw [tp]; exact Incoming.data_received (by rw [hc.cfg]; exact hch)
    internal := by rw [hc.isInternal, hin]
    holds := ⟨slot, r.key⟩
    seq := (Incoming.data_seq hp hk).trans r.expected.symm
    total := r.total hp (State.wf_session h.wf slot)
    peer := by rw [tp]; decide }

/-- A frame that offers at most one frame and leaves slot `i` to `y`: the receiving goes on. -/
theorem Receiving.next (h : Receiving p s i k u x) {t : State} {y : Session} {offers : List Offer} {f : Frame}
    (run : exec (.rxFrame f) u = .next t) (ht : u.changed t { slots := u.slots.set i (some y), offers := offers })
    (hn : offers.length ≤ 1) (hy : y.Receives p (k + 1)) (hg : y.granted) : Receiving p s i (k + 1) t y := by
  obtain ⟨before, hb, hc⟩ := h.changed
  have changed := hc.trans ht
  rw [hc.slots, List.set_set] at changed
  exact ⟨exec_wf h.wf rfl run, ⟨before ++ offers, by rw [List.length_append]; omega, changed⟩, hy, hg⟩

include hp hch hin hi hacc

/-- A packet but the last is stored, and the session goes on with the next. -/
theorem Receiving.data (h : Receiving p s i k u x) (hk : k + 1 < p.count) :
    ∃ t y, exec (.rxFrame (p.data k)) u = .next t ∧ Receiving p s i (k + 1) t y := by
  have e := h.expects hp hch hin hi (by omega)
  have r := h.receives
  have more : x.nextPkt.toNat < x.totalPkts.toNat := by rw [r.next, e.total]; exact hk
  obtain ⟨buf, hst, within, ends⟩ :=
    dataInOrderIsStored u (p.data k) i x p.da p.sa h.wf e.peer e.received e.internal e.holds h.granted e.seq more
  have stored := r.afterData hp hst more
  obtain ⟨-, grant, pending, seen⟩ := h.granted
  rcases Nat.lt_or_ge 1 x.burstLeft.toNat with h1 | h1
  case inl =>
    obtain ⟨t, run, ht, -, -⟩ := within h1
    have left : x.burstLeft - 1 ≠ 0 := by bv_omega
    exact ⟨t, _, run, h.next run ht (Nat.zero_le _) stored ⟨.inr rfl, left, pending, seen⟩⟩
  case inr =>
    obtain ⟨t, run, ht, -, -⟩ := ends (by bv_omega)
    have answer : u.answer 0 = true := h.answer hacc (by simp only [Incoming.count] at hk; omega)
    have next : (x.afterData (p.data k) buf).nextPkt.toNat ≤ x.totalPkts.toNat := by rw [stored.next, e.total]; exact hk
    exact ⟨t, _, run, h.next run ht (le_refl _) stored.afterCts
      (State.afterCts_granted (ctsMax_pos h.wf) r.mode r.rtsMax next answer)⟩

/-- The last packet is acknowledged: the message is delivered and the slot is free. -/
theorem Receiving.last (h : Receiving p s i k u x) (hk : k + 1 = p.count) : ∃ t, exec (.rxFrame (p.data k)) u = .next t ∧
    t.events = s.events ++ [.delivered p.channel p.pgn p.sa p.da (BitVec.ofNat 32 p.payload.length) p.payload s.nextMsgId] ∧
    t.slots = s.slots.set i none ∧ t.dropCount = s.dropCount := by
  have e := h.expects hp hch hin hi (by omega)
  have r := h.receives
  have last : x.nextPkt.toNat = x.totalPkts.toNat := by rw [r.next, e.total]; exact hk
  obtain ⟨buf, payload, hst, hmsg, accepted, -⟩ :=
    theLastPacketIsAcknowledged u (p.data k) i x p.da p.sa h.wf e.peer e.received e.internal e.holds h.granted e.seq last
  have answer : u.answer 0 = true := h.answer hacc (by simp only [Incoming.count] at hk; have := hp.1; omega)
  obtain ⟨t, run, ht, -, -⟩ := accepted answer
  obtain ⟨offers, hn, hc⟩ := h.changed
  have changed := hc.trans ht
  obtain ⟨hchan, hsrc, hdst, -⟩ := Session.hasKey_iff.mp r.key
  refine ⟨t, run, ?events, ?slots, ?drops⟩
  case events => rw [changed.events, r.message hp hst hk hmsg, hchan, hsrc, hdst, r.pgn, r.len, hc.nextMsgId]; simp
  case slots => rw [changed.slots, hc.slots, List.set_set]
  case drops => rw [changed.dropCount]; simp

/-- What the block has come to by the RTS and packets of the message, but not the last. -/
theorem receiving_run (hs : s.wf) (hk : s.keyFree p.channel p.sa p.da .rx) (hl : s.lowestFree i)
    (hal : s.canAllocate p.payload.length = true) (hlt : k < p.count) :
    ∃ u x, runAll (.rxFrame p.rts :: (List.range k).map fun j => .rxFrame (p.data j)) s = .next u ∧ Receiving p s i k u x := by
  induction k with
  | zero =>
    obtain ⟨u, x, run, h⟩ := receiving_rts hp hch hin hacc hs hk hl hal
    exact ⟨u, x, runAll_concat (is := []) rfl run, h⟩
  | succ k ih =>
    obtain ⟨u, x, before, h⟩ := ih (by omega)
    obtain ⟨t, y, run, h'⟩ := h.data hp hch hin hi hacc hlt
    rw [List.range_succ, List.map_append, ← List.cons_append]
    exact ⟨t, y, runAll_concat before run, h'⟩

end Block

/-- Settles O60: by induction on the packets the block stays one that receives the message on, and the last packet delivers it. -/
theorem aMessageReceivedInOrderIsDeliveredWhole : Obligations.AMessageReceivedInOrderIsDeliveredWhole := by
  intro s ch da sa prio g most payload i times hs hch hin hk hl hal hacc h1 h2 count
  obtain ⟨n, hn⟩ : ∃ n, count = n + 1 := ⟨count - 1, by omega⟩
  let p : Incoming := ⟨ch, da, sa, prio, g, most, payload, times⟩
  obtain ⟨u, x, before, h⟩ := receiving_run (p := p) (k := n) ⟨h1, h2⟩ hch hin hl.1 hacc hs hk hl hal (by show n < count; omega)
  obtain ⟨t, run, events, slots, drops⟩ := h.last ⟨h1, h2⟩ hch hin hl.1 hacc hn.symm
  intro rts data
  rw [hn, List.range_succ, List.map_append, ← List.cons_append]
  refine ⟨t, runAll_concat before run, events, ?_, drops⟩
  rw [slots, ← hl.2.1, State.set_slot_self]

end Sys2Proof.Machine
end
